-- ==== Sys2Proof/Word.lean ====
section
/-! DEFINITION. The word types of the core: bytes, bus words, 64-bit integers, 16-byte strings, bus offsets. -/

namespace Sys2Proof

/-- One byte of a byte string (00_scope R8). -/
abbrev Byte := BitVec 8

/-- A bus word: every access is 32 bits wide (20_memory R87). -/
abbrev Word := BitVec 32

/-- A 64-bit integer: an EUI, a timestamp, TIME (10_state R45, R69 to R71). -/
abbrev DWord := BitVec 64

/-- A 16-byte string in its register packing: byte i in bits 8i+7 : 8i (20_memory R81). -/
abbrev Block := BitVec 128

/-- A byte offset in the 4 KiB window (20_memory R80). -/
abbrev Offset := BitVec 12

end Sys2Proof
end

