-- ==== Sys2Proof/Config.lean ====
section
/-! DEFINITION. What the hardware fixes, and the free values: what the spec leaves open, as constants with no body. -/

namespace Sys2Proof.Config

/-- The ID register's constant value (10_state R32). -/
def idValue : Word := 0x4C570001#32

/-- Offset of CTRL (10_state R33). -/
def ctrlOffset : Offset := 0x004#12
/-- Offset of IRQ_STATUS (10_state R35). -/
def irqStatusOffset : Offset := 0x00C#12
/-- Offset of CMD (10_state R37). -/
def cmdOffset : Offset := 0x014#12
/-- Offset of SCHED_CTRL (10_state R60). -/
def schedCtrlOffset : Offset := 0x200#12
/-- Offset of EVENT (10_state R68). -/
def eventOffset : Offset := 0x21C#12

/-- Bus byte address of PBUF's byte 0 (10_state R58). -/
def pbufBase : Nat := 0x400
/-- Bus byte address of FBUF's byte 0 (10_state R58). -/
def fbufBase : Nat := 0x500
/-- The size of each buffer in bytes (00_scope R7). -/
def bufBytes : Nat := 256

/-- FREE VALUE (log 6): the byte at bus address `a` of a buffer, as long as nothing has written it, in the
`epoch`-th unspecified contents the buffers took (70_reset_and_hazards R330, R331). -/
opaque unwrittenByte (epoch a : Nat) : Byte

/-- FREE VALUE (log 7): what the `n`-th open read returns: a read of a locked address while BUSY (30_encoding R117). -/
opaque busyReadData (n : Nat) : Word

/-- FREE VALUE (log 4): CMD_LATENCY less 1 of a command with this opcode and LEN; the draw `n`, fresh for every
command, stands for its other operands (00_scope R7, 70_reset_and_hazards R350). -/
opaque extraLatency (opc : Byte) (len : BitVec 9) (n : Nat) : Nat

/-- CMD_LATENCY in clock cycles: open, and at least 1 (30_encoding R116). -/
def cmdLatency (opc : Byte) (len : BitVec 9) (n : Nat) : Nat := extraLatency opc len n + 1

end Sys2Proof.Config
end

