-- ==== Sys2Proof/Syntax.lean ====
section
/-! DEFINITION. The instructions of the core: one constructor for each row of spec/opcode_table.json. -/

namespace Sys2Proof

/-- The node classes of SCHED_CTRL.CLASS: 0 is Class A, 1 is Class C (10_state R60). -/
inductive DevClass where
  | a
  | c
deriving DecidableEq, Repr

/-- The KS field of a command: a key slot 0..3 (30_encoding R110). -/
abbrev KeySlot := BitVec 2

/-- The LEN field of a command: a byte count 0..511, of which 0..256 are legal (30_encoding R110). -/
abbrev Len := BitVec 9

/-- The core is no processor: its instructions are the commands written to CMD, the writes to EVENT,
SCHED_CTRL, CTRL and IRQ_STATUS, and the millisecond tick (00_scope R3). -/
inductive Instr where
  /-- ECB Kn (40_crypto R160). -/
  | ecb (ks : KeySlot)
  /-- CMAC Kn, len (40_crypto R161). -/
  | cmac (ks : KeySlot) (len : Len)
  /-- CTR Kn, len (40_crypto R162). -/
  | ctr (ks : KeySlot) (len : Len)
  /-- DERIVE (40_crypto R163). -/
  | derive
  /-- SESSRST (41_codec R200). -/
  | sessRst
  /-- JREQ_ENC (41_codec R201). -/
  | jreqEnc
  /-- JACC_DEC len (41_codec R202). -/
  | jaccDec (len : Len)
  /-- DATA_ENC len (41_codec R203). -/
  | dataEnc (len : Len)
  /-- DATA_DEC len (41_codec R204). -/
  | dataDec (len : Len)
  /-- EVENT with TX_DONE and without RX_DONE (42_scheduler R255). -/
  | evTxDone
  /-- EVENT with RX_DONE and without CRC_ERR (42_scheduler R257). -/
  | evRxOk
  /-- EVENT with RX_DONE and CRC_ERR (42_scheduler R258). -/
  | evRxCrcErr
  /-- EVENT with TX_DONE and RX_DONE together (42_scheduler R245). -/
  | evBoth
  /-- EVENT with neither TX_DONE nor RX_DONE (42_scheduler R245). -/
  | evNone
  /-- A write of SCHED_CTRL.CLASS (42_scheduler R262). -/
  | setClass (cls : DevClass)
  /-- A write of 1 to CTRL.SRST (70_reset_and_hazards R331). -/
  | srst
  /-- A write of IRQ_STATUS: the bits 4:0 written as 1 are cleared (30_encoding R122). -/
  | irqAck (mask : BitVec 5)
  /-- One pulse of the `ms_tick` pin (42_scheduler R240). -/
  | tick
deriving DecidableEq, Repr

end Sys2Proof
end

