-- ==== Sys2Proof/Decode.lean ====
section
/-! DEFINITION. Decoding: from a signal of the host (a bus write, a pulse of the tick pin) to an instruction, total,
rejecting by name; and the encoder, from the same tables of 30_encoding. -/

namespace Sys2Proof

/-- What can carry an instruction into the core: a 32-bit bus write, or one pulse of `ms_tick`, which is no bus
word (30_encoding R123). -/
inductive Signal where
  | busWrite (off : Offset) (v : Word)
  | msTick
deriving DecidableEq, Repr

/-- Why a signal is no instruction. The first three are the illegal encodings of 30_encoding R113. -/
inductive Reject where
  /-- A command word whose OPC is not in R112's table. -/
  | unknownOpcode
  /-- A command word with a nonzero bit in 15:10 or 31:25. -/
  | reservedBits
  /-- A command word with a nonzero KS or LEN where R112 says "must be 0". -/
  | fieldMustBeZero
  /-- A CTRL write with bit 0 = 0: no effect (30_encoding R121). -/
  | ctrlWithoutSrst
  /-- A write to an offset that starts nothing: a plain register write (20_memory R86). -/
  | plainWrite
deriving DecidableEq, Repr

/-! ## The command word (30_encoding R110 to R113) -/

/-- OPC, bits 7:0. -/
def cmdOpc (w : Word) : Byte := w.extractLsb' 0 8
/-- KS, bits 9:8. -/
def cmdKs (w : Word) : KeySlot := w.extractLsb' 8 2
/-- LEN, bits 24:16. -/
def cmdLen (w : Word) : Len := w.extractLsb' 16 9
/-- The reserved bits 15:10 and 31:25 are all 0. -/
def cmdReservedZero (w : Word) : Bool := w.extractLsb' 10 6 == 0 && w.extractLsb' 25 7 == 0

/-- One row of R112's opcode map: whether the command takes KS and LEN ("must be 0" otherwise), and its instruction. -/
structure OpcodeRow where
  opc : Byte
  takesKs : Bool
  takesLen : Bool
  make : KeySlot → Len → Instr

/-- The opcode map of 30_encoding R112. -/
def opcodeMap : List OpcodeRow := [
  ⟨0x01, true,  false, fun ks _ => .ecb ks⟩,
  ⟨0x02, true,  true,  fun ks len => .cmac ks len⟩,
  ⟨0x03, true,  true,  fun ks len => .ctr ks len⟩,
  ⟨0x04, false, false, fun _ _ => .derive⟩,
  ⟨0x05, false, false, fun _ _ => .sessRst⟩,
  ⟨0x10, false, false, fun _ _ => .jreqEnc⟩,
  ⟨0x11, false, true,  fun _ len => .jaccDec len⟩,
  ⟨0x12, false, true,  fun _ len => .dataEnc len⟩,
  ⟨0x13, false, true,  fun _ len => .dataDec len⟩]

/-- The encoding checks 1 and 2 of 30_encoding R118, in order. -/
def decodeCmd (w : Word) : Except Reject Instr :=
  match opcodeMap.find? (fun row => row.opc == cmdOpc w) with
  | none => .error .unknownOpcode
  | some row =>
    if !cmdReservedZero w then .error .reservedBits
    else if (!row.takesKs && cmdKs w != 0) || (!row.takesLen && cmdLen w != 0) then .error .fieldMustBeZero
    else .ok (row.make (cmdKs w) (cmdLen w))

/-! ## The other bus forms (30_encoding R119 to R122) -/

/-- The kind of an EVENT write, from v[2:0]; bits 31:3 are ignored (42_scheduler R245). -/
def decodeEvent (v : Word) : Instr :=
  let tx := v.getLsbD 0
  let rx := v.getLsbD 1
  let crc := v.getLsbD 2
  if tx && rx then .evBoth
  else if tx then .evTxDone
  else if rx && !crc then .evRxOk
  else if rx then .evRxCrcErr
  else .evNone

/-- CLASS is set to v[0] (30_encoding R120). -/
def decodeClass (v : Word) : DevClass := if v.getLsbD 0 then .c else .a

/-- What a signal is. -/
def decode : Signal → Except Reject Instr
  | .msTick => .ok .tick
  | .busWrite off v =>
    if off = Config.cmdOffset then decodeCmd v
    else if off = Config.eventOffset then .ok (decodeEvent v)
    else if off = Config.schedCtrlOffset then .ok (.setClass (decodeClass v))
    else if off = Config.ctrlOffset then (if v.getLsbD 0 then .ok .srst else .error .ctrlWithoutSrst)
    else if off = Config.irqStatusOffset then .ok (.irqAck (v.extractLsb' 0 5))
    else .error .plainWrite

/-! ## The encoder -/

/-- "The assembler emits OPC | n<<8 | len<<16" (30_encoding R124). -/
def cmdWord (opc : Byte) (ks : KeySlot) (len : Len) : Word :=
  opc.setWidth 32 ||| (ks.setWidth 32 <<< 8) ||| (len.setWidth 32 <<< 16)

/-- The signal that carries an instruction; bits the form ignores are written as 0 (log 20). -/
def encode : Instr → Signal
  | .ecb ks => .busWrite Config.cmdOffset (cmdWord 0x01 ks 0)
  | .cmac ks len => .busWrite Config.cmdOffset (cmdWord 0x02 ks len)
  | .ctr ks len => .busWrite Config.cmdOffset (cmdWord 0x03 ks len)
  | .derive => .busWrite Config.cmdOffset (cmdWord 0x04 0 0)
  | .sessRst => .busWrite Config.cmdOffset (cmdWord 0x05 0 0)
  | .jreqEnc => .busWrite Config.cmdOffset (cmdWord 0x10 0 0)
  | .jaccDec len => .busWrite Config.cmdOffset (cmdWord 0x11 0 len)
  | .dataEnc len => .busWrite Config.cmdOffset (cmdWord 0x12 0 len)
  | .dataDec len => .busWrite Config.cmdOffset (cmdWord 0x13 0 len)
  | .evTxDone => .busWrite Config.eventOffset 0b001
  | .evRxOk => .busWrite Config.eventOffset 0b010
  | .evRxCrcErr => .busWrite Config.eventOffset 0b110
  | .evBoth => .busWrite Config.eventOffset 0b011
  | .evNone => .busWrite Config.eventOffset 0b000
  | .setClass .a => .busWrite Config.schedCtrlOffset 0
  | .setClass .c => .busWrite Config.schedCtrlOffset 1
  | .srst => .busWrite Config.ctrlOffset 1
  | .irqAck mask => .busWrite Config.irqStatusOffset (mask.setWidth 32)
  | .tick => .msTick

/-! ## The host's view of a table row (log 3) -/

/-- The signal that a word of the opcode table stands for. The table gives a CMD row 32 bits, an EVENT row at most 3
bits (one byte), and TICK none; the offset is not in the word, so the number of bits tells the forms apart. -/
def tableSignal (nbits w : Nat) : Option Signal :=
  if nbits = 0 then some .msTick
  else if nbits ≤ 8 then some (.busWrite Config.eventOffset (BitVec.ofNat 32 (w % 2 ^ nbits)))
  else if nbits ≤ 32 then some (.busWrite Config.cmdOffset (BitVec.ofNat 32 (w % 2 ^ nbits)))
  else none

/-- The instruction the decoder reads from a word of the opcode table. -/
def decodeTableWord (nbits w : Nat) : Option Instr :=
  match tableSignal nbits w with
  | none => none
  | some sig =>
    match decode sig with
    | .ok i => some i
    | .error _ => none

end Sys2Proof
end

