-- ==== Sys2Proof/Machine/State.lean ====
section
/-! DEFINITION. The state of the core: everything 10_state R30 lists, as plain data, and the state after hard reset. -/

namespace Sys2Proof.Machine

/-! ## Named values -/

/-- The values of STATUS.ERRCODE (60_exceptions R290); 11..15 are never produced. -/
inductive ErrCode where
  | ok
  | illegalCmd
  | lenRange
  | notJoined
  | alreadyJoined
  | tooShort
  | badMhdr
  | wrongDevAddr
  | badFopts
  | badMic
  | badJaLen
deriving DecidableEq, Repr

/-- The RX-window states (10_state R65). -/
inductive SchedState where
  | idle
  | wait1
  | window1
  | wait2
  | window2
  | continuous
deriving DecidableEq, Repr

/-- The radio actions (10_state R67). -/
inductive RadioAction where
  | none
  | openRx1
  | openRx2
  | contRx2
  | close
deriving DecidableEq, Repr

/-! ## Memory -/

/-- The two buffers' bytes that have been written, by bus byte address, addresses strictly rising. An address not
listed has not been written and reads as a free value (log 6). -/
abbrev Memory := List Host.Cell

/-! ## Register groups -/

/-- Everything a command reads (30_encoding R112): the key file, the session and identity registers, the operand
registers and the buffers. This is also what the operand snapshot of 00_scope R12 holds. -/
structure Operands where
  /-- K[0], the AppKey (10_state R38). -/
  k0 : Block
  /-- K[1], the NwkSKey. -/
  k1 : Block
  /-- K[2], the AppSKey. -/
  k2 : Block
  /-- K[3], the scratch key. -/
  k3 : Block
  /-- DEVNONCE[15:0] (10_state R41). -/
  devNonce : BitVec 16
  /-- DEVADDR (10_state R42). -/
  devAddr : Word
  /-- FCNTUP (10_state R43). -/
  fcntUp : Word
  /-- FCNTDOWN[15:0] (10_state R44). -/
  fcntDown : BitVec 16
  /-- APPEUI (10_state R45). -/
  appEui : DWord
  /-- DEVEUI (10_state R45). -/
  devEui : DWord
  /-- TX_HDR; its reserved bits are kept 0 (10_state R46). -/
  txHdr : Word
  /-- TX_FOPTS (10_state R47). -/
  txFopts : Block
  /-- BLOCK_IN (10_state R48). -/
  blockIn : Block
  /-- JA_APPNONCE[23:0] (10_state R49). -/
  jaAppNonce : BitVec 24
  /-- JA_NETID[23:0] (10_state R49). -/
  jaNetId : BitVec 24
  /-- The written bytes of PBUF and FBUF (10_state R58). -/
  mem : Memory
  /-- The model's own: which unspecified contents the unwritten bytes have (log 7). -/
  bufEpoch : Nat
deriving DecidableEq, Repr

/-- The result registers that are not also operands (10_state R50 to R57). -/
structure Results where
  /-- BLOCK_OUT (R50). -/
  blockOut : Block
  /-- MAC_OUT (R50). -/
  macOut : Block
  /-- RES_LEN[8:0] (R51). -/
  resLen : BitVec 9
  /-- MIC (R52). -/
  mic : Word
  /-- RX_INFO (R53). -/
  rxInfo : Word
  /-- RX_DEVADDR (R54). -/
  rxDevAddr : Word
  /-- RX_FCNT[15:0] (R55). -/
  rxFcnt : BitVec 16
  /-- RX_FOPTS (R56). -/
  rxFopts : Block
  /-- JA_PARAMS (R57). -/
  jaParams : Word
deriving DecidableEq, Repr

/-- The scheduler's registers (10_state R60 to R71) and TIME_HI_LATCH (R73). -/
structure Sched where
  /-- SCHED_CTRL.CLASS (R60). -/
  cls : DevClass
  /-- RX_DELAY1 (R61). -/
  rxDelay1 : Word
  /-- WINDOW_MS (R62). -/
  windowMs : Word
  /-- RX1_CFG; its reserved bits are kept 0 (R63). -/
  rx1Cfg : Word
  /-- RX1_DR[3:0] (R64). -/
  rx1Dr : BitVec 4
  /-- SCHED_STATE (R65). -/
  schedState : SchedState
  /-- RADIO_ACTION (R67). -/
  radioAction : RadioAction
  /-- TX_END_TS (R69). -/
  txEndTs : DWord
  /-- WIN_OPEN_TS (R70). -/
  winOpenTs : DWord
  /-- TIME (R71). -/
  time : DWord
  /-- TIME_HI_LATCH (R73). -/
  timeHiLatch : Word
deriving DecidableEq, Repr

/-- The command engine's hidden state while it runs a command (10_state R72). -/
structure Running where
  /-- CUR, the accepted command word. -/
  cur : Word
  /-- The operand snapshot (00_scope R12). -/
  snap : Operands
  /-- The countdown: how many cycles pass before the completing one (log 5). -/
  left : Nat
deriving DecidableEq, Repr

/-! ## The outside world -/

/-- The width of a bus access; only `word` is legal (20_memory R87). -/
inductive AccessSize where
  | byte
  | half
  | word
deriving DecidableEq, Repr

/-- One host bus access (20_memory R85, R86). -/
inductive BusOp where
  | read (off : Offset) (size : AccessSize)
  | write (off : Offset) (size : AccessSize) (v : Word)
deriving DecidableEq, Repr

/-- What the outside does in one clock cycle: the reset pin, at most one bus access, the tick pin (log 1). -/
structure CycleInput where
  /-- `rst_n` is asserted (70_reset_and_hazards R330). -/
  rst : Bool
  /-- The host's bus access of this cycle. -/
  bus : Option BusOp
  /-- `ms_tick` pulses in this cycle. -/
  tick : Bool
deriving DecidableEq, Repr

/-- The bus response to an access (20_memory R85, R86, R89; log 9). -/
inductive BusResp where
  /-- A read's data. -/
  | data (v : Word)
  /-- A write without bus error. -/
  | done
  /-- A bus error; a read's data is then 0. -/
  | error
deriving DecidableEq, Repr

/-! ## The state -/

/-- The core's state (10_state R30), and the model's own fields: the script of the coming cycles, the last bus
response, and the counter of free values. -/
structure State where
  /-- The command being executed, if any: STATUS.BUSY is whether there is one (10_state R34, R72; log 15). -/
  running : Option Running
  /-- STATUS.ERRCODE (10_state R34). -/
  errCode : ErrCode
  /-- IRQ_STATUS[4:0] (10_state R35). -/
  irqStatus : BitVec 5
  /-- IRQ_ENABLE[4:0] (10_state R36). -/
  irqEnable : BitVec 5
  /-- CMD, the last accepted command word (10_state R37). -/
  cmd : Word
  /-- Key file, session, identity and operand registers, buffers. -/
  op : Operands
  /-- Result registers. -/
  res : Results
  /-- Scheduler registers. -/
  sched : Sched
  /-- The model's own: what the outside does in the coming cycles; past its end, nothing (log 1). -/
  inputs : List CycleInput
  /-- The model's own: the bus response of the last cycle, if it had an access (log 9). -/
  resp : Option BusResp
  /-- The model's own: the number of the next free value (log 7). -/
  draws : Nat
deriving DecidableEq, Repr

/-! ## How a step may stop -/

/-- The core never stops: failed commands, bus errors and protocol violations are reported and it keeps running
(60_exceptions R292, R296 to R298). So no fault exists. -/
inductive Fault where
deriving DecidableEq, Repr

/-- The refusals of a step. -/
inductive Refusal where
  /-- Raised by an arm of `exec` whose instruction has no meaning yet. Safe. No arm does. -/
  | notModelled (mnemonic : String)
deriving DecidableEq, Repr

/-! ## Reset -/

/-- The operand side after hard reset (70_reset_and_hazards R330): all 0, no buffer byte written. -/
def Operands.reset : Operands where
  k0 := 0
  k1 := 0
  k2 := 0
  k3 := 0
  devNonce := 0
  devAddr := 0
  fcntUp := 0
  fcntDown := 0
  appEui := 0
  devEui := 0
  txHdr := 0
  txFopts := 0
  blockIn := 0
  jaAppNonce := 0
  jaNetId := 0
  mem := []
  bufEpoch := 0

/-- The result registers after reset (R330). -/
def Results.reset : Results where
  blockOut := 0
  macOut := 0
  resLen := 0
  mic := 0
  rxInfo := 0
  rxDevAddr := 0
  rxFcnt := 0
  rxFopts := 0
  jaParams := 0

/-- The scheduler after hard reset (R330). -/
def Sched.reset : Sched where
  cls := .a
  rxDelay1 := 1000#32
  windowMs := 500#32
  rx1Cfg := 0x0000F000#32
  rx1Dr := 0
  schedState := .idle
  radioAction := .none
  txEndTs := 0
  winOpenTs := 0
  time := 0
  timeHiLatch := 0

/-- The machine right after hard reset (70_reset_and_hazards R330). -/
def State.reset : State where
  running := none
  errCode := .ok
  irqStatus := 0
  irqEnable := 0
  cmd := 0
  op := Operands.reset
  res := Results.reset
  sched := Sched.reset
  inputs := []
  resp := none
  draws := 1

end Sys2Proof.Machine
end

