-- ==== Sys2Proof/Machine/Bytes.lean ====
section
/-! DEFINITION. Byte strings: little-endian integers, the packing of 16-byte strings, slices, XOR (00_scope R8 to R10, 20_memory R81). -/

namespace Sys2Proof.Machine

/-- `LE_n(v)`: the n-byte little-endian encoding of v mod 2^(8n) (00_scope R9). -/
def leBytes (n v : Nat) : List Byte := (List.range n).map fun i => BitVec.ofNat 8 (v >>> (8 * i))

/-- `fromLE(b)`: the integer whose little-endian encoding is b (00_scope R9). -/
def fromLE : List Byte → Nat
  | [] => 0
  | b :: bs => b.toNat + 256 * fromLE bs

/-- Byte i of a 16-byte string (20_memory R81). -/
def blockByte (b : Block) (i : Nat) : Byte := b.extractLsb' (8 * i) 8

/-- The 16 bytes of a block, byte 0 first. -/
def blockBytes (b : Block) : List Byte := (List.range 16).map (blockByte b)

/-- The block that holds a string of at most 16 bytes, zero-filled. -/
def blockOf (bs : List Byte) : Block := BitVec.ofNat 128 (fromLE bs)

/-- Byte i of a string that is known to be longer than i (log 19: 0 past its end). -/
def byteOf (bs : List Byte) (i : Nat) : Byte := bs.getD i 0

/-- `b[a..a+n)`. -/
def sub (bs : List Byte) (a n : Nat) : List Byte := (bs.drop a).take n

/-- `xor(a, b)`, bytewise (00_scope R11). -/
def xorBytes (a b : List Byte) : List Byte := List.zipWith (· ^^^ ·) a b

/-- `0x00×n` (00_scope R8). -/
def zeros (n : Nat) : List Byte := List.replicate n 0

/-- Word j of a 16-byte string (20_memory R81). -/
def blockWord (b : Block) (j : BitVec 2) : Word := b.extractLsb' (32 * j.toNat) 32

/-- A 16-byte string with word j replaced. -/
def setBlockWord (b : Block) (j : BitVec 2) (v : Word) : Block :=
  (b &&& ~~~(0xFFFFFFFF#128 <<< (32 * j.toNat))) ||| (v.setWidth 128 <<< (32 * j.toNat))

end Sys2Proof.Machine
end

