-- ==== Sys2Proof/Machine/Flags.lean ====
section
/-! DEFINITION. The flags: STATUS (BUSY, JOINED, ERRCODE), the IRQ bits and the `irq` output. -/

namespace Sys2Proof.Machine

/-! ## IRQ_STATUS bits (10_state R35) -/

/-- CMD_DONE, bit 0. -/
def Irq.cmdDone : BitVec 5 := 0b00001
/-- CMD_ERR, bit 1. -/
def Irq.cmdErr : BitVec 5 := 0b00010
/-- RADIO_REQ, bit 2. -/
def Irq.radioReq : BitVec 5 := 0b00100
/-- OVERRUN, bit 3. -/
def Irq.overrun : BitVec 5 := 0b01000
/-- SCHED_ERR, bit 4. -/
def Irq.schedErr : BitVec 5 := 0b10000

/-- A hardware set of IRQ bits (60_exceptions R301). -/
def State.raiseIrq (s : State) (bits : BitVec 5) : State := { s with irqStatus := s.irqStatus ||| bits }

/-- A write-1-to-clear of IRQ bits (10_state R35, 30_encoding R122). -/
def State.clearIrq (s : State) (bits : BitVec 5) : State := { s with irqStatus := s.irqStatus &&& ~~~bits }

/-- The `irq` output (60_exceptions R300). -/
def State.irq (s : State) : Bool := s.irqStatus &&& s.irqEnable != 0

/-! ## STATUS (10_state R34) -/

/-- STATUS.BUSY: a command has been accepted and has not completed. -/
def State.busy (s : State) : Bool := s.running.isSome

/-- JOINED, live: DEVADDR and both session keys are nonzero (10_state R40). -/
def Operands.joined (o : Operands) : Bool := o.devAddr != 0 && o.k1 != 0 && o.k2 != 0

/-- The number of an error code (60_exceptions R290). -/
def ErrCode.code : ErrCode → BitVec 4
  | .ok => 0
  | .illegalCmd => 1
  | .lenRange => 2
  | .notJoined => 3
  | .alreadyJoined => 4
  | .tooShort => 5
  | .badMhdr => 6
  | .wrongDevAddr => 7
  | .badFopts => 8
  | .badMic => 9
  | .badJaLen => 10

/-- The STATUS word: BUSY in bit 0, JOINED in bit 1, ERRCODE in bits 11:8. -/
def State.statusWord (s : State) : Word :=
  (BitVec.ofBool s.busy).setWidth 32 ||| ((BitVec.ofBool s.op.joined).setWidth 32 <<< 1)
    ||| (s.errCode.code.setWidth 32 <<< 8)

end Sys2Proof.Machine
end

