-- ==== Sys2Proof/Machine/Ops.lean ====
section
/-! DEFINITION. The named operations over the state: buffer bytes, key slots, taking a command, completing it with or
without an error, and the two resets. -/

namespace Sys2Proof.Machine

/-! ## Buffer memory -/

/-- The byte written at an address, if any. -/
def Memory.lookup : Memory → Nat → Option Byte
  | [], _ => none
  | (k, b) :: m, a => if a = k then some b else Memory.lookup m a

/-- Write one byte, keeping the addresses strictly rising. -/
def Memory.write : Memory → Nat → Byte → Memory
  | [], a, b => [(a, b)]
  | (k, c) :: m, a, b =>
    if a < k then (a, b) :: (k, c) :: m
    else if a = k then (k, b) :: m
    else (k, c) :: Memory.write m a b

/-- Write a byte string at rising addresses. -/
def Memory.writeList : Memory → Nat → List Byte → Memory
  | m, _, [] => m
  | m, a, b :: bs => Memory.writeList (Memory.write m a b) (a + 1) bs

/-- The canonical form: addresses strictly rising. An unlisted address has no written value, so no entry can equal
what it reads as (log 6). -/
def Memory.wf : Memory → Bool
  | [] => true
  | (k, _) :: m => m.all (fun c => decide (k < c.1)) && Memory.wf m

/-- THE byte at a bus address of a buffer: what was written, else the free value of the current unspecified
contents (10_state R58, log 6). -/
def Operands.byteAt (o : Operands) (a : Nat) : Byte :=
  (Memory.lookup o.mem a).getD (Config.unwrittenByte o.bufEpoch a)

/-- The n bytes from a bus address on. -/
def Operands.load (o : Operands) (a n : Nat) : List Byte := (List.range n).map fun i => o.byteAt (a + i)

/-- Store a byte string from a bus address on. -/
def Operands.store (o : Operands) (a : Nat) (bs : List Byte) : Operands :=
  { o with mem := Memory.writeList o.mem a bs }

/-- PBUF[0..n) (10_state R58). -/
def Operands.pbuf (o : Operands) (n : Nat) : List Byte := o.load Config.pbufBase n

/-- FBUF[0..n) (10_state R58). -/
def Operands.fbuf (o : Operands) (n : Nat) : List Byte := o.load Config.fbufBase n

/-- `PBUF[0..len(bs)) <- bs`. -/
def Operands.storePbuf (o : Operands) (bs : List Byte) : Operands := o.store Config.pbufBase bs

/-- `FBUF[0..len(bs)) <- bs`. -/
def Operands.storeFbuf (o : Operands) (bs : List Byte) : Operands := o.store Config.fbufBase bs

/-! ## Key slots (10_state R38) -/

/-- `K[ks]`. -/
def Operands.key (o : Operands) (ks : KeySlot) : Block :=
  if ks = 0 then o.k0 else if ks = 1 then o.k1 else if ks = 2 then o.k2 else o.k3

/-- `K[ks] <- v`. -/
def Operands.setKey (o : Operands) (ks : KeySlot) (v : Block) : Operands :=
  if ks = 0 then { o with k0 := v }
  else if ks = 1 then { o with k1 := v }
  else if ks = 2 then { o with k2 := v }
  else { o with k3 := v }

/-! ## A command's life (30_encoding R114, R116) -/

/-- What a command reads: the snapshot taken at its acceptance (00_scope R12). With no accepted command, the live
operands, so that a meaning says something in every state (log 16). -/
def State.snapshot (s : State) : Operands :=
  match s.running with
  | some r => r.snap
  | none => s.op

/-- An accepted CMD write: `reg[CMD] <- v; CUR <- v; BUSY <- 1`, and nothing else (30_encoding R114). The engine
counts this cycle too, so the command completes CMD_LATENCY cycles from now (log 5). -/
def State.accept (s : State) (v : Word) : State :=
  { s with
    cmd := v
    running := some { cur := v, snap := s.op, left := Config.cmdLatency (v.extractLsb' 0 8) (v.extractLsb' 16 9) s.draws }
    draws := s.draws + 1 }

/-- `raise Error(code)`, taken at completion: ERRCODE, CMD_DONE and CMD_ERR, and nothing else changes
(30_encoding R116, 60_exceptions R291). This is the core's only "exception": it is reported, not trapped (R292). -/
def State.failWith (s : State) (e : ErrCode) : State :=
  { s with errCode := e, irqStatus := s.irqStatus ||| Irq.cmdDone ||| Irq.cmdErr, running := none }

/-- Completion without error: every write at once, ERRCODE OK and CMD_DONE (30_encoding R116). -/
def State.commit (s : State) (op : Operands) (res : Results) : State :=
  { s with op := op, res := res, errCode := .ok, irqStatus := s.irqStatus ||| Irq.cmdDone, running := none }

/-- What a command's semantics gives: an error, or the operand and result registers after its writes. -/
abbrev CmdResult := Except ErrCode (Operands × Results)

/-- The completion of a command, in one atomic step (30_encoding R116). -/
def State.complete (s : State) : CmdResult → State
  | .ok (op, res) => s.commit op res
  | .error e => s.failWith e

/-- The third common check of every command: LEN ≤ 256, else LEN_RANGE (30_encoding R118). -/
def checkLen (len : Len) (k : CmdResult) : CmdResult :=
  if len.toNat > 256 then .error .lenRange else k

/-! ## Reset -/

/-- Hard reset (70_reset_and_hazards R330): the buffers take fresh unspecified contents. The script and the counter
of free values are the model's own and go on. -/
def State.hardReset (s : State) : State :=
  { State.reset with
    op := { Operands.reset with bufEpoch := s.draws }
    inputs := s.inputs
    draws := s.draws + 1 }

/-- Soft reset (70_reset_and_hazards R331): as hard reset, but TIME and TIME_HI_LATCH stay; a running command is
aborted and the buffers become unspecified, and with no running command the buffers keep their contents. -/
def State.softReset (s : State) : State :=
  { State.reset with
    op := { Operands.reset with
      mem := if s.busy then [] else s.op.mem
      bufEpoch := if s.busy then s.draws else s.op.bufEpoch }
    sched := { Sched.reset with time := s.sched.time, timeHiLatch := s.sched.timeHiLatch }
    inputs := s.inputs
    resp := s.resp
    draws := if s.busy then s.draws + 1 else s.draws }

end Sys2Proof.Machine
end

