-- ==== Sys2Proof/Machine/Operands.lean ====
section
/-! DEFINITION. The fields commands read from packed registers: TX_HDR, RX1_CFG, and the header bytes of a frame. -/

namespace Sys2Proof.Machine

/-! ## TX_HDR (10_state R46) -/

/-- The RW bits of TX_HDR: 21:4. -/
def txHdrMask : Word := 0x003FFFF0#32

/-- FCTRL_FLAGS, bits 7:4. -/
def txFlags (h : Word) : BitVec 4 := h.extractLsb' 4 4
/-- FOPTSLEN, bits 11:8. -/
def txFoptsLen (h : Word) : BitVec 4 := h.extractLsb' 8 4
/-- FPORT, bits 19:12. -/
def txFport (h : Word) : Byte := h.extractLsb' 12 8
/-- CONFIRMED, bit 20. -/
def txConfirmed (h : Word) : Bool := h.getLsbD 20
/-- DIR, bit 21: true for a downlink. -/
def txDir (h : Word) : Bool := h.getLsbD 21

/-! ## RX1_CFG (10_state R63) -/

/-- The RW bits of RX1_CFG: 15:8 and 6:0. -/
def rx1CfgMask : Word := 0x0000FF7F#32

/-- UPLINK_DR, bits 3:0. -/
def cfgUplinkDr (c : Word) : BitVec 4 := c.extractLsb' 0 4
/-- RX1_DR_OFFSET, bits 6:4. -/
def cfgDrOffset (c : Word) : BitVec 3 := c.extractLsb' 4 3
/-- DR_MIN, bits 11:8. -/
def cfgDrMin (c : Word) : BitVec 4 := c.extractLsb' 8 4
/-- DR_MAX, bits 15:12. -/
def cfgDrMax (c : Word) : BitVec 4 := c.extractLsb' 12 4

/-! ## Frame header bytes (41_codec R180 to R182) -/

/-- MType, MHDR[7:5]. -/
def mtypeOf (mhdr : Byte) : Nat := (mhdr.extractLsb' 5 3).toNat

/-- The MHDR the encoder writes: 0x40, 0x80, 0x60 or 0xA0 (41_codec R203). -/
def mhdrOf (dir conf : Bool) : Byte :=
  match dir, conf with
  | false, false => 0x40
  | false, true => 0x80
  | true, false => 0x60
  | true, true => 0xA0

/-- FCtrl: the flags in 7:4, FOptsLen in 3:0 (41_codec R182). -/
def fctrlOf (flags fol : BitVec 4) : Byte := flags.setWidth 8 <<< 4 ||| fol.setWidth 8

/-- FOptsLen, FCtrl[3:0] (41_codec R182). -/
def folOf (fctrl : Byte) : BitVec 4 := fctrl.extractLsb' 0 4

/-- The direction byte of blocks A and B0 (41_codec R183). -/
def dirByte (dir : Bool) : Byte := if dir then 1 else 0

end Sys2Proof.Machine
end

