-- ==== Sys2Proof/Machine/Bus.lean ====
section
/-! DEFINITION. The host bus: the address map (20_memory R89), which offsets are locked (30_encoding R115), and the
value and the plain write of every register (10_state). -/

namespace Sys2Proof.Machine

/-- Every mapped word of the window, by name (20_memory R89). -/
inductive Reg where
  | id | ctrl | status | irqStatus | irqEnable | cmd
  | devNonce | devAddr | fcntUp | fcntDown | txHdr
  | resLen | mic | rxInfo | rxDevAddr | rxFcnt
  | appEuiLo | appEuiHi | devEuiLo | devEuiHi
  | jaAppNonce | jaNetId | jaParams
  | txFopts (j : BitVec 2) | rxFopts (j : BitVec 2)
  | blockIn (j : BitVec 2) | blockOut (j : BitVec 2) | macOut (j : BitVec 2)
  | key (ks : KeySlot) (j : BitVec 2)
  | schedCtrl | rxDelay1 | windowMs | rx1Cfg | rx1Dr | schedState | radioAction | event
  | txEndTsLo | txEndTsHi | winOpenTsLo | winOpenTsHi | timeLo | timeHi
  | pbuf (j : BitVec 6) | fbuf (j : BitVec 6)
deriving DecidableEq, Repr

/-! ## The address map -/

/-- The offset of word j of a string or buffer based at `base`. -/
def wordOffset (base : Nat) (j : Nat) : Offset := BitVec.ofNat 12 (base + 4 * j)

/-- The offset of a register (20_memory R89, 10_state). -/
def Reg.offset : Reg → Offset
  | .id => 0x000#12
  | .ctrl => 0x004#12
  | .status => 0x008#12
  | .irqStatus => 0x00C#12
  | .irqEnable => 0x010#12
  | .cmd => 0x014#12
  | .devNonce => 0x018#12
  | .devAddr => 0x01C#12
  | .fcntUp => 0x020#12
  | .fcntDown => 0x024#12
  | .txHdr => 0x028#12
  | .resLen => 0x02C#12
  | .mic => 0x030#12
  | .rxInfo => 0x034#12
  | .rxDevAddr => 0x038#12
  | .rxFcnt => 0x03C#12
  | .appEuiLo => 0x040#12
  | .appEuiHi => 0x044#12
  | .devEuiLo => 0x048#12
  | .devEuiHi => 0x04C#12
  | .jaAppNonce => 0x050#12
  | .jaNetId => 0x054#12
  | .jaParams => 0x058#12
  | .txFopts j => wordOffset 0x060 j.toNat
  | .rxFopts j => wordOffset 0x070 j.toNat
  | .blockIn j => wordOffset 0x080 j.toNat
  | .blockOut j => wordOffset 0x090 j.toNat
  | .macOut j => wordOffset 0x0A0 j.toNat
  | .key ks j => wordOffset (0x100 + 16 * ks.toNat) j.toNat
  | .schedCtrl => 0x200#12
  | .rxDelay1 => 0x204#12
  | .windowMs => 0x208#12
  | .rx1Cfg => 0x20C#12
  | .rx1Dr => 0x210#12
  | .schedState => 0x214#12
  | .radioAction => 0x218#12
  | .event => 0x21C#12
  | .txEndTsLo => 0x220#12
  | .txEndTsHi => 0x224#12
  | .winOpenTsLo => 0x228#12
  | .winOpenTsHi => 0x22C#12
  | .timeLo => 0x230#12
  | .timeHi => 0x234#12
  | .pbuf j => wordOffset 0x400 j.toNat
  | .fbuf j => wordOffset 0x500 j.toNat

/-- The single-word registers at aligned offsets below 0x240. -/
def Reg.single (a : Nat) : Option Reg :=
  match a with
  | 0x000 => some .id
  | 0x004 => some .ctrl
  | 0x008 => some .status
  | 0x00C => some .irqStatus
  | 0x010 => some .irqEnable
  | 0x014 => some .cmd
  | 0x018 => some .devNonce
  | 0x01C => some .devAddr
  | 0x020 => some .fcntUp
  | 0x024 => some .fcntDown
  | 0x028 => some .txHdr
  | 0x02C => some .resLen
  | 0x030 => some .mic
  | 0x034 => some .rxInfo
  | 0x038 => some .rxDevAddr
  | 0x03C => some .rxFcnt
  | 0x040 => some .appEuiLo
  | 0x044 => some .appEuiHi
  | 0x048 => some .devEuiLo
  | 0x04C => some .devEuiHi
  | 0x050 => some .jaAppNonce
  | 0x054 => some .jaNetId
  | 0x058 => some .jaParams
  | 0x200 => some .schedCtrl
  | 0x204 => some .rxDelay1
  | 0x208 => some .windowMs
  | 0x20C => some .rx1Cfg
  | 0x210 => some .rx1Dr
  | 0x214 => some .schedState
  | 0x218 => some .radioAction
  | 0x21C => some .event
  | 0x220 => some .txEndTsLo
  | 0x224 => some .txEndTsHi
  | 0x228 => some .winOpenTsLo
  | 0x22C => some .winOpenTsHi
  | 0x230 => some .timeLo
  | 0x234 => some .timeHi
  | _ => none

/-- The word at a byte offset: none where it is misaligned (R88) or unmapped (R89). -/
def Reg.ofOffset (off : Offset) : Option Reg :=
  let a := off.toNat
  let j := off.extractLsb' 2 2
  let k := off.extractLsb' 2 6
  if a % 4 ≠ 0 then none
  else if 0x060 ≤ a ∧ a < 0x070 then some (.txFopts j)
  else if 0x070 ≤ a ∧ a < 0x080 then some (.rxFopts j)
  else if 0x080 ≤ a ∧ a < 0x090 then some (.blockIn j)
  else if 0x090 ≤ a ∧ a < 0x0A0 then some (.blockOut j)
  else if 0x0A0 ≤ a ∧ a < 0x0B0 then some (.macOut j)
  else if 0x100 ≤ a ∧ a < 0x140 then some (.key (off.extractLsb' 4 2) j)
  else if 0x400 ≤ a ∧ a < 0x500 then some (.pbuf k)
  else if 0x500 ≤ a ∧ a < 0x600 then some (.fbuf k)
  else Reg.single a

/-- The register an access reaches; none is a bus error: misaligned, narrower than 32 bits, or unmapped (60_exceptions R296). -/
def accessReg (off : Offset) (size : AccessSize) : Option Reg :=
  match size with
  | .word => Reg.ofOffset off
  | .half => none
  | .byte => none

/-- The locked range: 0x014 to 0x1FF, PBUF and FBUF (30_encoding R115). -/
def Reg.locked (r : Reg) : Bool :=
  let a := r.offset.toNat
  decide ((0x014 ≤ a ∧ a < 0x200) ∨ (0x400 ≤ a ∧ a < 0x600))

/-! ## Reading -/

/-- SCHED_STATE's number (10_state R65). -/
def SchedState.code : SchedState → BitVec 3
  | .idle => 0
  | .wait1 => 1
  | .window1 => 2
  | .wait2 => 3
  | .window2 => 4
  | .continuous => 5

/-- RADIO_ACTION's number (10_state R67). -/
def RadioAction.code : RadioAction → BitVec 3
  | .none => 0
  | .openRx1 => 1
  | .openRx2 => 2
  | .contRx2 => 3
  | .close => 4

/-- CLASS's bit (10_state R60). -/
def classCode : DevClass → BitVec 1
  | .a => 0
  | .c => 1

/-- The low and high words of a 64-bit value. -/
def loWord (d : DWord) : Word := d.extractLsb' 0 32
/-- Bits 63:32. -/
def hiWord (d : DWord) : Word := d.extractLsb' 32 32

/-- Word j of the buffer based at `base`, byte i of it in bits 8i+7 : 8i (20_memory R81). -/
def Operands.bufWord (o : Operands) (base j : Nat) : Word := BitVec.ofNat 32 (fromLE (o.load (base + 4 * j) 4))

/-- The current value of a register (10_state; 20_memory R85). Reserved bits read 0, CTRL and EVENT read 0. -/
def State.readReg (s : State) : Reg → Word
  | .id => Config.idValue
  | .ctrl => 0
  | .status => s.statusWord
  | .irqStatus => s.irqStatus.setWidth 32
  | .irqEnable => s.irqEnable.setWidth 32
  | .cmd => s.cmd
  | .devNonce => s.op.devNonce.setWidth 32
  | .devAddr => s.op.devAddr
  | .fcntUp => s.op.fcntUp
  | .fcntDown => s.op.fcntDown.setWidth 32
  | .txHdr => s.op.txHdr
  | .resLen => s.res.resLen.setWidth 32
  | .mic => s.res.mic
  | .rxInfo => s.res.rxInfo
  | .rxDevAddr => s.res.rxDevAddr
  | .rxFcnt => s.res.rxFcnt.setWidth 32
  | .appEuiLo => loWord s.op.appEui
  | .appEuiHi => hiWord s.op.appEui
  | .devEuiLo => loWord s.op.devEui
  | .devEuiHi => hiWord s.op.devEui
  | .jaAppNonce => s.op.jaAppNonce.setWidth 32
  | .jaNetId => s.op.jaNetId.setWidth 32
  | .jaParams => s.res.jaParams
  | .txFopts j => blockWord s.op.txFopts j
  | .rxFopts j => blockWord s.res.rxFopts j
  | .blockIn j => blockWord s.op.blockIn j
  | .blockOut j => blockWord s.res.blockOut j
  | .macOut j => blockWord s.res.macOut j
  | .key ks j => blockWord (s.op.key ks) j
  | .schedCtrl => (classCode s.sched.cls).setWidth 32
  | .rxDelay1 => s.sched.rxDelay1
  | .windowMs => s.sched.windowMs
  | .rx1Cfg => s.sched.rx1Cfg
  | .rx1Dr => s.sched.rx1Dr.setWidth 32
  | .schedState => s.sched.schedState.code.setWidth 32
  | .radioAction => s.sched.radioAction.code.setWidth 32
  | .event => 0
  | .txEndTsLo => loWord s.sched.txEndTs
  | .txEndTsHi => hiWord s.sched.txEndTs
  | .winOpenTsLo => loWord s.sched.winOpenTs
  | .winOpenTsHi => hiWord s.sched.winOpenTs
  | .timeLo => loWord s.sched.time
  | .timeHi => s.sched.timeHiLatch
  | .pbuf j => s.op.bufWord Config.pbufBase j.toNat
  | .fbuf j => s.op.bufWord Config.fbufBase j.toNat

/-- A read's only side effect: TIME_LO copies TIME[63:32] into TIME_HI_LATCH (10_state R71). -/
def State.readEffect (s : State) (r : Reg) : State :=
  if r = .timeLo then { s with sched := { s.sched with timeHiLatch := hiWord s.sched.time } } else s

/-- MemRead (20_memory R85): a bus error, an open value (30_encoding R117), or the register's value. -/
def State.busRead (s : State) (off : Offset) (size : AccessSize) : State :=
  match accessReg off size with
  | none => { s with resp := some .error }
  | some r =>
    if s.busy && r.locked then
      { s with resp := some (.data (Config.busyReadData s.draws)), draws := s.draws + 1 }
    else { s.readEffect r with resp := some (.data (s.readReg r)) }

/-- The data lines of a response: a bus error returns data 0 (20_memory R85, R89), a write none, shown as 0. -/
def BusResp.readData : BusResp → Word
  | .data v => v
  | .done => 0
  | .error => 0

/-! ## Plain writes -/

/-- Replace the low word of a 64-bit value. -/
def setLoWord (d : DWord) (v : Word) : DWord := hiWord d ++ v
/-- Replace bits 63:32. -/
def setHiWord (d : DWord) (v : Word) : DWord := v ++ loWord d

/-- The four bytes of a bus word into a buffer (20_memory R81). -/
def Operands.setBufWord (o : Operands) (base j : Nat) (v : Word) : Operands :=
  o.store (base + 4 * j) (leBytes 4 v.toNat)

/-- A plain write into a register's RW bits; RO registers and reserved bits ignore it (20_memory R86). The
registers whose write starts something (CMD, EVENT, SCHED_CTRL, CTRL, IRQ_STATUS) are not written here. -/
def State.writeReg (s : State) (r : Reg) (v : Word) : State :=
  match r with
  | .irqEnable => { s with irqEnable := v.extractLsb' 0 5 }
  | .devNonce => { s with op := { s.op with devNonce := v.extractLsb' 0 16 } }
  | .devAddr => { s with op := { s.op with devAddr := v } }
  | .fcntUp => { s with op := { s.op with fcntUp := v } }
  | .fcntDown => { s with op := { s.op with fcntDown := v.extractLsb' 0 16 } }
  | .txHdr => { s with op := { s.op with txHdr := v &&& txHdrMask } }
  | .appEuiLo => { s with op := { s.op with appEui := setLoWord s.op.appEui v } }
  | .appEuiHi => { s with op := { s.op with appEui := setHiWord s.op.appEui v } }
  | .devEuiLo => { s with op := { s.op with devEui := setLoWord s.op.devEui v } }
  | .devEuiHi => { s with op := { s.op with devEui := setHiWord s.op.devEui v } }
  | .jaAppNonce => { s with op := { s.op with jaAppNonce := v.extractLsb' 0 24 } }
  | .jaNetId => { s with op := { s.op with jaNetId := v.extractLsb' 0 24 } }
  | .txFopts j => { s with op := { s.op with txFopts := setBlockWord s.op.txFopts j v } }
  | .blockIn j => { s with op := { s.op with blockIn := setBlockWord s.op.blockIn j v } }
  | .key ks j => { s with op := s.op.setKey ks (setBlockWord (s.op.key ks) j v) }
  | .rxDelay1 => { s with sched := { s.sched with rxDelay1 := v } }
  | .windowMs => { s with sched := { s.sched with windowMs := v } }
  | .rx1Cfg => { s with sched := { s.sched with rx1Cfg := v &&& rx1CfgMask } }
  | .pbuf j => { s with op := s.op.setBufWord Config.pbufBase j.toNat v }
  | .fbuf j => { s with op := s.op.setBufWord Config.fbufBase j.toNat v }
  | .id | .ctrl | .status | .irqStatus | .cmd | .resLen | .mic | .rxInfo | .rxDevAddr | .rxFcnt | .jaParams
  | .rxFopts _ | .blockOut _ | .macOut _ | .schedCtrl | .rx1Dr | .schedState | .radioAction | .event
  | .txEndTsLo | .txEndTsHi | .winOpenTsLo | .winOpenTsHi | .timeLo | .timeHi => s

end Sys2Proof.Machine
end

