-- ==== Sys2Proof/Machine/Aes.lean ====
section
/-! DEFINITION. AES-128 encryption, unit U1 (40_crypto R140 to R149). The state s[r][c] is the byte list with index r + 4c (R141). -/

namespace Sys2Proof.Machine

/-- The rows of the S-box table of R142, each row's 16 bytes written left to right as one number. -/
def sboxRows : List Nat := [
  0x637C777BF26B6FC53001672BFED7AB76,
  0xCA82C97DFA5947F0ADD4A2AF9CA472C0,
  0xB7FD9326363FF7CC34A5E5F171D83115,
  0x04C723C31896059A071280E2EB27B275,
  0x09832C1A1B6E5AA0523BD6B329E32F84,
  0x53D100ED20FCB15B6ACBBE394A4C58CF,
  0xD0EFAAFB434D338545F9027F503C9FA8,
  0x51A3408F929D38F5BCB6DA2110FFF3D2,
  0xCD0C13EC5F974417C4A77E3D645D1973,
  0x60814FDC222A908846EEB814DE5E0BDB,
  0xE0323A0A4906245CC2D3AC629195E479,
  0xE7C8376D8DD54EA96C56F4EA657AAE08,
  0xBA78252E1CA6B4C6E8DD741F4BBD8B8A,
  0x703EB5664803F60E613557B986C11D9E,
  0xE1F8981169D98E949B1E87E9CE5528DF,
  0x8CA1890DBFE6426841992D0FB054BB16]

/-- `SBOX[x]`: row the high nibble, column the low nibble (R142). -/
def sbox (x : Byte) : Byte :=
  BitVec.ofNat 8 (sboxRows.getD (x.toNat / 16) 0 >>> (8 * (15 - x.toNat % 16)))

/-- SubBytes (R142). -/
def subBytes (s : List Byte) : List Byte := s.map sbox

/-- ShiftRows: `s'[r][c] = s[r][(c + r) mod 4]` (R143), with n = r + 4c. -/
def shiftRows (s : List Byte) : List Byte :=
  (List.range 16).map fun n => byteOf s (n % 4 + 4 * ((n / 4 + n % 4) % 4))

/-- `2·x` (R144). -/
def xtime (x : Byte) : Byte := (x <<< 1) ^^^ (if x.msb then 0x1B else 0x00)

/-- `3·x` (R144). -/
def xtime3 (x : Byte) : Byte := xtime x ^^^ x

/-- MixColumns, column by column (R144). -/
def mixColumns : List Byte → List Byte
  | a0 :: a1 :: a2 :: a3 :: rest =>
    (xtime a0 ^^^ xtime3 a1 ^^^ a2 ^^^ a3) ::
    (a0 ^^^ xtime a1 ^^^ xtime3 a2 ^^^ a3) ::
    (a0 ^^^ a1 ^^^ xtime a2 ^^^ xtime3 a3) ::
    (xtime3 a0 ^^^ a1 ^^^ a2 ^^^ xtime a3) :: mixColumns rest
  | _ => []

/-- `RCON[i]`, i in 1..10 (R146). -/
def rcon (i : Nat) : Byte :=
  byteOf [0x00, 0x01, 0x02, 0x04, 0x08, 0x10, 0x20, 0x40, 0x80, 0x1B, 0x36] i

/-- RotWord (R146). -/
def rotWord : List Byte → List Byte
  | [] => []
  | b :: bs => bs ++ [b]

/-- The four-byte word with one constant XORed into its byte 0 (R146). -/
def xorHead (c : Byte) : List Byte → List Byte
  | [] => []
  | b :: bs => (b ^^^ c) :: bs

/-- `w[i]` from the words before it (R146). -/
def nextKeyWord (w : List (List Byte)) (i : Nat) : List Byte :=
  let t := w.getD (i - 1) []
  let t := if i % 4 = 0 then xorHead (rcon (i / 4)) ((rotWord t).map sbox) else t
  xorBytes (w.getD (i - 4) []) t

/-- KeyExpansion: the words w[0..43] (R146). -/
def keyExpansion (k : List Byte) : List (List Byte) :=
  (List.range' 4 40).foldl (fun w i => w ++ [nextKeyWord w i]) [sub k 0 4, sub k 4 4, sub k 8 4, sub k 12 4]

/-- Round key rd: `w[4rd] || w[4rd+1] || w[4rd+2] || w[4rd+3]` (R145). -/
def roundKey (w : List (List Byte)) (rd : Nat) : List Byte := ((w.drop (4 * rd)).take 4).flatten

/-- AddRoundKey (R145). -/
def addRoundKey (w : List (List Byte)) (rd : Nat) (s : List Byte) : List Byte := xorBytes s (roundKey w rd)

/-- One of the rounds 1 to 9 (R148). -/
def aesRound (w : List (List Byte)) (s : List Byte) (rd : Nat) : List Byte :=
  addRoundKey w rd (mixColumns (shiftRows (subBytes s)))

/-- The cipher over bytes (R148). -/
def aesBytes (k b : List Byte) : List Byte :=
  let w := keyExpansion k
  let s := (List.range' 1 9).foldl (aesRound w) (addRoundKey w 0 b)
  addRoundKey w 10 (shiftRows (subBytes s))

/-- `AES(k, b)` (R148). The key is expanded afresh at every call; nothing of it is state (R146). Irreducible, so that
no proof about a command unfolds the cipher by accident. -/
@[irreducible] def aes (k b : Block) : Block := blockOf (aesBytes (blockBytes k) (blockBytes b))

end Sys2Proof.Machine
end

