-- ==== Sys2Proof/Machine/Mac.lean ====
section
/-! DEFINITION. Unit U2: AES-CMAC, the CTR keystream and the session-key derivation (40_crypto R150 to R155). -/

namespace Sys2Proof.Machine

/-- The string read backwards: between the register packing and `int128`, whose most significant byte is byte 0 (00_scope R10). -/
def int128 (b : Block) : BitVec 128 := blockOf (blockBytes b).reverse

/-- `dbl(x)`: shift left by one as a 128-bit integer, then 0x87 into byte 15 if the top bit was 1 (R150). -/
def dbl (x : Block) : Block :=
  let v := int128 x
  int128 ((v <<< 1) ^^^ (if v.msb then 0x87 else 0))

/-- `L` (R150). -/
def cmacL (k : Block) : Block := aes k 0

/-- `SK1` (R150). -/
def subkey1 (k : Block) : Block := dbl (cmacL k)

/-- `SK2` (R150). -/
def subkey2 (k : Block) : Block := dbl (subkey1 k)

/-- The number of blocks of a message: `max(1, ceil(len/16))` (R151). -/
def cmacBlocks (m : List Byte) : Nat := max 1 ((m.length + 15) / 16)

/-- `M_last`: a complete last block with SK1, else the rest padded with 0x80 and zeros, with SK2 (R151). -/
def cmacLast (k : Block) (m : List Byte) : Block :=
  let n := cmacBlocks m
  let r := m.drop (16 * (n - 1))
  if m.length > 0 ∧ m.length % 16 = 0 then blockOf r ^^^ subkey1 k
  else blockOf (r ++ [0x80] ++ zeros (15 - r.length)) ^^^ subkey2 k

/-- The chaining value over the blocks before the last (R151). -/
def cmacChain (k : Block) (m : List Byte) : Block :=
  (List.range (cmacBlocks m - 1)).foldl (fun x i => aes k (x ^^^ blockOf (sub m (16 * i) 16))) 0

/-- `CMAC(k, m)` (R151). -/
def cmac (k : Block) (m : List Byte) : Block := aes k (cmacChain k m ^^^ cmacLast k m)

/-- `MIC4(k, m)`: the first 4 bytes of the tag (R152). -/
def mic4 (k : Block) (m : List Byte) : List Byte := (blockBytes (cmac k m)).take 4

/-- The MIC register's packing of 4 MIC bytes (10_state R52). -/
def micWord (mic : List Byte) : Word := BitVec.ofNat 32 (fromLE mic)

/-- `T`: the template with byte 15 replaced by the block counter (R153). -/
def counterBlock (t : Block) (bi : Nat) : Block := blockOf ((blockBytes t).take 15 ++ leBytes 1 bi)

/-- Keystream byte i (R153). -/
def keystream (k t : Block) (i : Nat) : Byte := blockByte (aes k (counterBlock t (i / 16 + 1))) (i % 16)

/-- The keystream XOR of a string whose first byte is byte i of the message (R153). -/
def ctrxFrom (k t : Block) : Nat → List Byte → List Byte
  | _, [] => []
  | i, b :: bs => (b ^^^ keystream k t i) :: ctrxFrom k t (i + 1) bs

/-- `CTRX(k, t, m)` (R153). -/
def ctrx (k t : Block) (m : List Byte) : List Byte := ctrxFrom k t 0 m

/-- `DK(appkey, tag, an, nid, dn)` (R155). -/
def deriveKey (appKey : Block) (tag : Byte) (an nid : BitVec 24) (dn : BitVec 16) : Block :=
  aes appKey (blockOf ([tag] ++ leBytes 3 an.toNat ++ leBytes 3 nid.toNat ++ leBytes 2 dn.toNat ++ zeros 7))

end Sys2Proof.Machine
end

