-- ==== Sys2Proof/Machine/Crypto.lean ====
section
/-! DEFINITION. The raw crypto commands ECB, CMAC, CTR and DERIVE (40_crypto R160 to R163). Each `…Result` is the
`Semantics` of 30_encoding R116: it reads the snapshot `n` and writes into the live registers `o`, `r`. -/

namespace Sys2Proof.Machine

/-- What a step answers. -/
abbrev StepOutcome := Host.Outcome State Fault Refusal

/-- `reg[BLOCK_OUT] <- AES(K[ks], reg[BLOCK_IN])` (R160). -/
def ecbResult (ks : KeySlot) (n o : Operands) (r : Results) : CmdResult :=
  .ok (o, { r with blockOut := aes (n.key ks) n.blockIn })

/-- ECB (R160). -/
def execEcb (ks : KeySlot) (s : State) : StepOutcome :=
  .next (s.complete (ecbResult ks s.snapshot s.op s.res))

/-- `reg[MAC_OUT] <- CMAC(K[ks], PBUF[0..len))` (R161). -/
def cmacResult (ks : KeySlot) (len : Len) (n o : Operands) (r : Results) : CmdResult :=
  checkLen len (.ok (o, { r with macOut := cmac (n.key ks) (n.pbuf len.toNat) }))

/-- CMAC (R161). -/
def execCmac (ks : KeySlot) (len : Len) (s : State) : StepOutcome :=
  .next (s.complete (cmacResult ks len s.snapshot s.op s.res))

/-- `PBUF[0..len) <- CTRX(K[ks], reg[BLOCK_IN], PBUF[0..len))` (R162). -/
def ctrResult (ks : KeySlot) (len : Len) (n o : Operands) (r : Results) : CmdResult :=
  checkLen len (.ok (o.storePbuf (ctrx (n.key ks) n.blockIn (n.pbuf len.toNat)), r))

/-- CTR (R162). -/
def execCtr (ks : KeySlot) (len : Len) (s : State) : StepOutcome :=
  .next (s.complete (ctrResult ks len s.snapshot s.op s.res))

/-- The two derived session keys into K[1] and K[2] (R155, R163). -/
def deriveInto (n o : Operands) (an nid : BitVec 24) : Operands :=
  { o with
    k1 := deriveKey n.k0 0x01 an nid n.devNonce
    k2 := deriveKey n.k0 0x02 an nid n.devNonce }

/-- DERIVE's semantics (R163). -/
def deriveResult (n o : Operands) (r : Results) : CmdResult :=
  .ok (deriveInto n o n.jaAppNonce n.jaNetId, r)

/-- DERIVE (R163). -/
def execDerive (s : State) : StepOutcome :=
  .next (s.complete (deriveResult s.snapshot s.op s.res))

end Sys2Proof.Machine
end

