-- ==== Sys2Proof/Machine/Codec.lean ====
section
/-! DEFINITION. Unit U3, the frame codec: SESSRST, JREQ_ENC, JACC_DEC, DATA_ENC, DATA_DEC (41_codec). -/

namespace Sys2Proof.Machine

/-! ## Session reset (R200) -/

/-- SESSRST's semantics (R200). -/
def sessRstResult (o : Operands) (r : Results) : CmdResult :=
  .ok ({ o with devAddr := 0, k1 := 0, k2 := 0, fcntUp := 0, fcntDown := 0 }, r)

/-- SESSRST (R200). -/
def execSessRst (s : State) : StepOutcome :=
  .next (s.complete (sessRstResult s.op s.res))

/-! ## Join-Request (R188, R201) -/

/-- The 19 bytes before the MIC (R188). -/
def jreqBody (n : Operands) : List Byte :=
  [0x00] ++ leBytes 8 n.appEui.toNat ++ leBytes 8 n.devEui.toNat ++ leBytes 2 n.devNonce.toNat

/-- JREQ_ENC's semantics (R201). -/
def jreqResult (n o : Operands) (r : Results) : CmdResult :=
  if n.joined then .error .alreadyJoined
  else
    let f := jreqBody n
    let mic := mic4 n.k0 f
    .ok (o.storeFbuf (f ++ mic), { r with resLen := 23, mic := micWord mic })

/-- JREQ_ENC (R201). -/
def execJreqEnc (s : State) : StepOutcome :=
  .next (s.complete (jreqResult s.snapshot s.op s.res))

/-! ## Join-Accept (R189, R202) -/

/-- The plaintext of a Join-Accept of 17 or 33 bytes: MHDR clear, every later 16-byte block through the FORWARD cipher (R189). -/
def jaccPlain (k0 : Block) (c : List Byte) : List Byte :=
  sub c 0 1 ++ blockBytes (aes k0 (blockOf (sub c 1 16)))
    ++ (if c.length = 33 then blockBytes (aes k0 (blockOf (sub c 17 16))) else [])

/-- JA_PARAMS: DLSettings, RxDelay, CFList presence, MHDR (10_state R57). -/
def jaParamsOf (p : List Byte) : Word :=
  (byteOf p 11).setWidth 32 ||| ((byteOf p 12).setWidth 32 <<< 8)
    ||| ((if p.length = 33 then 1 else 0 : Word) <<< 16) ||| ((byteOf p 0).setWidth 32 <<< 24)

/-- What an accepted Join-Accept with plaintext `p` writes (R202). -/
def jaccCommit (p : List Byte) (n o : Operands) (r : Results) : Operands × Results :=
  let an := BitVec.ofNat 24 (fromLE (sub p 1 3))
  let nid := BitVec.ofNat 24 (fromLE (sub p 4 3))
  let addr := BitVec.ofNat 32 (fromLE (sub p 7 4))
  let o := deriveInto n { o with
    jaAppNonce := an, jaNetId := nid, devAddr := addr, fcntUp := 0, fcntDown := 0 } an nid
  let r := { r with jaParams := jaParamsOf p, mic := micWord (sub p (p.length - 4) 4) }
  if p.length = 33 then (o.storePbuf (sub p 13 16), { r with resLen := 16 })
  else (o, { r with resLen := 0 })

/-- JACC_DEC's semantics, its checks in the order of 60_exceptions R295 (R202). -/
def jaccResult (len : Len) (n o : Operands) (r : Results) : CmdResult :=
  checkLen len <|
    if n.joined then .error .alreadyJoined
    else if len.toNat ≠ 17 ∧ len.toNat ≠ 33 then .error .badJaLen
    else
      let p := jaccPlain n.k0 (n.fbuf len.toNat)
      if mic4 n.k0 (sub p 0 (len.toNat - 4)) ≠ sub p (len.toNat - 4) 4 then .error .badMic
      else .ok (jaccCommit p n o r)

/-- JACC_DEC (R202). -/
def execJaccDec (len : Len) (s : State) : StepOutcome :=
  .next (s.complete (jaccResult len s.snapshot s.op s.res))

/-! ## Blocks A and B0 (R183, R184) -/

/-- `A(dir, addr, fcnt32, bi)` (R183). -/
def blockA (dir : Bool) (addr fcnt : Word) (bi : Nat) : Block :=
  blockOf ([0x01] ++ zeros 4 ++ [dirByte dir] ++ leBytes 4 addr.toNat ++ leBytes 4 fcnt.toNat ++ [0x00] ++ leBytes 1 bi)

/-- `B0(dir, addr, fcnt32, mlen)`, as bytes (R184). -/
def blockB0 (dir : Bool) (addr fcnt : Word) (mlen : Nat) : List Byte :=
  [0x49] ++ zeros 4 ++ [dirByte dir] ++ leBytes 4 addr.toNat ++ leBytes 4 fcnt.toNat ++ [0x00] ++ leBytes 1 mlen

/-- The data MIC of a frame without its MIC, under NwkSKey (R184, R185). -/
def dataMic (n : Operands) (dir : Bool) (addr fcnt : Word) (msg : List Byte) : List Byte :=
  mic4 n.k1 (blockB0 dir addr fcnt msg.length ++ msg)

/-- The payload key: NwkSKey for port 0, AppSKey otherwise (R185). -/
def payloadKey (n : Operands) (port : Byte) : Block := if port = 0 then n.k1 else n.k2

/-- The payload cipher, its own inverse (R183). -/
def cryptPayload (n : Operands) (port : Byte) (dir : Bool) (addr fcnt : Word) (pay : List Byte) : List Byte :=
  ctrx (payloadKey n port) (blockA dir addr fcnt 0) pay

/-! ## Data frames: encoding (R186, R203) -/

/-- The length of a data frame with `fol` FOpts bytes and a payload of `len` bytes (R186). -/
def dataFrameLen (fol len : Nat) : Nat := 12 + fol + (if len > 0 then 1 + len else 0)

/-- The counter DATA_ENC uses (R190). -/
def encFcnt (n : Operands) : Word := if txDir n.txHdr then n.fcntDown.setWidth 32 else n.fcntUp

/-- The frame header up to and including FOpts (R186). -/
def dataHeader (n : Operands) : List Byte :=
  [mhdrOf (txDir n.txHdr) (txConfirmed n.txHdr)] ++ leBytes 4 n.devAddr.toNat
    ++ [fctrlOf (txFlags n.txHdr) (txFoptsLen n.txHdr)] ++ leBytes 2 (encFcnt n).toNat
    ++ (blockBytes n.txFopts).take (txFoptsLen n.txHdr).toNat

/-- FPort and the encrypted FRMPayload, present iff the payload is not empty (R187, R203). -/
def dataBody (n : Operands) (len : Nat) : List Byte :=
  if len > 0 then
    [txFport n.txHdr]
      ++ cryptPayload n (txFport n.txHdr) (txDir n.txHdr) n.devAddr (encFcnt n) (n.pbuf len)
  else []

/-- The frame without its MIC (R203). -/
def dataMsg (n : Operands) (len : Nat) : List Byte := dataHeader n ++ dataBody n len

/-- DATA_ENC's semantics (R203). -/
def dataEncResult (len : Len) (n o : Operands) (r : Results) : CmdResult :=
  checkLen len <|
    if !n.joined then .error .notJoined
    else if dataFrameLen (txFoptsLen n.txHdr).toNat len.toNat > 256 then .error .lenRange
    else
      let msg := dataMsg n len.toNat
      let mic := dataMic n (txDir n.txHdr) n.devAddr (encFcnt n) msg
      .ok (o.storeFbuf (msg ++ mic),
        { r with
          resLen := BitVec.ofNat 9 (dataFrameLen (txFoptsLen n.txHdr).toNat len.toNat)
          mic := micWord mic })

/-- DATA_ENC (R203). -/
def execDataEnc (len : Len) (s : State) : StepOutcome :=
  .next (s.complete (dataEncResult len s.snapshot s.op s.res))

/-! ## Data frames: decoding (R187, R204) -/

/-- A received data frame, taken apart (R186, R187, R190). -/
structure RxFrame where
  mhdr : Byte
  dir : Bool
  conf : Bool
  addr : Word
  fctrl : Byte
  fcnt16 : BitVec 16
  fcnt32 : Word
  fopts : List Byte
  fportPresent : Bool
  port : Byte
  pay : List Byte
  mic : List Byte
deriving DecidableEq, Repr

/-- FOptsLen of a received frame (R182). -/
def rxFol (f : List Byte) : Nat := (folOf (byteOf f 5)).toNat

/-- The fields of a frame `f`, given FCNTUP for the upper counter bits of an uplink (R190, R204). -/
def parseFrame (f : List Byte) (fcntUp : Word) : RxFrame :=
  let mt := mtypeOf (byteOf f 0)
  let dir := decide (mt = 3 ∨ mt = 5)
  let fol := rxFol f
  let fcnt16 := BitVec.ofNat 16 (fromLE (sub f 6 2))
  let fpp := decide (f.length > 12 + fol)
  { mhdr := byteOf f 0
    dir := dir
    conf := decide (mt = 4 ∨ mt = 5)
    addr := BitVec.ofNat 32 (fromLE (sub f 1 4))
    fctrl := byteOf f 5
    fcnt16 := fcnt16
    fcnt32 := if dir then fcnt16.setWidth 32 else fcntUp.extractLsb' 16 16 ++ fcnt16
    fopts := sub f 8 fol
    fportPresent := fpp
    port := if fpp then byteOf f (8 + fol) else 0
    pay := if fpp then sub f (9 + fol) (f.length - 4 - (9 + fol)) else []
    mic := sub f (f.length - 4) 4 }

/-- RX_INFO of a frame (10_state R53). -/
def rxInfoOf (x : RxFrame) : Word :=
  x.mhdr.setWidth 32 ||| (x.fctrl.setWidth 32 <<< 8) ||| ((folOf x.fctrl).setWidth 32 <<< 16)
    ||| ((BitVec.ofBool x.fportPresent).setWidth 32 <<< 20) ||| (x.port.setWidth 32 <<< 21)
    ||| ((BitVec.ofBool x.dir).setWidth 32 <<< 29) ||| ((BitVec.ofBool x.conf).setWidth 32 <<< 30)

/-- What an accepted data frame writes (R204). -/
def dataDecCommit (x : RxFrame) (n o : Operands) (r : Results) : Operands × Results :=
  let plain := cryptPayload n x.port x.dir x.addr x.fcnt32 x.pay
  let o := o.storePbuf plain
  ({ o with fcntDown := if x.dir then x.fcnt16 else o.fcntDown },
   { r with
     resLen := BitVec.ofNat 9 plain.length
     rxInfo := rxInfoOf x
     rxDevAddr := x.addr
     rxFcnt := x.fcnt16
     rxFopts := blockOf x.fopts
     mic := micWord x.mic })

/-- DATA_DEC's semantics, its checks in the order of 60_exceptions R295 (R204). -/
def dataDecResult (len : Len) (n o : Operands) (r : Results) : CmdResult :=
  checkLen len <|
    let f := n.fbuf len.toNat
    let x := parseFrame f n.fcntUp
    if !n.joined then .error .notJoined
    else if len.toNat < 12 then .error .tooShort
    else if mtypeOf x.mhdr < 2 ∨ mtypeOf x.mhdr > 5 then .error .badMhdr
    else if x.addr ≠ n.devAddr then .error .wrongDevAddr
    else if len.toNat < 12 + rxFol f then .error .badFopts
    else if dataMic n x.dir x.addr x.fcnt32 (sub f 0 (len.toNat - 4)) ≠ x.mic then .error .badMic
    else .ok (dataDecCommit x n o r)

/-- DATA_DEC (R204). -/
def execDataDec (len : Len) (s : State) : StepOutcome :=
  .next (s.complete (dataDecResult len s.snapshot s.op s.res))

end Sys2Proof.Machine
end

