-- ==== Sys2Proof/Machine/Control.lean ====
section
/-! DEFINITION. The control operations SRST and IRQ_ACK (70_reset_and_hazards R331, 30_encoding R122). -/

namespace Sys2Proof.Machine

/-- SRST: the soft reset (70_reset_and_hazards R331). -/
def execSrst (s : State) : StepOutcome := .next s.softReset

/-- IRQ_ACK: the bits written as 1 are cleared (30_encoding R122). -/
def execIrqAck (mask : BitVec 5) (s : State) : StepOutcome := .next (s.clearIrq mask)

end Sys2Proof.Machine
end

