-- ==== Sys2Proof/Machine/Scheduler.lean ====
section
/-! DEFINITION. Unit U4, the RX-window scheduler: TICK, the EVENT operations, SET_CLASS (42_scheduler). -/

namespace Sys2Proof.Machine

/-- `emit(a)`: RADIO_ACTION takes the action and RADIO_REQ is set (R253). -/
def State.emit (s : State) (a : RadioAction) : State :=
  { s with sched := { s.sched with radioAction := a }, irqStatus := s.irqStatus ||| Irq.radioReq }

/-- `SCHED_STATE <- q`. -/
def State.goto (s : State) (q : SchedState) : State := { s with sched := { s.sched with schedState := q } }

/-- `reg[WIN_OPEN_TS] <- reg[TIME]`. -/
def State.stampWindow (s : State) : State := { s with sched := { s.sched with winOpenTs := s.sched.time } }

/-! ## The timed transitions (R241, R247 to R252, R254) -/

/-- `el`, as an exact integer (R241, log 11). -/
def Sched.elapsed (c : Sched) : Int := (c.time.toNat : Int) - (c.txEndTs.toNat : Int)

/-- `wel`, as an exact integer (R241, log 11). -/
def Sched.windowElapsed (c : Sched) : Int := (c.time.toNat : Int) - (c.winOpenTs.toNat : Int)

/-- `D1` (R241). -/
def Sched.delay1 (c : Sched) : Int := (c.rxDelay1.toNat : Int)

/-- `D2`: always D1 + 1000, without wrap (R247). -/
def Sched.delay2 (c : Sched) : Int := (c.rxDelay1.toNat : Int) + 1000

/-- `W` (R241). -/
def Sched.window (c : Sched) : Int := (c.windowMs.toNat : Int)

/-- `RX1DR()`: the signed difference clamped, the max applied last (R251). -/
def rx1Dr (cfg : Word) : BitVec 4 :=
  let d : Int := (cfgUplinkDr cfg).toNat - (cfgDrOffset cfg).toNat
  BitVec.ofInt 4 (max (cfgDrMin cfg).toNat (min d (cfgDrMax cfg).toNat))

/-- `SchedStep()`: at most one timed transition (R241, R259). -/
def State.schedStep (s : State) : State :=
  let c := s.sched
  match c.schedState with
  | .idle => s
  | .wait1 =>
    if c.elapsed ≥ c.delay1 then
      let s := (s.goto .window1).stampWindow
      State.emit { s with sched := { s.sched with rx1Dr := rx1Dr s.sched.rx1Cfg } } .openRx1
    else s
  | .window1 =>
    if c.windowElapsed ≥ c.window then
      if c.elapsed ≥ c.delay2 then ((s.goto .window2).stampWindow).emit .openRx2
      else (s.goto .wait2).emit (if c.cls = .c then .contRx2 else .close)
    else s
  | .wait2 =>
    if c.elapsed ≥ c.delay2 then ((s.goto .window2).stampWindow).emit .openRx2 else s
  | .window2 =>
    if c.windowElapsed ≥ c.window then
      if c.cls = .c then (s.goto .continuous).emit .contRx2 else (s.goto .idle).emit .close
    else s
  | .continuous => s

/-- TICK: TIME counts, then one SchedStep (R240). -/
def execTick (s : State) : StepOutcome :=
  .next (State.schedStep { s with sched := { s.sched with time := s.sched.time + 1 } })

/-! ## Events (R245, R255 to R258) -/

/-- The states in which a TX_DONE breaks the ordering rule (R256). -/
def SchedState.serving : SchedState → Bool
  | .idle => false
  | .wait1 => true
  | .window1 => true
  | .wait2 => true
  | .window2 => true
  | .continuous => false

/-- EV_TX_DONE (R255, R256). -/
def execEvTxDone (s : State) : StepOutcome :=
  let s := if s.sched.schedState.serving then s.raiseIrq Irq.schedErr else s
  let s : State := { s with sched := { s.sched with txEndTs := s.sched.time, schedState := .wait1 } }
  .next (if s.sched.cls = .c then s.emit .contRx2 else s)

/-- EV_RX_OK (R257). -/
def execEvRxOk (s : State) : StepOutcome :=
  let old := s.sched.schedState
  if s.sched.cls = .a then
    let s := s.goto .idle
    .next (if old = .window1 ∨ old = .window2 then s.emit .close else s)
  else
    let s := s.goto .continuous
    .next (if old ≠ .continuous then s.emit .contRx2 else s)

/-- EV_RX_CRCERR: no effect on the scheduler (R258). -/
def execEvRxCrcErr (s : State) : StepOutcome := .next s

/-- EVENT with both TX_DONE and RX_DONE: SCHED_ERR and nothing else (R245). -/
def execEvBoth (s : State) : StepOutcome := .next (s.raiseIrq Irq.schedErr)

/-- EVENT with neither: no effect (R245). -/
def execEvNone (s : State) : StepOutcome := .next s

/-! ## Class switching (R262) -/

/-- SET_CLASS (R262). -/
def execSetClass (cls : DevClass) (s : State) : StepOutcome :=
  let old := s.sched.cls
  let q := s.sched.schedState
  let s : State := { s with sched := { s.sched with cls := cls } }
  .next <|
    if old = cls then s
    else
      match cls with
      | .c =>
        if q = .idle then (s.goto .continuous).emit .contRx2
        else if q = .wait1 ∨ q = .wait2 then s.emit .contRx2
        else s
      | .a =>
        if q = .continuous then (s.goto .idle).emit .close
        else if q = .wait1 ∨ q = .wait2 then s.emit .close
        else s

end Sys2Proof.Machine
end

