-- ==== Sys2Proof/Machine/Dispatch.lean ====
section
/-! DEFINITION. Which meaning each instruction has. -/

namespace Sys2Proof.Machine

-- For a command this is its completion (30_encoding R116); for the others, the write or the pulse itself.
def exec (i : Instr) (s : State) : Host.Outcome State Fault Refusal :=
  match i with
  | .ecb ks => Sys2Proof.Machine.execEcb ks s
  | .cmac ks len => Sys2Proof.Machine.execCmac ks len s
  | .ctr ks len => Sys2Proof.Machine.execCtr ks len s
  | .derive => Sys2Proof.Machine.execDerive s
  | .sessRst => Sys2Proof.Machine.execSessRst s
  | .jreqEnc => Sys2Proof.Machine.execJreqEnc s
  | .jaccDec len => Sys2Proof.Machine.execJaccDec len s
  | .dataEnc len => Sys2Proof.Machine.execDataEnc len s
  | .dataDec len => Sys2Proof.Machine.execDataDec len s
  | .evTxDone => Sys2Proof.Machine.execEvTxDone s
  | .evRxOk => Sys2Proof.Machine.execEvRxOk s
  | .evRxCrcErr => Sys2Proof.Machine.execEvRxCrcErr s
  | .evBoth => Sys2Proof.Machine.execEvBoth s
  | .evNone => Sys2Proof.Machine.execEvNone s
  | .setClass cls => Sys2Proof.Machine.execSetClass cls s
  | .srst => Sys2Proof.Machine.execSrst s
  | .irqAck mask => Sys2Proof.Machine.execIrqAck mask s
  | .tick => Sys2Proof.Machine.execTick s

end Sys2Proof.Machine
end

