-- ==== Sys2Proof/Machine/Cycle.lean ====
section
/-! DEFINITION. One clock cycle: the host's bus access, then the engine's completion, then the tick (70_reset_and_hazards R343). -/

namespace Sys2Proof.Machine

/-- One outcome after another. -/
def andThen (o : StepOutcome) (f : State → StepOutcome) : StepOutcome :=
  match o with
  | .next s => f s
  | .fault e => .fault e
  | .refused r => .refused r

/-- A cycle in which the outside does nothing. -/
def CycleInput.idle : CycleInput := { rst := false, bus := none, tick := false }

/-! ## The bus access -/

/-- MemWrite (20_memory R86): a bus error; a dropped write, which sets OVERRUN (30_encoding R115); an accepted
command (R114); an instruction of another port (R119 to R122); or a plain write. -/
def busWrite (s : State) (off : Offset) (size : AccessSize) (v : Word) : StepOutcome :=
  match accessReg off size with
  | none => .next { s with resp := some .error }
  | some r =>
    let s : State := { s with resp := some .done }
    if s.busy && r.locked then .next (s.raiseIrq Irq.overrun)
    else if r = .cmd then .next (s.accept v)
    else
      match decode (.busWrite off v) with
      | .ok i => exec i s
      | .error _ => .next (s.writeReg r v)

/-- The host's access of this cycle, if any. -/
def busPhase (bus : Option BusOp) (s : State) : StepOutcome :=
  match bus with
  | none => .next s
  | some (.read off size) => .next (s.busRead off size)
  | some (.write off size v) => busWrite s off size v

/-! ## The command engine -/

/-- The completion of the accepted command (30_encoding R116); an illegal word completes with ILLEGAL_CMD (R113). -/
def completeRunning (cur : Word) (s : State) : StepOutcome :=
  match decodeCmd cur with
  | .ok i => exec i s
  | .error _ => .next (s.failWith .illegalCmd)

/-- The engine's part of a cycle: completion if the countdown ends in it, else one cycle less to go (log 5). -/
def enginePhase (s : State) : StepOutcome :=
  match s.running with
  | none => .next s
  | some r =>
    match r.left with
    | 0 => completeRunning r.cur s
    | n + 1 => .next { s with running := some { r with left := n } }

/-! ## The tick -/

/-- The tick pin's part of a cycle: a pulse is the instruction TICK (30_encoding R123). -/
def tickPhase (tick : Bool) (s : State) : StepOutcome :=
  if tick then
    match decode .msTick with
    | .ok i => exec i s
    | .error _ => .next s
  else .next s

/-! ## The cycle -/

/-- One cycle with a given input. While `rst_n` is asserted, bus accesses and ticks have no effect (70_reset_and_hazards R330). -/
def cycleWith (c : CycleInput) (s : State) : StepOutcome :=
  if c.rst then .next s.hardReset
  else andThen (andThen (busPhase c.bus { s with resp := none }) enginePhase) (tickPhase c.tick)

/-- What the outside does in the coming cycle: the script's next entry; past its end, nothing (log 1). -/
def State.nextInput (s : State) : CycleInput := s.inputs.headD CycleInput.idle

/-- The state with that entry taken off the script. -/
def State.popInput (s : State) : State := { s with inputs := s.inputs.tail }

/-- One cycle with the script's next entry. -/
def cycle (s : State) : StepOutcome := cycleWith s.nextInput s.popInput

/-! ## Placing one instruction (log 2) -/

/-- The state whose next cycle carries exactly this signal: a command word stands accepted with its countdown at the
end, another bus write is the cycle's access, a pulse its tick. -/
def State.withSignal (s : State) : Signal → State
  | .msTick => { s with inputs := { CycleInput.idle with tick := true } :: s.inputs }
  | .busWrite off v =>
    if off = Config.cmdOffset then
      { s with
        cmd := v
        running := some { cur := v, snap := s.op, left := 0 }
        inputs := CycleInput.idle :: s.inputs }
    else { s with inputs := { CycleInput.idle with bus := some (.write off .word v) } :: s.inputs }

end Sys2Proof.Machine
end

