-- ==== Sys2Proof/Machine/Step.lean ====
section
/-! DEFINITION. The step of the machine: one clock cycle. And how the host places one instruction for the next step. -/

namespace Sys2Proof.Machine

/-- One step is one clock cycle (70_reset_and_hazards R343, log 1). -/
def step (s : State) : Host.Outcome State Fault Refusal := cycle s

/-- `s` with one instruction placed where the very next step runs it (log 2). -/
def State.withFetchWord (s : State) (nbits w : Nat) : State :=
  match tableSignal nbits w with
  | none => s
  | some sig => s.withSignal sig

end Sys2Proof.Machine
end

