-- ==== Sys2Proof/Safety.lean ====
section
/-! DEFINITION. What counts as a safe run, and the invariants the claims use. -/

namespace Sys2Proof.Machine

/-- A safe step answers a next state. -/
def Safe (o : StepOutcome) : Prop := ∃ t, o = .next t

/-- Every written byte lies in PBUF or FBUF (10_state R58: 0x400 to 0x5FF). -/
def Memory.inBuffers (m : Memory) : Bool := m.all fun c => decide (0x400 ≤ c.1 ∧ c.1 < 0x600)

/-- The buffers' list is canonical and inside the buffers, and TX_HDR's reserved bits are 0 (10_state R46). -/
def Operands.Inv (o : Operands) : Prop :=
  Memory.wf o.mem = true ∧ Memory.inBuffers o.mem = true ∧ o.txHdr &&& ~~~txHdrMask = 0

/-- RES_LEN is a byte count of 0..256 (10_state R51), RX_INFO bit 31 and JA_PARAMS bits 23:17 are 0 (R53, R57). -/
def Results.Inv (r : Results) : Prop :=
  r.resLen.toNat ≤ 256 ∧ r.rxInfo.getLsbD 31 = false ∧ r.jaParams.extractLsb' 17 7 = 0

/-- In Class A the state is never Continuous, in Class C never Idle (42_scheduler R261); RX1_CFG's reserved bits
are 0 (10_state R63). -/
def Sched.Inv (c : Sched) : Prop :=
  ¬(c.cls = .a ∧ c.schedState = .continuous) ∧ ¬(c.cls = .c ∧ c.schedState = .idle) ∧ c.rx1Cfg &&& ~~~rx1CfgMask = 0

/-- What every step keeps: the invariants of the three register groups, a running command's snapshot equal to the
live operands (00_scope R12), and a number for the next free value that the buffers' contents have not used. -/
def State.Inv (s : State) : Prop :=
  s.op.Inv ∧ s.res.Inv ∧ s.sched.Inv ∧ s.snapshot = s.op ∧ s.op.bufEpoch < s.draws

/-- TX_END_TS and WIN_OPEN_TS hold values of TIME copied at or before the present (42_scheduler R244). -/
def Sched.stampsPast (c : Sched) : Prop := c.txEndTs.toNat ≤ c.time.toNat ∧ c.winOpenTs.toNat ≤ c.time.toNat

/-- Every buffer byte outside the n bytes from `base` on reads in `o'` as in `o`. -/
def SameBytesOutside (base n : Nat) (o o' : Operands) : Prop :=
  ∀ a : Nat, (a < base ∨ base + n ≤ a) → o'.byteAt a = o.byteAt a

/-- Every buffer byte reads in `o'` as in `o`. -/
def SameBytes (o o' : Operands) : Prop := ∀ a : Nat, o'.byteAt a = o.byteAt a

/-- The commands: the rows of 30_encoding R112. -/
def isCommand : Instr → Bool
  | .ecb _ => true
  | .cmac _ _ => true
  | .ctr _ _ => true
  | .derive => true
  | .sessRst => true
  | .jreqEnc => true
  | .jaccDec _ => true
  | .dataEnc _ => true
  | .dataDec _ => true
  | .evTxDone => false
  | .evRxOk => false
  | .evRxCrcErr => false
  | .evBoth => false
  | .evNone => false
  | .setClass _ => false
  | .srst => false
  | .irqAck _ => false
  | .tick => false

/-- The scheduler's operations: the EVENT kinds, SET_CLASS and TICK. -/
def isSchedulerOp : Instr → Bool
  | .ecb _ => false
  | .cmac _ _ => false
  | .ctr _ _ => false
  | .derive => false
  | .sessRst => false
  | .jreqEnc => false
  | .jaccDec _ => false
  | .dataEnc _ => false
  | .dataDec _ => false
  | .evTxDone => true
  | .evRxOk => true
  | .evRxCrcErr => true
  | .evBoth => true
  | .evNone => true
  | .setClass _ => true
  | .srst => false
  | .irqAck _ => false
  | .tick => true

end Sys2Proof.Machine
end

