-- ==== Sys2Proof/Certificates/Slice0/Obligations.lean ====
section
/-! DEFINITION. The statements for the provers, from the numbered rules of spec/. -/

section

open Sys2Proof Sys2Proof.Machine

namespace Sys2Proof.Claim

/-! ## Words the statements use -/

/-- An illegal command word, from the bits, as 30_encoding R113 lists them. -/
def IllegalWord (w : Word) : Prop :=
  w.extractLsb' 0 8 ∉ ([0x01, 0x02, 0x03, 0x04, 0x05, 0x10, 0x11, 0x12, 0x13] : List Byte) ∨
  w.extractLsb' 10 6 ≠ 0 ∨ w.extractLsb' 25 7 ≠ 0 ∨
  (w.extractLsb' 8 2 ≠ 0 ∧ w.extractLsb' 0 8 ∉ ([0x01, 0x02, 0x03] : List Byte)) ∨
  (w.extractLsb' 16 9 ≠ 0 ∧ w.extractLsb' 0 8 ∉ ([0x02, 0x03, 0x11, 0x12, 0x13] : List Byte))

/-- The coming cycle writes `v` at offset `off`, as a whole word, with reset not asserted. -/
def WritesWord (s : State) (off : Offset) (v : Word) : Prop :=
  s.nextInput.rst = false ∧ s.nextInput.bus = some (.write off .word v)

/-- The coming cycle resets the core: `rst_n` asserted, or a write of 1 to CTRL.SRST. -/
def Resets (s : State) : Prop :=
  s.nextInput.rst = true ∨ ∃ v : Word, WritesWord s 0x004 v ∧ v.getLsbD 0 = true

/-- In the coming cycle the accepted command completes, if nothing resets the core. -/
def Completes (s : State) (r : Running) : Prop := s.running = some r ∧ r.left = 0

/-- The coming cycle's input is only this one. -/
def OnlyInput (s : State) (bus : Option BusOp) (tick : Bool) : Prop :=
  s.nextInput = { rst := false, bus := bus, tick := tick }

/-- A bus error: narrower than 32 bits, misaligned, or at one of R89's unmapped offsets. -/
def BusError (off : Offset) (size : AccessSize) : Prop :=
  size ≠ .word ∨ off.toNat % 4 ≠ 0 ∨ off.toNat = 0x05C ∨ (0x0B0 ≤ off.toNat ∧ off.toNat ≤ 0x0FC) ∨
  (0x140 ≤ off.toNat ∧ off.toNat ≤ 0x1FC) ∨ (0x238 ≤ off.toNat ∧ off.toNat ≤ 0x3FC) ∨ 0x600 ≤ off.toNat

/-- The locked range of 30_encoding R115, as offsets. -/
def LockedOffset (off : Offset) : Prop :=
  (0x014 ≤ off.toNat ∧ off.toNat ≤ 0x1FF) ∨ (0x400 ≤ off.toNat ∧ off.toNat ≤ 0x4FF) ∨
  (0x500 ≤ off.toNat ∧ off.toNat ≤ 0x5FF)

/-- `k` steps of the core. -/
def runs (k : Nat) (s : State) : StepOutcome := Host.Core.run Sys2Proof.core k s

/-- Ticks one after another, with nothing else happening. -/
def ticks : Nat → State → StepOutcome
  | 0, s => .next s
  | n + 1, s => andThen (exec .tick s) (ticks n)

/-- After n ticks from `s`: the scheduler state, the last action and TIME. -/
def AfterTicks (n : Nat) (s : State) (q : SchedState) (a : RadioAction) : Prop :=
  ∃ t, ticks n s = .next t ∧ t.sched.schedState = q ∧ t.sched.radioAction = a ∧
    t.sched.time.toNat = s.sched.time.toNat + n

/-- The value every register but the buffers has after a reset (70_reset_and_hazards R330). -/
def resetWord : Reg → Word
  | .id => 0x4C570001
  | .rxDelay1 => 1000
  | .windowMs => 500
  | .rx1Cfg => 0x0000F000
  | _ => 0

/-- The registers of the two buffers. -/
def isBuffer : Reg → Bool
  | .pbuf _ => true
  | .fbuf _ => true
  | _ => false

/-- The RW bits of the registers a plain write changes (10_state); 0 for the others. -/
def rwMask : Reg → Word
  | .irqEnable => 0x0000001F
  | .devNonce => 0x0000FFFF
  | .devAddr => 0xFFFFFFFF
  | .fcntUp => 0xFFFFFFFF
  | .fcntDown => 0x0000FFFF
  | .txHdr => 0x003FFFF0
  | .appEuiLo | .appEuiHi | .devEuiLo | .devEuiHi => 0xFFFFFFFF
  | .jaAppNonce | .jaNetId => 0x00FFFFFF
  | .txFopts _ | .blockIn _ | .key _ _ => 0xFFFFFFFF
  | .rxDelay1 | .windowMs => 0xFFFFFFFF
  | .rx1Cfg => 0x0000FF7F
  | .pbuf _ | .fbuf _ => 0xFFFFFFFF
  | _ => 0

/-- Registers whose write starts something instead of being plain (20_memory R86). -/
def startsSomething : Reg → Bool
  | .cmd | .event | .schedCtrl | .ctrl | .irqStatus => true
  | _ => false

/-- Multiplication in GF(2^8) modulo x^8+x^4+x^3+x+1, by the bits of `b` from 7 down. -/
def gfMul (a b : Byte) : Byte :=
  ((List.range 8).reverse.foldl (fun acc i =>
    (acc <<< 1) ^^^ (if acc.msb then 0x1B else 0) ^^^ (if b.getLsbD i then a else 0)) 0 : Byte)

/-- The affine map of 40_crypto R142. -/
def affine (b : Byte) : Byte :=
  b ^^^ b.rotateLeft 1 ^^^ b.rotateLeft 2 ^^^ b.rotateLeft 3 ^^^ b.rotateLeft 4 ^^^ 0x63

/-- The state after a command completed without error, from which only `op` and `res` are new. -/
def committed (s : State) (op : Operands) (res : Results) : State :=
  { s with op := op, res := res, errCode := .ok, irqStatus := s.irqStatus ||| 0b00001, running := none }

/-- The 16-byte string that word registers named by `word` show, byte by byte, as 20_memory R81 packs it. -/
def Packs (s : State) (word : BitVec 2 → Reg) (b : Block) : Prop :=
  ∀ i : Fin 16, (s.readReg (word (BitVec.ofNat 2 (i.val / 4)))).extractLsb' (8 * (i.val % 4)) 8 = blockByte b i.val

/-! ## The spec's tables, written out -/

/-- The offset of every mapped word, as 20_memory R89 lists them. -/
def mappedAt : Reg → Nat
  | .id => 0x000
  | .ctrl => 0x004
  | .status => 0x008
  | .irqStatus => 0x00C
  | .irqEnable => 0x010
  | .cmd => 0x014
  | .devNonce => 0x018
  | .devAddr => 0x01C
  | .fcntUp => 0x020
  | .fcntDown => 0x024
  | .txHdr => 0x028
  | .resLen => 0x02C
  | .mic => 0x030
  | .rxInfo => 0x034
  | .rxDevAddr => 0x038
  | .rxFcnt => 0x03C
  | .appEuiLo => 0x040
  | .appEuiHi => 0x044
  | .devEuiLo => 0x048
  | .devEuiHi => 0x04C
  | .jaAppNonce => 0x050
  | .jaNetId => 0x054
  | .jaParams => 0x058
  | .txFopts j => 0x060 + 4 * j.toNat
  | .rxFopts j => 0x070 + 4 * j.toNat
  | .blockIn j => 0x080 + 4 * j.toNat
  | .blockOut j => 0x090 + 4 * j.toNat
  | .macOut j => 0x0A0 + 4 * j.toNat
  | .key ks j => 0x100 + 16 * ks.toNat + 4 * j.toNat
  | .schedCtrl => 0x200
  | .rxDelay1 => 0x204
  | .windowMs => 0x208
  | .rx1Cfg => 0x20C
  | .rx1Dr => 0x210
  | .schedState => 0x214
  | .radioAction => 0x218
  | .event => 0x21C
  | .txEndTsLo => 0x220
  | .txEndTsHi => 0x224
  | .winOpenTsLo => 0x228
  | .winOpenTsHi => 0x22C
  | .timeLo => 0x230
  | .timeHi => 0x234
  | .pbuf j => 0x400 + 4 * j.toNat
  | .fbuf j => 0x500 + 4 * j.toNat

/-- The error codes (60_exceptions R290). -/
def errNumber : ErrCode → BitVec 4
  | .ok => 0
  | .illegalCmd => 1
  | .lenRange => 2
  | .notJoined => 3
  | .alreadyJoined => 4
  | .tooShort => 5
  | .badMhdr => 6
  | .wrongDevAddr => 7
  | .badFopts => 8
  | .badMic => 9
  | .badJaLen => 10

/-- What SCHED_STATE reads in each state (10_state R65). -/
def stateNumber : SchedState → Word
  | .idle => 0
  | .wait1 => 1
  | .window1 => 2
  | .wait2 => 3
  | .window2 => 4
  | .continuous => 5

/-- What RADIO_ACTION reads after each action (10_state R67). -/
def actionNumber : RadioAction → Word
  | .none => 0
  | .openRx1 => 1
  | .openRx2 => 2
  | .contRx2 => 3
  | .close => 4

/-- What each register shows of the state (10_state R32 to R71); none for STATUS, the 16-byte strings and the buffers,
which have statements of their own. TIME_HI shows the latch, not the live half. -/
def shown (s : State) : Reg → Option Word
  | .id => some 0x4C570001
  | .ctrl => some 0
  | .status => none
  | .irqStatus => some (0#27 ++ s.irqStatus)
  | .irqEnable => some (0#27 ++ s.irqEnable)
  | .cmd => some s.cmd
  | .devNonce => some (0#16 ++ s.op.devNonce)
  | .devAddr => some s.op.devAddr
  | .fcntUp => some s.op.fcntUp
  | .fcntDown => some (0#16 ++ s.op.fcntDown)
  | .txHdr => some s.op.txHdr
  | .resLen => some (0#23 ++ s.res.resLen)
  | .mic => some s.res.mic
  | .rxInfo => some s.res.rxInfo
  | .rxDevAddr => some s.res.rxDevAddr
  | .rxFcnt => some (0#16 ++ s.res.rxFcnt)
  | .appEuiLo => some (s.op.appEui.extractLsb' 0 32)
  | .appEuiHi => some (s.op.appEui.extractLsb' 32 32)
  | .devEuiLo => some (s.op.devEui.extractLsb' 0 32)
  | .devEuiHi => some (s.op.devEui.extractLsb' 32 32)
  | .jaAppNonce => some (0#8 ++ s.op.jaAppNonce)
  | .jaNetId => some (0#8 ++ s.op.jaNetId)
  | .jaParams => some s.res.jaParams
  | .txFopts _ => none
  | .rxFopts _ => none
  | .blockIn _ => none
  | .blockOut _ => none
  | .macOut _ => none
  | .key _ _ => none
  | .schedCtrl => some (match s.sched.cls with
    | .a => 0
    | .c => 1)
  | .rxDelay1 => some s.sched.rxDelay1
  | .windowMs => some s.sched.windowMs
  | .rx1Cfg => some s.sched.rx1Cfg
  | .rx1Dr => some (0#28 ++ s.sched.rx1Dr)
  | .schedState => some (stateNumber s.sched.schedState)
  | .radioAction => some (actionNumber s.sched.radioAction)
  | .event => some 0
  | .txEndTsLo => some (s.sched.txEndTs.extractLsb' 0 32)
  | .txEndTsHi => some (s.sched.txEndTs.extractLsb' 32 32)
  | .winOpenTsLo => some (s.sched.winOpenTs.extractLsb' 0 32)
  | .winOpenTsHi => some (s.sched.winOpenTs.extractLsb' 32 32)
  | .timeLo => some (s.sched.time.extractLsb' 0 32)
  | .timeHi => some s.sched.timeHiLatch
  | .pbuf _ => none
  | .fbuf _ => none

/-- What a cycle from `s` to `t` must hold for IRQ_STATUS bit i to become set in it (60_exceptions R298, R301): a
completion; a completion with an error; a tick, or an event or a class switch that emits (42_scheduler R255, R257, R262); a
write dropped by the lock; TX_DONE with RX_DONE, or TX_DONE in a wait or a window. -/
def SetsIrqBit (s t : State) : Nat → Prop
  | 0 => ∃ r, Completes s r
  | 1 => (∃ r, Completes s r) ∧ t.errCode ≠ .ok
  | 2 => s.nextInput.tick = true ∨ ∃ v,
      (WritesWord s 0x21C v ∧ v.extractLsb' 0 2 = 0b01 ∧ s.sched.cls = .c) ∨
      (WritesWord s 0x21C v ∧ v.extractLsb' 0 3 = 0b010 ∧ s.sched.cls = .a ∧
        (s.sched.schedState = .window1 ∨ s.sched.schedState = .window2)) ∨
      (WritesWord s 0x21C v ∧ v.extractLsb' 0 3 = 0b010 ∧ s.sched.cls = .c ∧ s.sched.schedState ≠ .continuous) ∨
      (WritesWord s 0x200 v ∧ v.getLsbD 0 ≠ decide (s.sched.cls = .c) ∧
        s.sched.schedState ≠ .window1 ∧ s.sched.schedState ≠ .window2)
  | 3 => ∃ off v, WritesWord s off v ∧ s.busy = true ∧ LockedOffset off ∧ ¬BusError off .word
  | 4 => ∃ v, WritesWord s 0x21C v ∧ (v.extractLsb' 0 2 = 0b11 ∨
      (v.extractLsb' 0 2 = 0b01 ∧ s.sched.schedState ≠ .idle ∧ s.sched.schedState ≠ .continuous))
  | _ => False

/-! ## Byte strings of the protocol, written out -/

/-- A 16-byte string read as a number, byte 0 most significant (00_scope R10). -/
def be128 (b : Block) : Nat := (blockBytes b).foldl (fun n x => 256 * n + x.toNat) 0

/-- `y = dbl(x)` (40_crypto R150). -/
def Doubled (x y : Block) : Prop :=
  be128 y = (2 * be128 x) % 2 ^ 128 ^^^ (if (blockByte x 0).getLsbD 7 then 0x87 else 0)

/-- X of 40_crypto R151 after i blocks. -/
def macChain (k : Block) (m : List Byte) : Nat → Block
  | 0 => 0
  | i + 1 => aes k (macChain k m i ^^^ blockOf (sub m (16 * i) 16))

/-- The first 4 bytes of the tag (40_crypto R152). -/
def tag4 (k : Block) (m : List Byte) : List Byte := (blockBytes (cmac k m)).take 4

/-- Block A, byte by byte (41_codec R183). -/
def aBlock (dir : Bool) (addr fcnt : Word) (bi : Nat) : Block :=
  blockOf [0x01, 0x00, 0x00, 0x00, 0x00, if dir then 0x01 else 0x00,
    addr.extractLsb' 0 8, addr.extractLsb' 8 8, addr.extractLsb' 16 8, addr.extractLsb' 24 8,
    fcnt.extractLsb' 0 8, fcnt.extractLsb' 8 8, fcnt.extractLsb' 16 8, fcnt.extractLsb' 24 8, 0x00, BitVec.ofNat 8 bi]

/-- Block B0, byte by byte (41_codec R184). -/
def b0Bytes (dir : Bool) (addr fcnt : Word) (mlen : Nat) : List Byte :=
  [0x49, 0x00, 0x00, 0x00, 0x00, if dir then 0x01 else 0x00,
    addr.extractLsb' 0 8, addr.extractLsb' 8 8, addr.extractLsb' 16 8, addr.extractLsb' 24 8,
    fcnt.extractLsb' 0 8, fcnt.extractLsb' 8 8, fcnt.extractLsb' 16 8, fcnt.extractLsb' 24 8, 0x00, BitVec.ofNat 8 mlen]

/-- Payload byte i of a data frame XORs with this (40_crypto R153, 41_codec R183, R185). -/
def payloadMask (n : Operands) (port : Byte) (dir : Bool) (addr fcnt : Word) (i : Nat) : Byte :=
  blockByte (aes (if port = 0 then n.k1 else n.k2) (aBlock dir addr fcnt (i / 16 + 1))) (i % 16)

/-- A session key, by its block (40_crypto R155). -/
def sessionKey (k0 : Block) (tag : Byte) (an nid : BitVec 24) (dn : BitVec 16) : Block :=
  aes k0 (blockOf ([tag] ++ leBytes 3 an.toNat ++ leBytes 3 nid.toNat ++ leBytes 2 dn.toNat ++ List.replicate 7 0))

/-- The plaintext of a Join-Accept: MHDR, then each 16-byte block through the forward cipher (41_codec R189). -/
def joinPlain (k0 : Block) (c : List Byte) : List Byte :=
  c.take 1 ++ blockBytes (aes k0 (blockOf (sub c 1 16)))
    ++ (if c.length = 33 then blockBytes (aes k0 (blockOf (sub c 17 16))) else [])

end Sys2Proof.Claim

open Sys2Proof.Claim

/-! ## Encoding -/

/-- Decoding undoes encoding, for every instruction and every operand the encoding admits, LEN 257..511 included
(30_encoding R110 to R112, R119 to R124). -/
def Obligations.DecodeInvertsEncode : Prop :=
  ∀ i : Instr, decode (encode i) = .ok i

/-- Every legal command word has one meaning: the encoder gives it back bit for bit (30_encoding R110, R124). -/
def Obligations.LegalCommandWordHasOneMeaning : Prop :=
  ∀ (w : Word) (i : Instr), decodeCmd w = .ok i → encode i = .busWrite 0x014 w

/-- Words written out from the spec's encodings decode to what they stand for (95_test_vectors V-ENC, 30_encoding R119). -/
def Obligations.SpecWordsDecode : Prop :=
  decode (.busWrite 0x014 0x00280302) = .ok (.cmac 3 40) ∧ decode (.busWrite 0x014 0x00110203) = .ok (.ctr 2 17) ∧
  decode (.busWrite 0x014 0x00210011) = .ok (.jaccDec 33) ∧ decode (.busWrite 0x21C 0b101) = .ok .evTxDone ∧
  decode (.busWrite 0x200 1) = .ok (.setClass .c) ∧ decode (.busWrite 0x00C 0x1F) = .ok (.irqAck 0x1F)

/-- 30_encoding R113: exactly the listed words are illegal, and the cycle in which one completes sets ILLEGAL_CMD
(with CMD_DONE and CMD_ERR, R116) and writes nothing else. -/
def Obligations.IllegalCommandWordsComplete : Prop :=
  ∀ w : Word, (IllegalWord w ↔ ∃ e, decodeCmd w = .error e) ∧
    (IllegalWord w → ∀ (s : State) (r : Running), OnlyInput s none false → Completes s r → r.cur = w →
      step s = .next { s.popInput with
        resp := none, errCode := .illegalCmd, irqStatus := s.irqStatus ||| 0b00011, running := none })

/-- 30_encoding R119: the kind of an EVENT write is selected by v[2:0], and bits 31:3 are ignored. -/
def Obligations.EventKindIsLowThreeBits : Prop :=
  ∀ v : Word, decode (.busWrite 0x21C v) = .ok
    (match (v.extractLsb' 0 3).toNat with
     | 0 => .evNone
     | 1 => .evTxDone
     | 2 => .evRxOk
     | 3 => .evBoth
     | 4 => .evNone
     | 5 => .evTxDone
     | 6 => .evRxCrcErr
     | _ => .evBoth)

/-- 20_memory R89: every register stands at the offset the spec lists for it, an access of a whole word there reaches it
and no other, and an access reaches no register exactly where it is a bus error. -/
def Obligations.AddressMapIsOneToOne : Prop :=
  (∀ r : Reg, r.offset.toNat = mappedAt r) ∧
  (∀ r : Reg, accessReg r.offset .word = some r) ∧
  (∀ (off : Offset) (size : AccessSize) (r : Reg), accessReg off size = some r → r.offset = off) ∧
  (∀ (off : Offset) (size : AccessSize), accessReg off size = none ↔ BusError off size)

/-! ## The cycle -/

/-- A step always answers a next state: nothing stops the core (60_exceptions R292). -/
def Obligations.EveryStepAnswersNext : Prop :=
  ∀ s : State, ∃ t, step s = .next t

/-- The cycle in which an accepted command's countdown ends, and nothing else happens, runs the decoded command. -/
def Obligations.StepRunsAcceptedCommand : Prop :=
  ∀ (s : State) (r : Running) (i : Instr), OnlyInput s none false → Completes s r →
    decode (.busWrite 0x014 r.cur) = .ok i →
    step s = exec i { s.popInput with resp := none }

/-- A cycle that writes an instruction to a port other than CMD runs it, and then the engine has its part of the
cycle; with no accepted command the step is the instruction alone. -/
def Obligations.StepRunsPortInstruction : Prop :=
  ∀ (s : State) (off : Offset) (v : Word) (i : Instr), OnlyInput s (some (.write off .word v)) false → off ≠ 0x014 →
    decode (.busWrite off v) = .ok i →
    step s = andThen (exec i { s.popInput with resp := some .done }) enginePhase ∧
    (s.running = none → step s = exec i { s.popInput with resp := some .done })

/-- A cycle in which only `ms_tick` pulses runs TICK, after the engine's part of the cycle (70_reset_and_hazards R343). -/
def Obligations.StepRunsTick : Prop :=
  ∀ s : State, OnlyInput s none true →
    step s = andThen (enginePhase { s.popInput with resp := none }) (exec .tick) ∧
    (s.running = none → step s = exec .tick { s.popInput with resp := none })

/-- 30_encoding R114: a CMD write is accepted with BUSY = 0 and changes nothing else; with BUSY = 1 it is dropped and
sets OVERRUN, in the completing cycle too (the last clause, about the write alone). The countdown and the counter of free
values are the model's (log 5 and 7). That the dropped write answers without bus error is the model's too (log 10: it is not
among the bus errors that 60_exceptions R296 lists). -/
def Obligations.CmdWriteIsAcceptedOrDropped : Prop :=
  ∀ (s : State) (v : Word), OnlyInput s (some (.write 0x014 .word v)) false →
    (s.running = none → ∃ left : Nat, step s = .next { s.popInput with
      resp := some .done, cmd := v, running := some { cur := v, snap := s.op, left := left }, draws := s.draws + 1 }) ∧
    (∀ (r : Running) (n : Nat), s.running = some r → r.left = n + 1 → step s = .next { s.popInput with
      resp := some .done, irqStatus := s.irqStatus ||| 0b01000, running := some { r with left := n } }) ∧
    (∀ r : Running, s.running = some r → busWrite s 0x014 .word v = .next { s with
      resp := some .done, irqStatus := s.irqStatus ||| 0b01000 })

/-- 30_encoding R115: while BUSY = 1 a write to a mapped locked offset is dropped and sets OVERRUN: the cycle does
what it does without the access, on the state with OVERRUN set. Writes outside the range work as with BUSY = 0 (a soft
reset apart, which aborts the command: SoftResetKeepsTime). That the dropped write answers without bus error is the model's
(log 10: it is not among the bus errors that 60_exceptions R296 lists). -/
def Obligations.LockedWriteIsDropped : Prop :=
  ∀ (s : State) (off : Offset) (v : Word), WritesWord s off v → s.busy = true → ¬BusError off .word →
    (LockedOffset off → ∃ t, step s = .next { t with resp := some .done } ∧
      step { s with
        inputs := { s.nextInput with bus := none } :: s.inputs.tail
        irqStatus := s.irqStatus ||| 0b01000 } = .next t) ∧
    (¬LockedOffset off → ¬(off = 0x004 ∧ v.getLsbD 0 = true) → ∃ t, busWrite { s.popInput with resp := none } off .word v = .next t ∧
      busWrite { s.popInput with resp := none, running := none } off .word v = .next { t with running := none })

/-- 70_reset_and_hazards R343, 42_scheduler R242: the host access comes before the completion and the tick. A read of
STATUS in the completing cycle returns BUSY = 1, and a TX_DONE written in a tick's cycle is recorded with the TIME
before the tick. -/
def Obligations.HostAccessComesFirstInItsCycle : Prop :=
  (∀ (s : State) (r : Running), s.nextInput.rst = false → s.nextInput.bus = some (.read 0x008 .word) → Completes s r →
    ∃ t v, step s = .next t ∧ t.resp = some (.data v) ∧ v.getLsbD 0 = true ∧ t.running = none) ∧
  (∀ (s : State) (v : Word), WritesWord s 0x21C v → s.nextInput.tick = true → v.extractLsb' 0 2 = 1 →
    ∃ t, step s = .next t ∧ t.sched.txEndTs = s.sched.time ∧ t.sched.time = s.sched.time + 1)

/-- 30_encoding R116: with nothing happening outside, a command written to an idle core is still running after each of
CMD_LATENCY cycles, and the cycle after them completes it. The latency is the free value `Config.cmdLatency` (log 4). -/
def Obligations.CommandCompletesAfterItsLatency : Prop :=
  ∀ (s : State) (v : Word), s.running = none →
    s.inputs = [{ rst := false, bus := some (.write 0x014 .word v), tick := false }] →
    let latency := Config.cmdLatency (v.extractLsb' 0 8) (v.extractLsb' 16 9) s.draws
    1 ≤ latency ∧
    (∀ k : Nat, 1 ≤ k → k ≤ latency → ∃ t : State, runs k s = .next t ∧ t.busy = true ∧ t.errCode = s.errCode) ∧
    runs (latency + 1) s = completeRunning v { s with
      inputs := [], resp := none, cmd := v, running := some { cur := v, snap := s.op, left := 0 }, draws := s.draws + 1 }

/-! ## The bus -/

/-- 60_exceptions R296: a bus error answers the error response, with data 0, and changes nothing else: the cycle does
what it does without the access. -/
def Obligations.BusErrorChangesNothing : Prop :=
  BusResp.error.readData = 0 ∧
  ∀ (s : State) (op : BusOp) (off : Offset) (size : AccessSize) (v : Word),
    (op = .read off size ∨ op = .write off size v) → BusError off size →
    s.nextInput.rst = false → s.nextInput.bus = some op →
    ∃ t, step s = .next { t with resp := some .error } ∧
      step { s with inputs := { s.nextInput with bus := none } :: s.inputs.tail } = .next t

/-- 20_memory R85 and R91, 30_encoding R117: a read without bus error answers the register's current value and changes
nothing but the response, except that TIME_LO refreshes TIME_HI_LATCH; while BUSY a locked offset reads a free value
(log 7), which only moves the model's counter of free values. The current value is the state the register's own rule names
(10_state R32 to R71), TIME_HI's is the latch; STATUS, the 16-byte strings and the buffers are stated in
StatusShowsBusyJoinedErrcode and ByteStringsArePackedLittleEndian. -/
def Obligations.ReadAnswersAndChangesNothing : Prop :=
  (∀ (s : State) (r : Reg) (w : Word), shown s r = some w → s.readReg r = w) ∧
  ∀ (s : State) (off : Offset) (r : Reg), accessReg off .word = some r →
    (¬(s.busy = true ∧ LockedOffset off) → r ≠ .timeLo →
      s.busRead off .word = { s with resp := some (.data (s.readReg r)) }) ∧
    (r = .timeLo → s.busRead off .word = { s with
      resp := some (.data (s.sched.time.extractLsb' 0 32))
      sched := { s.sched with timeHiLatch := s.sched.time.extractLsb' 32 32 } }) ∧
    (s.busy = true ∧ LockedOffset off → ∃ v, s.busRead off .word = { s with
      resp := some (.data v), draws := s.draws + 1 })

/-- 20_memory R86: a plain write into a register reads back in its RW bits; its other bits, and the registers that are
not written plainly, ignore it. -/
def Obligations.PlainWriteReadsBack : Prop :=
  ∀ (s : State) (r : Reg) (v : Word),
    (rwMask r ≠ 0 → (s.writeReg r v).readReg r = v &&& rwMask r) ∧
    (rwMask r = 0 → s.writeReg r v = s)

/-- A plain write leaves every other register as it reads (STATUS apart, which shows JOINED live). -/
def Obligations.PlainWriteLeavesOtherRegisters : Prop :=
  ∀ (s : State) (r q : Reg) (v : Word), q ≠ r → q ≠ .status → (s.writeReg r v).readReg q = s.readReg q

/-- A host write of a word to a register that starts nothing is the plain write of it, in the cycle's bus phase; and a CTRL
write with bit 0 = 0 has no effect, BUSY or not (30_encoding R121). That a write which a register ignores answers without
bus error is the model's (log 10: it is not among the bus errors that 60_exceptions R296 lists). -/
def Obligations.HostWriteReachesItsRegister : Prop :=
  (∀ (s : State) (r : Reg) (v : Word), startsSomething r = false → ¬(s.busy = true ∧ LockedOffset r.offset) →
    busWrite s r.offset .word v = .next { s.writeReg r v with resp := some .done }) ∧
  (∀ (s : State) (v : Word), v.getLsbD 0 = false →
    busWrite s 0x004 .word v = .next { s with resp := some .done } ∧
    (OnlyInput s (some (.write 0x004 .word v)) false → step s = enginePhase { s.popInput with resp := some .done }))

/-- 20_memory R81: byte i of a string based at B lies in the word at B + 4·⌊i/4⌋, bits 8·(i mod 4)+7 : 8·(i mod 4):
for the key slots, the 16-byte registers and the two buffers. -/
def Obligations.ByteStringsArePackedLittleEndian : Prop :=
  ∀ s : State,
    (∀ ks : KeySlot, Packs s (.key ks) (s.op.key ks)) ∧ Packs s .blockIn s.op.blockIn ∧
    Packs s .blockOut s.res.blockOut ∧ Packs s .macOut s.res.macOut ∧ Packs s .txFopts s.op.txFopts ∧
    Packs s .rxFopts s.res.rxFopts ∧
    (∀ i : Fin 256,
      (s.readReg (.pbuf (BitVec.ofNat 6 (i.val / 4)))).extractLsb' (8 * (i.val % 4)) 8 = s.op.byteAt (0x400 + i.val) ∧
      (s.readReg (.fbuf (BitVec.ofNat 6 (i.val / 4)))).extractLsb' (8 * (i.val % 4)) 8 = s.op.byteAt (0x500 + i.val)) ∧
    (∀ j : BitVec 2, (Reg.blockIn j).offset.toNat = 0x080 + 4 * j.toNat ∧
      (Reg.blockOut j).offset.toNat = 0x090 + 4 * j.toNat ∧ (Reg.macOut j).offset.toNat = 0x0A0 + 4 * j.toNat ∧
      (Reg.txFopts j).offset.toNat = 0x060 + 4 * j.toNat ∧ (Reg.rxFopts j).offset.toNat = 0x070 + 4 * j.toNat ∧
      ∀ ks : KeySlot, (Reg.key ks j).offset.toNat = 0x100 + 16 * ks.toNat + 4 * j.toNat) ∧
    (∀ j : BitVec 6, (Reg.pbuf j).offset.toNat = 0x400 + 4 * j.toNat ∧ (Reg.fbuf j).offset.toNat = 0x500 + 4 * j.toNat)

/-! ## Status and interrupts -/

/-- 10_state R34 and R40: STATUS shows BUSY, the live JOINED and ERRCODE, by the numbers of 60_exceptions R290, and its
other bits read 0. The JOINED that commands check is the same condition on their operands. -/
def Obligations.StatusShowsBusyJoinedErrcode : Prop :=
  (∀ o : Operands, o.joined = true ↔ o.devAddr ≠ 0 ∧ o.k1 ≠ 0 ∧ o.k2 ≠ 0) ∧
  ∀ s : State,
    (s.readReg .status).getLsbD 0 = s.running.isSome ∧
    ((s.readReg .status).getLsbD 1 = true ↔ s.op.devAddr ≠ 0 ∧ s.op.k1 ≠ 0 ∧ s.op.k2 ≠ 0) ∧
    (s.readReg .status).extractLsb' 2 6 = 0 ∧ (s.readReg .status).extractLsb' 8 4 = errNumber s.errCode ∧
    (s.readReg .status).extractLsb' 12 20 = 0

/-- 10_state R34: ERRCODE changes only at a command's completion, at hard reset and at soft reset. -/
def Obligations.ErrcodeChangesOnlyAtCompletionOrReset : Prop :=
  ∀ s t : State, step s = .next t → t.errCode ≠ s.errCode → Resets s ∨ ∃ r, Completes s r

/-- 10_state R35, 60_exceptions R298, R299, R301: only a host write of 1 to that bit, or a reset, clears an IRQ_STATUS
bit; nothing but its own condition sets it, and a reset sets none; and a set wins over a clear in the same cycle: a
completion sets CMD_DONE, and CMD_ERR on an error, whatever the host writes, and a timed transition sets RADIO_REQ in the
cycle of an acknowledgement. -/
def Obligations.IrqBitsAreSticky : Prop :=
  (∀ (s t : State) (i : Nat), step s = .next t → s.irqStatus.getLsbD i = true → t.irqStatus.getLsbD i = false →
    Resets s ∨ ∃ v, WritesWord s 0x00C v ∧ v.getLsbD i = true) ∧
  (∀ (s t : State) (i : Nat), step s = .next t → s.irqStatus.getLsbD i = false → t.irqStatus.getLsbD i = true →
    ¬Resets s ∧ SetsIrqBit s t i) ∧
  (∀ (s t : State) (r : Running), step s = .next t → ¬Resets s → Completes s r →
    t.irqStatus.getLsbD 0 = true ∧ (t.errCode ≠ .ok → t.irqStatus.getLsbD 1 = true)) ∧
  (∀ (s t : State) (v : Word), step s = .next t → WritesWord s 0x00C v → t.sched.schedState ≠ s.sched.schedState →
    t.irqStatus.getLsbD 2 = true)

/-- 30_encoding R122: a write to IRQ_STATUS is IRQ_ACK of its low five bits, and IRQ_ACK clears exactly the bits
written as 1 and touches nothing else. -/
def Obligations.IrqAckClearsWrittenBits : Prop :=
  (∀ v : Word, decode (.busWrite 0x00C v) = .ok (.irqAck (v.extractLsb' 0 5))) ∧
  ∀ (mask : BitVec 5) (s : State), ∃ t, exec (.irqAck mask) s = .next t ∧ t = { s with irqStatus := t.irqStatus } ∧
    ∀ i : Nat, t.irqStatus.getLsbD i = (s.irqStatus.getLsbD i && !mask.getLsbD i)

/-- 60_exceptions R300: irq is the OR over the five bits of status AND enable. -/
def Obligations.IrqOutputIsMaskedOr : Prop :=
  ∀ s : State, s.irq = true ↔ ∃ i : Fin 5, s.irqStatus.getLsbD i.val = true ∧ s.irqEnable.getLsbD i.val = true

/-! ## Commands in general -/

/-- Every command, with or without error, completes: BUSY falls, CMD_DONE is set, CMD_ERR exactly when the error code
is not OK, and nothing but the error code, the operand and the result registers changes besides (30_encoding R116). -/
def Obligations.EveryCommandCompletes : Prop :=
  ∀ (i : Instr) (s : State), isCommand i = true → ∃ t, exec i s = .next t ∧ t = { s with
    op := t.op, res := t.res, errCode := t.errCode, running := none
    irqStatus := s.irqStatus ||| (if t.errCode = .ok then 0b00001 else 0b00011) }

/-- 60_exceptions R291: a raised error changes ERRCODE, CMD_DONE and CMD_ERR, and nothing else (the command is then
over), for every command and for every word that completes. -/
def Obligations.FailedCommandWritesNothingElse : Prop :=
  (∀ (i : Instr) (s t : State), isCommand i = true → exec i s = .next t → t.errCode ≠ .ok →
    t = { s with errCode := t.errCode, irqStatus := s.irqStatus ||| 0b00011, running := none }) ∧
  (∀ (w : Word) (s t : State), completeRunning w s = .next t → t.errCode ≠ .ok →
    t = { s with errCode := t.errCode, irqStatus := s.irqStatus ||| 0b00011, running := none })

/-- 60_exceptions R295: the order of the checks of every command, as the error code each ends with. The first two
common checks are the decoder's (an illegal word completes with ILLEGAL_CMD). -/
def Obligations.CommandsCheckInFixedOrder : Prop :=
  (∀ (w : Word) (e : Reject) (s : State), decodeCmd w = .error e →
    ∃ t, completeRunning w s = .next t ∧ t.errCode = .illegalCmd) ∧
  (∀ (ks : KeySlot) (s : State), ∃ t, exec (.ecb ks) s = .next t ∧ t.errCode = .ok) ∧
  (∀ s : State, ∃ t, exec .derive s = .next t ∧ t.errCode = .ok) ∧
  (∀ s : State, ∃ t, exec .sessRst s = .next t ∧ t.errCode = .ok) ∧
  (∀ (ks : KeySlot) (len : Len) (s : State), ∃ t, exec (.cmac ks len) s = .next t ∧
    t.errCode = if len.toNat > 256 then .lenRange else .ok) ∧
  (∀ (ks : KeySlot) (len : Len) (s : State), ∃ t, exec (.ctr ks len) s = .next t ∧
    t.errCode = if len.toNat > 256 then .lenRange else .ok) ∧
  (∀ s : State, ∃ t, exec .jreqEnc s = .next t ∧ t.errCode = if s.snapshot.joined then .alreadyJoined else .ok) ∧
  (∀ (len : Len) (s : State), ∃ t, exec (.jaccDec len) s = .next t ∧
    let p := joinPlain s.snapshot.k0 (s.snapshot.fbuf len.toNat)
    t.errCode =
      if len.toNat > 256 then .lenRange
      else if s.snapshot.joined then .alreadyJoined
      else if len.toNat ≠ 17 ∧ len.toNat ≠ 33 then .badJaLen
      else if tag4 s.snapshot.k0 (sub p 0 (len.toNat - 4)) ≠ sub p (len.toNat - 4) 4 then .badMic
      else .ok) ∧
  (∀ (len : Len) (s : State), ∃ t, exec (.dataEnc len) s = .next t ∧
    t.errCode =
      if len.toNat > 256 then .lenRange
      else if ¬s.snapshot.joined then .notJoined
      else if 12 + (s.snapshot.txHdr.extractLsb' 8 4).toNat + (if len.toNat > 0 then 1 + len.toNat else 0) > 256
        then .lenRange
      else .ok) ∧
  (∀ (len : Len) (s : State), ∃ t, exec (.dataDec len) s = .next t ∧
    let n := s.snapshot
    let f := n.fbuf len.toNat
    let mt := ((byteOf f 0).extractLsb' 5 3).toNat
    let dir := decide (mt = 3 ∨ mt = 5)
    let fcnt16 : BitVec 16 := BitVec.ofNat 16 (fromLE (sub f 6 2))
    let fcnt32 : Word := if dir then fcnt16.setWidth 32 else n.fcntUp.extractLsb' 16 16 ++ fcnt16
    t.errCode =
      if len.toNat > 256 then .lenRange
      else if ¬n.joined then .notJoined
      else if len.toNat < 12 then .tooShort
      else if mt ≠ 2 ∧ mt ≠ 3 ∧ mt ≠ 4 ∧ mt ≠ 5 then .badMhdr
      else if fromLE (sub f 1 4) ≠ n.devAddr.toNat then .wrongDevAddr
      else if len.toNat < 12 + ((byteOf f 5).extractLsb' 0 4).toNat then .badFopts
      else if tag4 n.k1 (b0Bytes dir n.devAddr fcnt32 (len.toNat - 4) ++ sub f 0 (len.toNat - 4)) ≠ sub f (len.toNat - 4) 4
        then .badMic
      else .ok)

/-- 42_scheduler R243: the scheduler's operations act the same while BUSY, its registers are never locked, and neither
side changes a register of the other. -/
def Obligations.SchedulerAndEngineAreIndependent : Prop :=
  (∀ (i : Instr) (s t : State), exec i s = .next t → isCommand i = true → t.sched = s.sched) ∧
  (∀ (i : Instr) (s t : State), exec i s = .next t → isSchedulerOp i = true →
    t = { s with sched := t.sched, irqStatus := t.irqStatus } ∧
    ∀ r : Option Running, exec i { s with running := r } = .next { t with running := r }) ∧
  (∀ r : Reg, 0x200 ≤ r.offset.toNat → r.offset.toNat ≤ 0x234 → r.locked = false)

/-! ## The crypto commands -/

/-- 40_crypto R160: ECB writes the AES encryption of BLOCK_IN under K[KS] into BLOCK_OUT and changes nothing else. -/
def Obligations.EcbEncryptsOneBlock : Prop :=
  ∀ (ks : KeySlot) (s : State), exec (.ecb ks) s =
    .next (committed s s.op { s.res with blockOut := aes (s.snapshot.key ks) s.snapshot.blockIn })

/-- 40_crypto R161, R150, R151: CMAC writes the tag of PBUF[0..LEN) under K[KS] into MAC_OUT and changes nothing else; and
the tag of any string is the chain over its blocks, the last one whole with the first subkey, or padded with 0x80 and zeros
with the second (the empty string too), the subkeys being the encrypted zero block doubled once and twice. -/
def Obligations.CmacTagsPayload : Prop :=
  (∀ (ks : KeySlot) (len : Len) (s : State), len.toNat ≤ 256 → exec (.cmac ks len) s =
    .next (committed s s.op { s.res with macOut := cmac (s.snapshot.key ks) (s.snapshot.pbuf len.toNat) })) ∧
  ∀ (k : Block) (m : List Byte), ∃ sk1 sk2 : Block, Doubled (aes k 0) sk1 ∧ Doubled sk1 sk2 ∧
    (0 < m.length ∧ m.length % 16 = 0 → cmac k m =
      aes k (macChain k m (m.length / 16 - 1) ^^^ (blockOf (sub m (m.length - 16) 16) ^^^ sk1))) ∧
    (¬(0 < m.length ∧ m.length % 16 = 0) → cmac k m =
      aes k (macChain k m (m.length / 16) ^^^
        (blockOf (m.drop (16 * (m.length / 16)) ++ [0x80] ++ List.replicate (15 - m.length % 16) 0) ^^^ sk2)))

/-- 40_crypto R162: CTR XORs PBUF[0..LEN) with the keystream in place; every other byte and register stays. -/
def Obligations.CtrTransformsPayloadInPlace : Prop :=
  ∀ (ks : KeySlot) (len : Len) (s : State), len.toNat ≤ 256 →
    ∃ t, exec (.ctr ks len) s = .next t ∧ t = committed s t.op s.res ∧
      { t.op with mem := s.op.mem } = s.op ∧
      (∀ i : Nat, i < len.toNat → t.op.byteAt (0x400 + i) = s.snapshot.byteAt (0x400 + i) ^^^
        blockByte (aes (s.snapshot.key ks) (blockOf ((blockBytes s.snapshot.blockIn).take 15 ++ [BitVec.ofNat 8 (i / 16 + 1)])))
          (i % 16)) ∧
      SameBytesOutside 0x400 len.toNat s.op t.op

/-- 40_crypto R154: CTRX is its own inverse; and R153: its byte i is byte i of the string XOR the keystream's. -/
def Obligations.CtrxIsItsOwnInverse : Prop :=
  ∀ (k t : Block) (m : List Byte), ctrx k t (ctrx k t m) = m ∧ (ctrx k t m).length = m.length ∧
    ∀ i : Nat, i < m.length → byteOf (ctrx k t m) i = byteOf m i ^^^
      blockByte (aes k (blockOf ((blockBytes t).take 15 ++ [BitVec.ofNat 8 (i / 16 + 1)]))) (i % 16)

/-- 40_crypto R162: running the same CTR command twice restores every byte of the buffers (read as the command reads
them, with no other command in between). -/
def Obligations.CtrTwiceRestoresPayload : Prop :=
  ∀ (ks : KeySlot) (len : Len) (s t u : State), len.toNat ≤ 256 → s.snapshot = s.op →
    exec (.ctr ks len) s = .next t → exec (.ctr ks len) t = .next u → SameBytes s.op u.op

/-- 40_crypto R163 and R155: DERIVE writes the two session keys, and nothing else. -/
def Obligations.DeriveWritesSessionKeys : Prop :=
  ∀ s : State,
    let n := s.snapshot
    exec .derive s = .next (committed s { s.op with
      k1 := sessionKey n.k0 0x01 n.jaAppNonce n.jaNetId n.devNonce
      k2 := sessionKey n.k0 0x02 n.jaAppNonce n.jaNetId n.devNonce } s.res)

/-- 40_crypto R149: the FIPS-197 check value of the cipher over bytes, which is the cipher of the 16-byte strings. -/
def Obligations.AesMeetsFips197Vector : Prop :=
  (∀ k b : Block, blockBytes (aes k b) = aesBytes (blockBytes k) (blockBytes b)) ∧
  aesBytes [0x00, 0x01, 0x02, 0x03, 0x04, 0x05, 0x06, 0x07, 0x08, 0x09, 0x0A, 0x0B, 0x0C, 0x0D, 0x0E, 0x0F]
    [0x00, 0x11, 0x22, 0x33, 0x44, 0x55, 0x66, 0x77, 0x88, 0x99, 0xAA, 0xBB, 0xCC, 0xDD, 0xEE, 0xFF]
  = [0x69, 0xC4, 0xE0, 0xD8, 0x6A, 0x7B, 0x04, 0x30, 0xD8, 0xCD, 0xB7, 0x80, 0x70, 0xB4, 0xC5, 0x5A]

/-- 40_crypto R142: the table is the inverse in GF(2^8) followed by the affine map; 0 maps to the map of 0. -/
def Obligations.SboxIsInverseThenAffine : Prop :=
  sbox 0 = affine 0 ∧ ∀ x : Byte, x ≠ 0 → ∃ y : Byte, gfMul x y = 1 ∧ sbox x = affine y

/-! ## The frame codec -/

/-- 41_codec R200: SESSRST zeroes DEVADDR, K[1], K[2], FCNTUP and FCNTDOWN, JOINED falls, and nothing else changes. -/
def Obligations.SessRstZeroesTheSession : Prop :=
  ∀ s : State, ∃ t, exec .sessRst s = .next t ∧ t.op.joined = false ∧
    t = committed s { s.op with devAddr := 0, k1 := 0, k2 := 0, fcntUp := 0, fcntDown := 0 } s.res

/-- 41_codec R201 and R188: on an unjoined core JREQ_ENC writes the 23-byte Join-Request, RES_LEN and MIC, and nothing else. -/
def Obligations.JreqEncBuildsJoinRequest : Prop :=
  ∀ s : State, s.snapshot.joined = false →
    let n := s.snapshot
    let body := [0x00] ++ leBytes 8 n.appEui.toNat ++ leBytes 8 n.devEui.toNat ++ leBytes 2 n.devNonce.toNat
    let mic := (blockBytes (cmac n.k0 body)).take 4
    ∃ t, exec .jreqEnc s = .next t ∧
      t = committed s t.op { s.res with resLen := 23, mic := BitVec.ofNat 32 (fromLE mic) } ∧
      { t.op with mem := s.op.mem } = s.op ∧ t.op.fbuf 23 = body ++ mic ∧ SameBytesOutside 0x500 23 s.op t.op

/-- 41_codec R202 and R189: a Join-Accept of 17 or 33 bytes whose MIC matches commits the whole session at once, the
CFList of the 33-byte form into PBUF[0..16), and nothing else. -/
def Obligations.JaccDecCommitsTheSession : Prop :=
  ∀ (len : Len) (s : State), s.snapshot.joined = false → (len.toNat = 17 ∨ len.toNat = 33) →
    let n := s.snapshot
    let p := joinPlain n.k0 (n.fbuf len.toNat)
    let mic := sub p (len.toNat - 4) 4
    tag4 n.k0 (sub p 0 (len.toNat - 4)) = mic →
    let an : BitVec 24 := BitVec.ofNat 24 (fromLE (sub p 1 3))
    let nid : BitVec 24 := BitVec.ofNat 24 (fromLE (sub p 4 3))
    ∃ t, exec (.jaccDec len) s = .next t ∧
      t = committed s t.op { s.res with
        jaParams := byteOf p 0 ++ (if len.toNat = 33 then 1 else 0 : Byte) ++ byteOf p 12 ++ byteOf p 11
        mic := BitVec.ofNat 32 (fromLE mic)
        resLen := if len.toNat = 33 then 16 else 0 } ∧
      { t.op with mem := s.op.mem } = { s.op with
        jaAppNonce := an, jaNetId := nid, devAddr := BitVec.ofNat 32 (fromLE (sub p 7 4))
        fcntUp := 0, fcntDown := 0
        k1 := sessionKey n.k0 0x01 an nid n.devNonce, k2 := sessionKey n.k0 0x02 an nid n.devNonce } ∧
      (len.toNat = 33 → t.op.pbuf 16 = sub p 13 16 ∧ SameBytesOutside 0x400 16 s.op t.op) ∧
      (len.toNat = 17 → SameBytes s.op t.op)

/-- 41_codec R203, R183 to R187: on a joined core DATA_ENC writes the frame, field by field, RES_LEN and MIC, and nothing
else; blocks A and B0 are written out byte by byte. -/
def Obligations.DataEncBuildsTheFrame : Prop :=
  ∀ (len : Len) (s : State), s.snapshot.joined = true →
    let n := s.snapshot
    let h := n.txHdr
    let fol := (h.extractLsb' 8 4).toNat
    let p := len.toNat
    let total := 12 + fol + (if p > 0 then 1 + p else 0)
    total ≤ 256 →
    let dir := h.getLsbD 21
    let fcnt : Word := if dir then n.fcntDown.setWidth 32 else n.fcntUp
    ∃ t, exec (.dataEnc len) s = .next t ∧
      t.res = { s.res with resLen := BitVec.ofNat 9 total, mic := t.res.mic } ∧ t = committed s t.op t.res ∧
      { t.op with mem := s.op.mem } = s.op ∧ SameBytesOutside 0x500 total s.op t.op ∧
      let f := t.op.fbuf total
      byteOf f 0 = (if dir then (if h.getLsbD 20 then 0xA0 else 0x60) else (if h.getLsbD 20 then 0x80 else 0x40)) ∧
      sub f 1 4 = leBytes 4 n.devAddr.toNat ∧
      (byteOf f 5).extractLsb' 4 4 = h.extractLsb' 4 4 ∧ (byteOf f 5).extractLsb' 0 4 = h.extractLsb' 8 4 ∧
      sub f 6 2 = leBytes 2 fcnt.toNat ∧
      sub f 8 fol = (blockBytes n.txFopts).take fol ∧
      (p > 0 → byteOf f (8 + fol) = h.extractLsb' 12 8 ∧
        ∀ i : Nat, i < p → byteOf f (9 + fol + i) =
          n.byteAt (0x400 + i) ^^^ payloadMask n (h.extractLsb' 12 8) dir n.devAddr fcnt i) ∧
      sub f (total - 4) 4 = tag4 n.k1 (b0Bytes dir n.devAddr fcnt (total - 4) ++ sub f 0 (total - 4)) ∧
      t.res.mic = BitVec.ofNat 32 (fromLE (sub f (total - 4) 4))

/-- 41_codec R204: a data frame that passes every check is decrypted into PBUF[0..RES_LEN), its fields go to the result
registers, FCNTDOWN takes a downlink's counter, and nothing else changes; blocks A and B0 (R183, R184) are written out byte
by byte. -/
def Obligations.DataDecAcceptsTheFrame : Prop :=
  ∀ (len : Len) (s : State),
    let n := s.snapshot
    let L := len.toNat
    let f := n.fbuf L
    let mt := ((byteOf f 0).extractLsb' 5 3).toNat
    let dir := decide (mt = 3 ∨ mt = 5)
    let fol := ((byteOf f 5).extractLsb' 0 4).toNat
    let fcnt16 : BitVec 16 := BitVec.ofNat 16 (fromLE (sub f 6 2))
    let fcnt32 : Word := if dir then fcnt16.setWidth 32 else n.fcntUp.extractLsb' 16 16 ++ fcnt16
    let port : Byte := if L > 12 + fol then byteOf f (8 + fol) else 0
    let plen := L - (13 + fol)
    n.joined = true → 12 + fol ≤ L → L ≤ 256 → (mt = 2 ∨ mt = 3 ∨ mt = 4 ∨ mt = 5) →
    sub f 1 4 = leBytes 4 n.devAddr.toNat →
    tag4 n.k1 (b0Bytes dir n.devAddr fcnt32 (L - 4) ++ sub f 0 (L - 4)) = sub f (L - 4) 4 →
    ∃ t, exec (.dataDec len) s = .next t ∧ t = committed s t.op t.res ∧
      { t.op with mem := s.op.mem } = { s.op with fcntDown := if dir then fcnt16 else s.op.fcntDown } ∧
      (∀ i : Nat, i < plen → t.op.byteAt (0x400 + i) =
        byteOf f (9 + fol + i) ^^^ payloadMask n port dir n.devAddr fcnt32 i) ∧
      SameBytesOutside 0x400 plen s.op t.op ∧
      t.res = { s.res with
        resLen := BitVec.ofNat 9 plen
        rxInfo := t.res.rxInfo
        rxDevAddr := n.devAddr
        rxFcnt := fcnt16
        rxFopts := t.res.rxFopts
        mic := BitVec.ofNat 32 (fromLE (sub f (L - 4) 4)) } ∧
      blockBytes t.res.rxFopts = sub f 8 fol ++ List.replicate (16 - fol) 0 ∧
      t.res.rxInfo.extractLsb' 0 8 = byteOf f 0 ∧ t.res.rxInfo.extractLsb' 8 8 = byteOf f 5 ∧
      t.res.rxInfo.extractLsb' 16 4 = (byteOf f 5).extractLsb' 0 4 ∧
      t.res.rxInfo.getLsbD 20 = decide (L > 12 + fol) ∧ t.res.rxInfo.extractLsb' 21 8 = port ∧
      t.res.rxInfo.getLsbD 29 = dir ∧ t.res.rxInfo.getLsbD 30 = decide (mt = 4 ∨ mt = 5) ∧
      t.res.rxInfo.getLsbD 31 = false

/-- 41_codec R193: what DATA_ENC built, left in FBUF, DATA_DEC accepts, and gives back the payload and every field. -/
def Obligations.DataDecInvertsDataEnc : Prop :=
  ∀ (len : Len) (s t : State), s.snapshot = s.op → exec (.dataEnc len) s = .next t → t.errCode = .ok →
    ∃ u, exec (.dataDec t.res.resLen) t = .next u ∧ u.errCode = .ok ∧
      let h := s.op.txHdr
      let fol := (h.extractLsb' 8 4).toNat
      u.op.pbuf len.toNat = s.op.pbuf len.toNat ∧ u.res.resLen.toNat = len.toNat ∧
      u.res.rxInfo.extractLsb' 0 8 = t.op.byteAt 0x500 ∧ u.res.rxInfo.extractLsb' 8 8 = t.op.byteAt 0x505 ∧
      u.res.rxInfo.extractLsb' 16 4 = h.extractLsb' 8 4 ∧
      u.res.rxInfo.getLsbD 20 = decide (len.toNat > 0) ∧
      u.res.rxInfo.extractLsb' 21 8 = (if len.toNat > 0 then h.extractLsb' 12 8 else 0) ∧
      u.res.rxInfo.getLsbD 29 = h.getLsbD 21 ∧ u.res.rxInfo.getLsbD 30 = h.getLsbD 20 ∧
      (blockBytes u.res.rxFopts).take fol = (blockBytes s.op.txFopts).take fol

/-! ## The scheduler -/

/-- 42_scheduler R259, R240: a tick in Idle or Continuous only increments TIME. -/
def Obligations.TickOutsideAnUplinkOnlyCounts : Prop :=
  ∀ s : State, (s.sched.schedState = .idle ∨ s.sched.schedState = .continuous) →
    exec .tick s = .next { s with sched := { s.sched with time := s.sched.time + 1 } }

/-- 42_scheduler R248, R251, R252, R249, R250, R254, R240: every tick in a wait or a window: TIME counts, then the one
timed rule of the state acts exactly when its time has come. Elapsed times are exact integers (R241, log 11). -/
def Obligations.TickRunsTheTimedRule : Prop :=
  ∀ s : State,
    let now : DWord := s.sched.time + 1
    let el : Int := (now.toNat : Int) - s.sched.txEndTs.toNat
    let wel : Int := (now.toNat : Int) - s.sched.winOpenTs.toNat
    let d1 : Int := s.sched.rxDelay1.toNat
    let w : Int := s.sched.windowMs.toNat
    let quiet : StepOutcome := .next { s with sched := { s.sched with time := now } }
    let acts (q : SchedState) (a : RadioAction) (opened : DWord) (dr : BitVec 4) : StepOutcome := .next { s with
      sched := { s.sched with time := now, schedState := q, radioAction := a, winOpenTs := opened, rx1Dr := dr }
      irqStatus := s.irqStatus ||| 0b00100 }
    let kept := s.sched.winOpenTs
    let oldDr := s.sched.rx1Dr
    (s.sched.schedState = .wait1 →
      exec .tick s = if el ≥ d1 then acts .window1 .openRx1 now (rx1Dr s.sched.rx1Cfg) else quiet) ∧
    (s.sched.schedState = .window1 →
      exec .tick s =
        if wel ≥ w ∧ el ≥ d1 + 1000 then acts .window2 .openRx2 now oldDr
        else if wel ≥ w then acts .wait2 (if s.sched.cls = .c then .contRx2 else .close) kept oldDr
        else quiet) ∧
    (s.sched.schedState = .wait2 →
      exec .tick s = if el ≥ d1 + 1000 then acts .window2 .openRx2 now oldDr else quiet) ∧
    (s.sched.schedState = .window2 →
      exec .tick s =
        if wel ≥ w then
          (if s.sched.cls = .c then acts .continuous .contRx2 kept oldDr else acts .idle .close kept oldDr)
        else quiet)

/-- 42_scheduler R251: the RX1 data rate is the signed difference, at most DR_MAX, and DR_MIN wins. -/
def Obligations.Rx1DrClampsTheDifference : Prop :=
  ∀ cfg : Word,
    let up := (cfg.extractLsb' 0 4).toNat
    let off := (cfg.extractLsb' 4 3).toNat
    let lo := (cfg.extractLsb' 8 4).toNat
    let hi := (cfg.extractLsb' 12 4).toNat
    (rx1Dr cfg).toNat = max lo (min (up - off) hi)

/-- 42_scheduler R255 and R256: TX_DONE stamps TIME and starts Wait1 from every state, sets SCHED_ERR in a wait or a
window, and in Class C emits CONT_RX2. -/
def Obligations.TxDoneStartsWait1 : Prop :=
  ∀ s : State,
    let serving : Prop := s.sched.schedState ≠ .idle ∧ s.sched.schedState ≠ .continuous
    exec .evTxDone s = .next { s with
      sched := { s.sched with
        txEndTs := s.sched.time, schedState := .wait1
        radioAction := if s.sched.cls = .c then .contRx2 else s.sched.radioAction }
      irqStatus := s.irqStatus ||| (if serving then 0b10000 else 0) ||| (if s.sched.cls = .c then 0b00100 else 0) }

/-- 42_scheduler R257: a good packet ends the windows: Class A goes to Idle, with CLOSE from a window only; Class C goes
to Continuous, with CONT_RX2 unless it was there. -/
def Obligations.RxOkEndsTheWindows : Prop :=
  ∀ s : State,
    let inWindow : Prop := s.sched.schedState = .window1 ∨ s.sched.schedState = .window2
    exec .evRxOk s = .next (match s.sched.cls with
      | .a => { s with
          sched := { s.sched with
            schedState := .idle, radioAction := if inWindow then .close else s.sched.radioAction }
          irqStatus := s.irqStatus ||| (if inWindow then 0b00100 else 0) }
      | .c => { s with
          sched := { s.sched with
            schedState := .continuous
            radioAction := if s.sched.schedState = .continuous then s.sched.radioAction else .contRx2 }
          irqStatus := s.irqStatus ||| (if s.sched.schedState = .continuous then 0 else 0b00100) })

/-- 42_scheduler R245 and R258: TX_DONE with RX_DONE sets SCHED_ERR only; a CRC error, and no event, do nothing. -/
def Obligations.OtherEventsDoNothingElse : Prop :=
  ∀ s : State, exec .evBoth s = .next { s with irqStatus := s.irqStatus ||| 0b10000 } ∧
    exec .evRxCrcErr s = .next s ∧ exec .evNone s = .next s

/-- 42_scheduler R262: SET_CLASS acts only on a change, moves Idle and Continuous, and emits in Idle, Continuous and the
waits. -/
def Obligations.SetClassSwitchesTheClass : Prop :=
  ∀ (cls : DevClass) (s : State),
    let waits : Prop := s.sched.schedState = .wait1 ∨ s.sched.schedState = .wait2
    let acts (q : SchedState) (a : RadioAction) : StepOutcome := .next { s with
      sched := { s.sched with cls := cls, schedState := q, radioAction := a }, irqStatus := s.irqStatus ||| 0b00100 }
    let quiet : StepOutcome := .next { s with sched := { s.sched with cls := cls } }
    (s.sched.cls = cls → exec (.setClass cls) s = .next s) ∧
    (s.sched.cls = .a → cls = .c → exec (.setClass cls) s =
      if s.sched.schedState = .idle then acts .continuous .contRx2
      else if waits then acts s.sched.schedState .contRx2 else quiet) ∧
    (s.sched.cls = .c → cls = .a → exec (.setClass cls) s =
      if s.sched.schedState = .continuous then acts .idle .close
      else if waits then acts s.sched.schedState .close else quiet)

/-- 42_scheduler R263: SCHED_STATE changes only on a tick, on an EVENT write, on a SCHED_CTRL write, and at reset. -/
def Obligations.SchedStateChangesOnlyByItsRules : Prop :=
  ∀ s t : State, step s = .next t → t.sched.schedState ≠ s.sched.schedState →
    Resets s ∨ (s.nextInput.rst = false ∧ s.nextInput.tick = true) ∨ ∃ v, WritesWord s 0x21C v ∨ WritesWord s 0x200 v

/-- 42_scheduler R240, 10_state R71: each step TIME counts the tick, modulo 2^64; only hard reset clears it. -/
def Obligations.TimeCountsTicks : Prop :=
  ∀ s t : State, step s = .next t →
    t.sched.time = if s.nextInput.rst then 0 else s.sched.time + (if s.nextInput.tick then 1 else 0)

/-- 42_scheduler R244: the timestamps stay at or before TIME, as long as TIME does not wrap (93 U23). -/
def Obligations.TimestampsStayInThePast : Prop :=
  ∀ s t : State, s.sched.stampsPast → s.sched.time.toNat + 1 < 2 ^ 64 → step s = .next t → t.sched.stampsPast

/-- 42_scheduler R265 and 70_reset_and_hazards R351: with D1 ≥ 1 and 1 ≤ W < 1000, an uplink that receives nothing opens
RX1 exactly D1 ticks after TX_DONE, closes it W later, opens RX2 exactly at D1 + 1000 and closes it W later, ending in
Idle with CLOSE in Class A, and in Continuous with CONT_RX2 in Class C. -/
def Obligations.UplinkWindowsOpenOnTime : Prop :=
  ∀ s : State,
    let d := s.sched.rxDelay1.toNat
    let w := s.sched.windowMs.toNat
    s.sched.schedState = .wait1 → s.sched.txEndTs = s.sched.time → 1 ≤ d → 1 ≤ w → w < 1000 →
    s.sched.time.toNat + d + 1000 + w < 2 ^ 64 →
    (∀ n : Nat, n < d → AfterTicks n s .wait1 s.sched.radioAction) ∧
    (∀ n : Nat, d ≤ n → n < d + w → AfterTicks n s .window1 .openRx1) ∧
    (∀ n : Nat, d + w ≤ n → n < d + 1000 →
      AfterTicks n s .wait2 (if s.sched.cls = .c then .contRx2 else .close)) ∧
    (∀ n : Nat, d + 1000 ≤ n → n < d + 1000 + w → AfterTicks n s .window2 .openRx2) ∧
    AfterTicks (d + 1000 + w) s (if s.sched.cls = .c then .continuous else .idle)
      (if s.sched.cls = .c then .contRx2 else .close)

/-! ## Whole machine -/

/-- 10_state R38: K[0] and K[3] are written by the host only (or cleared by a reset). -/
def Obligations.OnlyTheHostWritesAppKeyAndScratch : Prop :=
  ∀ (s t : State) (ks : KeySlot), (ks = 0 ∨ ks = 3) → step s = .next t → t.op.key ks ≠ s.op.key ks →
    Resets s ∨ ∃ (j : BitVec 2) (v : Word), WritesWord s (Reg.key ks j).offset v ∧ s.busy = false

/-- 10_state R43: the core never increments FCNTUP: it changes only by a host write, or to 0 by the completion of
JACC_DEC or SESSRST, or by a reset. -/
def Obligations.FcntUpIsNeverIncremented : Prop :=
  ∀ s t : State, step s = .next t → t.op.fcntUp ≠ s.op.fcntUp →
    Resets s ∨ WritesWord s 0x020 t.op.fcntUp ∨
    (t.op.fcntUp = 0 ∧ ∃ r, Completes s r ∧ (r.cur.extractLsb' 0 8 = 0x05 ∨ r.cur.extractLsb' 0 8 = 0x11))

/-- 70_reset_and_hazards R330: after hard reset every register but the buffers reads its reset value, no command runs
and irq is 0, whatever else the cycle holds. -/
def Obligations.HardResetGivesResetValues : Prop :=
  ∀ s : State, s.nextInput.rst = true → ∃ t, step s = .next t ∧ t.running = none ∧ t.irq = false ∧
    ∀ r : Reg, isBuffer r = false → t.readReg r = resetWord r

/-- 70_reset_and_hazards R331: a CTRL write with bit 0 = 1 is SRST; SRST gives every register its reset value except
TIME and TIME_HI_LATCH, aborts a running command, lets the write's bus response stand, and keeps the buffers when no
command was running. -/
def Obligations.SoftResetKeepsTime : Prop :=
  (∀ v : Word, v.getLsbD 0 = true → decode (.busWrite 0x004 v) = .ok .srst) ∧
  ∀ s : State, ∃ t, exec .srst s = .next t ∧ t.running = none ∧ t.irq = false ∧ t.resp = s.resp ∧
    t.sched.time = s.sched.time ∧ t.sched.timeHiLatch = s.sched.timeHiLatch ∧
    (∀ r : Reg, isBuffer r = false → r ≠ .timeLo → r ≠ .timeHi → t.readReg r = resetWord r) ∧
    (s.running = none → SameBytes s.op t.op)

/-- The state right after reset satisfies the invariant. -/
def Obligations.ResetSatisfiesInvariant : Prop :=
  State.reset.Inv

/-- Every step keeps the invariant: the buffers' memory stays canonical and inside the buffers, reserved bits stay 0,
RES_LEN stays at most 256, Class A is never Continuous and Class C never Idle (42_scheduler R261), and a running
command's snapshot stays equal to the live operands (00_scope R12). -/
def Obligations.EveryStepKeepsInvariant : Prop :=
  ∀ s t : State, s.Inv → step s = .next t → t.Inv

end
end

