-- ==== Sys2Proof/Laws/Bytes.lean ====
section
/-! SUPPORT. Byte strings: little-endian integers are inverse to their encoding, blocks to their 16 bytes; slices. -/

namespace Sys2Proof.Machine

@[simp] theorem length_leBytes (n v : Nat) : (leBytes n v).length = n := by simp [leBytes]

@[simp] theorem length_blockBytes (b : Block) : (blockBytes b).length = 16 := by simp [blockBytes]

@[simp] theorem length_zeros (n : Nat) : (zeros n).length = n := by simp [zeros]

@[simp] theorem length_xorBytes (a b : List Byte) : (xorBytes a b).length = min a.length b.length := by
  simp [xorBytes]

@[simp] theorem length_sub (bs : List Byte) (a n : Nat) : (sub bs a n).length = min n (bs.length - a) := by
  simp [sub]

theorem leBytes_succ (n v : Nat) : leBytes (n + 1) v = BitVec.ofNat 8 v :: leBytes n (v / 256) := by
  simp only [leBytes, List.range_succ_eq_map, List.map_cons, List.map_map]
  refine congrArg₂ _ (by simp) (List.map_congr_left fun i _ => ?_)
  simp only [Function.comp, Nat.shiftRight_eq_div_pow, Nat.div_div_eq_div_mul]
  congr 2
  rw [Nat.succ_eq_add_one, Nat.mul_add, Nat.pow_add, Nat.mul_comm]

theorem leBytes_zero (v : Nat) : leBytes 0 v = [] := rfl

/-- Only v mod 2^(8n) matters (00_scope R9). -/
theorem fromLE_leBytes (n v : Nat) : fromLE (leBytes n v) = v % 256 ^ n := by
  induction n generalizing v with
  | zero => simp [leBytes_zero, fromLE, Nat.mod_one]
  | succ n ih =>
    rw [leBytes_succ, fromLE, ih, BitVec.toNat_ofNat]
    rw [show (2 : Nat) ^ 8 = 256 from rfl, Nat.pow_succ', Nat.mod_mul]

theorem fromLE_lt (bs : List Byte) : fromLE bs < 256 ^ bs.length := by
  induction bs with
  | nil => simp [fromLE]
  | cons b bs ih =>
    have hb := b.isLt
    rw [fromLE, List.length_cons, Nat.pow_succ']
    omega

theorem leBytes_fromLE (bs : List Byte) : leBytes bs.length (fromLE bs) = bs := by
  induction bs with
  | nil => rfl
  | cons b bs ih =>
    have hb := b.isLt
    rw [List.length_cons, leBytes_succ, fromLE]
    have h1 : (b.toNat + 256 * fromLE bs) / 256 = fromLE bs := by omega
    rw [h1, ih]
    congr 1
    apply BitVec.eq_of_toNat_eq
    rw [BitVec.toNat_ofNat]
    omega

theorem leBytes_fromLE_of_length {n : Nat} {bs : List Byte} (h : bs.length = n) : leBytes n (fromLE bs) = bs := by
  subst h; exact leBytes_fromLE bs

/-- Bytes past the n-th do not depend on more than v mod 256^n. -/
theorem leBytes_mod (n v : Nat) : leBytes n (v % 256 ^ n) = leBytes n v := by
  rw [← fromLE_leBytes n v]
  exact leBytes_fromLE_of_length (length_leBytes n v)

theorem blockBytes_eq_leBytes (b : Block) : blockBytes b = leBytes 16 b.toNat := by
  simp only [blockBytes, leBytes]
  refine List.map_congr_left fun i _ => BitVec.eq_of_toNat_eq ?_
  simp [blockByte, BitVec.extractLsb'_toNat]

@[simp] theorem blockOf_blockBytes (b : Block) : blockOf (blockBytes b) = b := by
  apply BitVec.eq_of_toNat_eq
  rw [blockOf, blockBytes_eq_leBytes, fromLE_leBytes, BitVec.toNat_ofNat]
  have := b.isLt
  omega

theorem blockBytes_blockOf {bs : List Byte} (h : bs.length = 16) : blockBytes (blockOf bs) = bs := by
  rw [blockBytes_eq_leBytes, blockOf, BitVec.toNat_ofNat]
  have := fromLE_lt bs
  rw [h] at this
  rw [Nat.mod_eq_of_lt (by omega)]
  exact leBytes_fromLE_of_length h

theorem getElem_blockBytes (b : Block) (i : Nat) (h : i < (blockBytes b).length) : (blockBytes b)[i] = blockByte b i := by
  simp [blockBytes]

/-! ## Slices -/

theorem sub_append_left (a b : List Byte) (n : Nat) (h : a.length = n) : sub (a ++ b) 0 n = a := by
  simp [sub, ← h]

theorem sub_append_right (a b : List Byte) (k n : Nat) (h : a.length = k) (hn : b.length = n) :
    sub (a ++ b) k n = b := by
  simp [sub, ← h, ← hn]

theorem byteOf_append_left (a b : List Byte) (i : Nat) (h : i < a.length) : byteOf (a ++ b) i = byteOf a i := by
  simp [byteOf, List.getD_eq_getElem?_getD, List.getElem?_append_left h]

theorem byteOf_append_right (a b : List Byte) (i : Nat) (h : a.length ≤ i) :
    byteOf (a ++ b) i = byteOf b (i - a.length) := by
  simp [byteOf, List.getD_eq_getElem?_getD, List.getElem?_append_right h]

/-- Byte i of a slice. -/
theorem byteOf_sub (bs : List Byte) (a n i : Nat) (h : i < n) : byteOf (sub bs a n) i = byteOf bs (a + i) := by
  simp [byteOf, sub, List.getD, h, List.getElem?_drop]

end Sys2Proof.Machine
end

