-- ==== Sys2Proof/Laws/Crypto.lean ====
section
/-! SUPPORT. The primitives over byte strings: AES keeps the 16-byte length, `int128` reads a string as R10's number,
CMAC's chain and CTRX's bytes one block or byte at a time. -/

namespace Sys2Proof.Machine

/-! ## AES-128: every step keeps the length (40_crypto R141 to R148) -/

theorem length_mixColumns (s : List Byte) (h : s.length % 4 = 0) : (mixColumns s).length = s.length := by
  induction s using mixColumns.induct with
  | case1 a0 a1 a2 a3 rest ih => simp [mixColumns] at h ⊢; exact ih (by omega)
  | case2 s hs =>
    match s, hs with
    | [], _ => rfl
    | [_], _ => simp at h
    | [_, _], _ => simp at h
    | [_, _, _], _ => simp at h
    | a :: b :: c :: d :: r, hs => exact absurd rfl (hs a b c d r)

theorem length_xorHead_rotWord {t : List Byte} (ht : t.length = 4) (c : Byte) :
    (xorHead c ((rotWord t).map sbox)).length = 4 := by
  match t, ht with
  | [_, _, _, _], _ => rfl

/-- A key word has 4 bytes if the words it is made from have. -/
theorem length_nextKeyWord {w : List (List Byte)} {i : Nat} (hw : ∀ x ∈ w, x.length = 4) (h4 : 4 ≤ i)
    (hi : i ≤ w.length) : (nextKeyWord w i).length = 4 := by
  have get (j : Nat) (hj : j < w.length) : (w.getD j []).length = 4 := by
    rw [List.getD_eq_getElem _ _ hj]
    exact hw _ (List.getElem_mem _)
  unfold nextKeyWord
  simp only [xorBytes, List.length_zipWith]
  split
  · rw [get (i - 4) (by omega), length_xorHead_rotWord (get (i - 1) (by omega))]; rfl
  · rw [get (i - 4) (by omega), get (i - 1) (by omega)]; rfl

/-- The key schedule: 44 words of 4 bytes (40_crypto R146). -/
theorem keyExpansion_words (k : List Byte) (hk : k.length = 16) :
    (keyExpansion k).length = 44 ∧ ∀ w ∈ keyExpansion k, w.length = 4 := by
  have grow (n : Nat) : ∀ w : List (List Byte), 4 ≤ w.length → (∀ x ∈ w, x.length = 4) →
      let w' := (List.range' w.length n).foldl (fun w i => w ++ [nextKeyWord w i]) w
      w'.length = w.length + n ∧ ∀ x ∈ w', x.length = 4 := by
    induction n with
    | zero => exact fun w _ hw => ⟨rfl, hw⟩
    | succ n ih =>
      intro w h4 hw
      have := ih (w ++ [nextKeyWord w w.length]) (by simp; omega) (by
        intro x hx
        rcases List.mem_append.mp hx with hx | hx
        · exact hw x hx
        · rw [List.mem_singleton.mp hx]; exact length_nextKeyWord hw h4 (Nat.le_refl _))
      simp only [List.length_append, List.length_singleton, List.range'_succ, List.foldl_cons] at this ⊢
      exact ⟨by omega, this.2⟩
  exact grow 40 [sub k 0 4, sub k 4 4, sub k 8 4, sub k 12 4] (by simp) (by simp [sub, hk])

theorem length_roundKey {k : List Byte} (hk : k.length = 16) {rd : Nat} (hrd : rd ≤ 10) :
    (roundKey (keyExpansion k) rd).length = 16 := by
  obtain ⟨h44, h4⟩ := keyExpansion_words k hk
  have : ((List.take 4 (List.drop (4 * rd) (keyExpansion k))).map List.length) = List.replicate 4 4 := by
    rw [List.eq_replicate_iff]
    refine ⟨by simp [h44]; omega, fun x hx => ?_⟩
    obtain ⟨w, hw, rfl⟩ := List.mem_map.mp hx
    exact h4 w (List.mem_of_mem_drop (List.mem_of_mem_take hw))
  rw [roundKey, List.length_flatten, this]
  rfl

theorem length_aesBytes {k : List Byte} (hk : k.length = 16) (b : List Byte) : (aesBytes k b).length = 16 := by
  unfold aesBytes
  simp only [addRoundKey, xorBytes, List.length_zipWith, length_roundKey hk (Nat.le_refl 10)]
  simp [shiftRows]

/-! ## The 128-bit reading (00_scope R10) -/

theorem fromLE_append (x y : List Byte) : fromLE (x ++ y) = fromLE x + 256 ^ x.length * fromLE y := by
  induction x with
  | nil => simp [fromLE]
  | cons a x ih => simp [fromLE, ih, Nat.pow_succ]; ring

/-- Reading a string from its first byte on is reading its reverse from its last byte down. -/
theorem foldl_bigEndian (bs : List Byte) (n : Nat) :
    bs.foldl (fun n x => 256 * n + x.toNat) n = 256 ^ bs.length * n + fromLE bs.reverse := by
  induction bs generalizing n with
  | nil => simp [fromLE]
  | cons b bs ih =>
    simp only [List.foldl_cons, ih, List.reverse_cons, fromLE_append, fromLE, List.length_cons, List.length_reverse]
    ring

@[simp] theorem blockBytes_int128 (b : Block) : blockBytes (int128 b) = (blockBytes b).reverse :=
  blockBytes_blockOf (by simp)

@[simp] theorem int128_int128 (b : Block) : int128 (int128 b) = b := by
  rw [int128, blockBytes_int128, List.reverse_reverse, blockOf_blockBytes]

theorem toNat_int128 (b : Block) : (int128 b).toNat = (blockBytes b).foldl (fun n x => 256 * n + x.toNat) 0 := by
  have := fromLE_lt (blockBytes b).reverse
  simp only [List.length_reverse, length_blockBytes] at this
  rw [foldl_bigEndian, int128, blockOf, BitVec.toNat_ofNat, Nat.mod_eq_of_lt (by simpa using this)]
  simp

/-- The top bit of the 128-bit reading is bit 7 of byte 0. -/
theorem msb_int128 (b : Block) : (int128 b).msb = (blockByte b 0).getLsbD 7 := by
  have h : (blockBytes (int128 b))[15]'(by simp) = blockByte b 0 := by simp [getElem_blockBytes]
  rw [getElem_blockBytes] at h
  rw [← h, blockByte]
  simp [BitVec.msb_eq_getLsbD_last]

/-- `dbl` as a number (40_crypto R150). -/
theorem toNat_int128_dbl (x : Block) : (int128 (dbl x)).toNat =
    (2 * (int128 x).toNat) % 2 ^ 128 ^^^ (if (blockByte x 0).getLsbD 7 then 0x87 else 0) := by
  unfold dbl
  rw [int128_int128, msb_int128]
  simp only [BitVec.toNat_xor, BitVec.toNat_shiftLeft, Nat.shiftLeft_eq]
  rw [Nat.mul_comm, Nat.pow_one]
  split <;> rfl

/-! ## CTRX, byte by byte (40_crypto R153) -/

theorem byteOf_ctrxFrom (k t : Block) (j : Nat) (m : List Byte) (i : Nat) (h : i < m.length) :
    byteOf (ctrxFrom k t j m) i = byteOf m i ^^^ keystream k t (j + i) := by
  induction m generalizing j i with
  | nil => simp at h
  | cons b bs ih =>
    cases i with
    | zero => simp [ctrxFrom, byteOf]
    | succ i =>
      have := ih (j + 1) i (by simpa using h)
      simp only [ctrxFrom, byteOf, List.getD_cons_succ] at this ⊢
      rw [this]
      congr 2
      omega

theorem byteOf_ctrx (k t : Block) (m : List Byte) (i : Nat) (h : i < m.length) :
    byteOf (ctrx k t m) i = byteOf m i ^^^ keystream k t i := by
  rw [ctrx, byteOf_ctrxFrom k t 0 m i h, Nat.zero_add]

end Sys2Proof.Machine
end

