-- ==== Sys2Proof/Laws/Memory.lean ====
section
/-! SUPPORT. The buffer memory: a read after a write to the same byte gives it, a write leaves every other byte alone,
and every memory operation keeps the canonical form. -/

namespace Sys2Proof.Machine

/-! ## One byte -/

@[simp] theorem Memory.lookup_write_same (m : Memory) (a : Nat) (b : Byte) :
    Memory.lookup (Memory.write m a b) a = some b := by
  induction m with
  | nil => simp [Memory.write, Memory.lookup]
  | cons c m ih =>
    obtain ⟨k, x⟩ := c
    simp only [Memory.write]
    split
    · simp [Memory.lookup]
    · split
      · rename_i h; simp [Memory.lookup, h]
      · rename_i h; simp [Memory.lookup, h, ih]

theorem Memory.lookup_write_other (m : Memory) {a a' : Nat} (b : Byte) (h : a' ≠ a) :
    Memory.lookup (Memory.write m a b) a' = Memory.lookup m a' := by
  induction m with
  | nil => simp [Memory.write, Memory.lookup, h]
  | cons c m ih =>
    obtain ⟨k, x⟩ := c
    simp only [Memory.write]
    split
    · simp [Memory.lookup, h]
    · split
      · rename_i hk; subst hk; simp [Memory.lookup, h]
      · simp [Memory.lookup, ih]

theorem Memory.mem_write (m : Memory) (a : Nat) (b : Byte) {c : Host.Cell} (h : c ∈ Memory.write m a b) :
    c = (a, b) ∨ c ∈ m := by
  induction m with
  | nil => simpa [Memory.write] using h
  | cons d m ih =>
    obtain ⟨k, x⟩ := d
    simp only [Memory.write] at h
    split at h
    · simpa using h
    · split at h
      · rename_i hk; subst hk
        rcases List.mem_cons.mp h with h | h
        · exact .inl h
        · exact .inr (List.mem_cons_of_mem _ h)
      · rcases List.mem_cons.mp h with h | h
        · exact .inr (h ▸ List.mem_cons_self)
        · rcases ih h with h | h
          · exact .inl h
          · exact .inr (List.mem_cons_of_mem _ h)

theorem Memory.wf_cons (k : Nat) (x : Byte) (m : Memory) :
    Memory.wf ((k, x) :: m) = true ↔ (∀ c ∈ m, k < c.1) ∧ Memory.wf m = true := by
  simp [Memory.wf]

/-- A write keeps the canonical form. -/
theorem Memory.wf_write (m : Memory) (a : Nat) (b : Byte) (h : Memory.wf m = true) :
    Memory.wf (Memory.write m a b) = true := by
  induction m with
  | nil => rfl
  | cons c m ih =>
    obtain ⟨k, x⟩ := c
    obtain ⟨hk, hm⟩ := (Memory.wf_cons k x m).mp h
    simp only [Memory.write]
    split
    · rename_i hlt
      refine (Memory.wf_cons _ _ _).mpr ⟨fun c hc => ?_, h⟩
      rcases List.mem_cons.mp hc with rfl | hc
      · exact hlt
      · exact Nat.lt_trans hlt (hk c hc)
    · split
      · exact (Memory.wf_cons _ _ _).mpr ⟨hk, hm⟩
      · rename_i h1 h2
        refine (Memory.wf_cons _ _ _).mpr ⟨fun c hc => ?_, ih hm⟩
        rcases Memory.mem_write m a b hc with rfl | hc
        · simp only; omega
        · exact hk c hc

/-- A write inside the buffers keeps the memory inside the buffers. -/
theorem Memory.inBuffers_write (m : Memory) (a : Nat) (b : Byte) (h : Memory.inBuffers m = true)
    (ha : 0x400 ≤ a ∧ a < 0x600) : Memory.inBuffers (Memory.write m a b) = true := by
  simp only [Memory.inBuffers, List.all_eq_true, decide_eq_true_eq] at h ⊢
  intro c hc
  rcases Memory.mem_write m a b hc with rfl | hc
  · exact ha
  · exact h c hc

/-! ## A byte string -/

theorem Memory.wf_writeList (bs : List Byte) (m : Memory) (a : Nat) (h : Memory.wf m = true) :
    Memory.wf (Memory.writeList m a bs) = true := by
  induction bs generalizing m a with
  | nil => exact h
  | cons b bs ih => exact ih _ _ (Memory.wf_write m a b h)

theorem Memory.inBuffers_writeList (bs : List Byte) (m : Memory) (a : Nat) (h : Memory.inBuffers m = true)
    (ha : 0x400 ≤ a) (hb : a + bs.length ≤ 0x600) : Memory.inBuffers (Memory.writeList m a bs) = true := by
  induction bs generalizing m a with
  | nil => exact h
  | cons b bs ih =>
    simp only [List.length_cons] at hb
    exact ih _ _ (Memory.inBuffers_write m a b h ⟨ha, by omega⟩) (by omega) (by omega)

theorem Memory.lookup_writeList_outside (bs : List Byte) (m : Memory) (a a' : Nat)
    (h : a' < a ∨ a + bs.length ≤ a') : Memory.lookup (Memory.writeList m a bs) a' = Memory.lookup m a' := by
  induction bs generalizing m a with
  | nil => rfl
  | cons b bs ih =>
    simp only [List.length_cons] at h
    rw [Memory.writeList, ih _ _ (by omega), Memory.lookup_write_other m b (by omega)]

theorem Memory.lookup_writeList_inside (bs : List Byte) (m : Memory) (a i : Nat) (h : i < bs.length) :
    Memory.lookup (Memory.writeList m a bs) (a + i) = some bs[i] := by
  induction bs generalizing m a i with
  | nil => simp at h
  | cons b bs ih =>
    cases i with
    | zero =>
      rw [Memory.writeList, Nat.add_zero, Memory.lookup_writeList_outside bs _ _ _ (by omega)]
      simp
    | succ i =>
      rw [Memory.writeList, show a + (i + 1) = (a + 1) + i by omega, ih _ _ i (by simpa using h)]
      simp

/-! ## Bytes and slices of the operands -/

variable (o : Operands)

@[simp] theorem Operands.store_mem (a : Nat) (bs : List Byte) : (o.store a bs).mem = Memory.writeList o.mem a bs := rfl
@[simp] theorem Operands.store_bufEpoch (a : Nat) (bs : List Byte) : (o.store a bs).bufEpoch = o.bufEpoch := rfl

/-- A store leaves every byte outside it alone. -/
theorem Operands.byteAt_store_outside (a a' : Nat) (bs : List Byte) (h : a' < a ∨ a + bs.length ≤ a') :
    (o.store a bs).byteAt a' = o.byteAt a' := by
  simp [Operands.byteAt, Memory.lookup_writeList_outside bs o.mem a a' h]

/-- A read after a store gives what was stored. -/
theorem Operands.byteAt_store_inside (a i : Nat) (bs : List Byte) (h : i < bs.length) :
    (o.store a bs).byteAt (a + i) = bs[i] := by
  simp [Operands.byteAt, Memory.lookup_writeList_inside bs o.mem a i h]

@[simp] theorem Operands.length_load (a n : Nat) : (o.load a n).length = n := by simp [Operands.load]
@[simp] theorem Operands.length_pbuf (n : Nat) : (o.pbuf n).length = n := by simp [Operands.pbuf]
@[simp] theorem Operands.length_fbuf (n : Nat) : (o.fbuf n).length = n := by simp [Operands.fbuf]

/-- A load of exactly what was stored gives it. -/
theorem Operands.load_store_same (a : Nat) (bs : List Byte) : (o.store a bs).load a bs.length = bs := by
  apply List.ext_getElem (by simp)
  intro i h1 h2
  simp only [Operands.load, List.getElem_map, List.getElem_range]
  exact o.byteAt_store_inside a i bs h2

/-- A load outside a store is not changed by it. -/
theorem Operands.load_store_outside (a a' n : Nat) (bs : List Byte) (h : a' + n ≤ a ∨ a + bs.length ≤ a') :
    (o.store a bs).load a' n = o.load a' n := by
  simp only [Operands.load]
  refine List.map_congr_left fun i hi => o.byteAt_store_outside a (a' + i) bs ?_
  have := List.mem_range.mp hi
  omega

theorem Operands.fbuf_storeFbuf (bs : List Byte) : (o.storeFbuf bs).fbuf bs.length = bs :=
  o.load_store_same _ bs

theorem Operands.pbuf_storePbuf (bs : List Byte) : (o.storePbuf bs).pbuf bs.length = bs :=
  o.load_store_same _ bs

/-- A store of at most 256 bytes into PBUF does not reach FBUF. -/
theorem Operands.fbuf_storePbuf (bs : List Byte) (n : Nat) (h : bs.length ≤ 256) :
    (o.storePbuf bs).fbuf n = o.fbuf n :=
  o.load_store_outside _ _ n bs (.inr (by simp [Config.pbufBase, Config.fbufBase]; omega))

/-- A store into FBUF does not reach the first 256 bytes from PBUF's base. -/
theorem Operands.pbuf_storeFbuf (bs : List Byte) (n : Nat) (h : n ≤ 256) : (o.storeFbuf bs).pbuf n = o.pbuf n :=
  o.load_store_outside _ _ n bs (.inl (by simp [Config.pbufBase, Config.fbufBase]; omega))

/-! ## Storing touches nothing but the memory -/

@[simp] theorem Operands.store_key (a : Nat) (bs : List Byte) (ks : KeySlot) : (o.store a bs).key ks = o.key ks := rfl
@[simp] theorem Operands.store_joined (a : Nat) (bs : List Byte) : (o.store a bs).joined = o.joined := rfl

theorem Operands.store_inv (a : Nat) (bs : List Byte) (h : o.Inv) (ha : 0x400 ≤ a) (hb : a + bs.length ≤ 0x600) :
    (o.store a bs).Inv :=
  ⟨Memory.wf_writeList bs _ a h.1, Memory.inBuffers_writeList bs _ a h.2.1 ha hb, h.2.2⟩

/-- Setting a key slot keeps the invariant. -/
theorem Operands.setKey_inv (ks : KeySlot) (v : Block) (h : o.Inv) : (o.setKey ks v).Inv := by
  unfold Operands.setKey
  split
  · exact h
  · split
    · exact h
    · split <;> exact h

/-- Byte i of a buffer read. -/
theorem Operands.byteOf_load (o : Operands) (a n i : Nat) (h : i < n) : byteOf (o.load a n) i = o.byteAt (a + i) := by
  simp [byteOf, Operands.load, h]

end Sys2Proof.Machine
end

