-- ==== Sys2Proof/Laws/State.lean ====
section
/-! SUPPORT. One lemma for each field of State and each update, all by rfl, so that no proof unfolds a record update. -/

namespace Sys2Proof.Machine

variable (s : State)

/-! ## raiseIrq -/

@[simp] theorem State.raiseIrq_running (b : BitVec 5) : (s.raiseIrq b).running = s.running := rfl
@[simp] theorem State.raiseIrq_errCode (b : BitVec 5) : (s.raiseIrq b).errCode = s.errCode := rfl
@[simp] theorem State.raiseIrq_irqStatus (b : BitVec 5) : (s.raiseIrq b).irqStatus = s.irqStatus ||| b := rfl
@[simp] theorem State.raiseIrq_irqEnable (b : BitVec 5) : (s.raiseIrq b).irqEnable = s.irqEnable := rfl
@[simp] theorem State.raiseIrq_cmd (b : BitVec 5) : (s.raiseIrq b).cmd = s.cmd := rfl
@[simp] theorem State.raiseIrq_op (b : BitVec 5) : (s.raiseIrq b).op = s.op := rfl
@[simp] theorem State.raiseIrq_res (b : BitVec 5) : (s.raiseIrq b).res = s.res := rfl
@[simp] theorem State.raiseIrq_sched (b : BitVec 5) : (s.raiseIrq b).sched = s.sched := rfl
@[simp] theorem State.raiseIrq_inputs (b : BitVec 5) : (s.raiseIrq b).inputs = s.inputs := rfl
@[simp] theorem State.raiseIrq_resp (b : BitVec 5) : (s.raiseIrq b).resp = s.resp := rfl
@[simp] theorem State.raiseIrq_draws (b : BitVec 5) : (s.raiseIrq b).draws = s.draws := rfl

/-! ## clearIrq -/

@[simp] theorem State.clearIrq_running (b : BitVec 5) : (s.clearIrq b).running = s.running := rfl
@[simp] theorem State.clearIrq_errCode (b : BitVec 5) : (s.clearIrq b).errCode = s.errCode := rfl
@[simp] theorem State.clearIrq_irqStatus (b : BitVec 5) : (s.clearIrq b).irqStatus = s.irqStatus &&& ~~~b := rfl
@[simp] theorem State.clearIrq_irqEnable (b : BitVec 5) : (s.clearIrq b).irqEnable = s.irqEnable := rfl
@[simp] theorem State.clearIrq_cmd (b : BitVec 5) : (s.clearIrq b).cmd = s.cmd := rfl
@[simp] theorem State.clearIrq_op (b : BitVec 5) : (s.clearIrq b).op = s.op := rfl
@[simp] theorem State.clearIrq_res (b : BitVec 5) : (s.clearIrq b).res = s.res := rfl
@[simp] theorem State.clearIrq_sched (b : BitVec 5) : (s.clearIrq b).sched = s.sched := rfl
@[simp] theorem State.clearIrq_inputs (b : BitVec 5) : (s.clearIrq b).inputs = s.inputs := rfl
@[simp] theorem State.clearIrq_resp (b : BitVec 5) : (s.clearIrq b).resp = s.resp := rfl
@[simp] theorem State.clearIrq_draws (b : BitVec 5) : (s.clearIrq b).draws = s.draws := rfl

/-! ## emit -/

@[simp] theorem State.emit_running (a : RadioAction) : (s.emit a).running = s.running := rfl
@[simp] theorem State.emit_errCode (a : RadioAction) : (s.emit a).errCode = s.errCode := rfl
@[simp] theorem State.emit_irqStatus (a : RadioAction) : (s.emit a).irqStatus = s.irqStatus ||| Irq.radioReq := rfl
@[simp] theorem State.emit_irqEnable (a : RadioAction) : (s.emit a).irqEnable = s.irqEnable := rfl
@[simp] theorem State.emit_cmd (a : RadioAction) : (s.emit a).cmd = s.cmd := rfl
@[simp] theorem State.emit_op (a : RadioAction) : (s.emit a).op = s.op := rfl
@[simp] theorem State.emit_res (a : RadioAction) : (s.emit a).res = s.res := rfl
@[simp] theorem State.emit_sched (a : RadioAction) : (s.emit a).sched = { s.sched with radioAction := a } := rfl
@[simp] theorem State.emit_inputs (a : RadioAction) : (s.emit a).inputs = s.inputs := rfl
@[simp] theorem State.emit_resp (a : RadioAction) : (s.emit a).resp = s.resp := rfl
@[simp] theorem State.emit_draws (a : RadioAction) : (s.emit a).draws = s.draws := rfl

/-! ## goto -/

@[simp] theorem State.goto_running (q : SchedState) : (s.goto q).running = s.running := rfl
@[simp] theorem State.goto_errCode (q : SchedState) : (s.goto q).errCode = s.errCode := rfl
@[simp] theorem State.goto_irqStatus (q : SchedState) : (s.goto q).irqStatus = s.irqStatus := rfl
@[simp] theorem State.goto_irqEnable (q : SchedState) : (s.goto q).irqEnable = s.irqEnable := rfl
@[simp] theorem State.goto_cmd (q : SchedState) : (s.goto q).cmd = s.cmd := rfl
@[simp] theorem State.goto_op (q : SchedState) : (s.goto q).op = s.op := rfl
@[simp] theorem State.goto_res (q : SchedState) : (s.goto q).res = s.res := rfl
@[simp] theorem State.goto_sched (q : SchedState) : (s.goto q).sched = { s.sched with schedState := q } := rfl
@[simp] theorem State.goto_inputs (q : SchedState) : (s.goto q).inputs = s.inputs := rfl
@[simp] theorem State.goto_resp (q : SchedState) : (s.goto q).resp = s.resp := rfl
@[simp] theorem State.goto_draws (q : SchedState) : (s.goto q).draws = s.draws := rfl

/-! ## stampWindow -/

@[simp] theorem State.stampWindow_running : (s.stampWindow).running = s.running := rfl
@[simp] theorem State.stampWindow_errCode : (s.stampWindow).errCode = s.errCode := rfl
@[simp] theorem State.stampWindow_irqStatus : (s.stampWindow).irqStatus = s.irqStatus := rfl
@[simp] theorem State.stampWindow_irqEnable : (s.stampWindow).irqEnable = s.irqEnable := rfl
@[simp] theorem State.stampWindow_cmd : (s.stampWindow).cmd = s.cmd := rfl
@[simp] theorem State.stampWindow_op : (s.stampWindow).op = s.op := rfl
@[simp] theorem State.stampWindow_res : (s.stampWindow).res = s.res := rfl
@[simp] theorem State.stampWindow_sched : (s.stampWindow).sched = { s.sched with winOpenTs := s.sched.time } := rfl
@[simp] theorem State.stampWindow_inputs : (s.stampWindow).inputs = s.inputs := rfl
@[simp] theorem State.stampWindow_resp : (s.stampWindow).resp = s.resp := rfl
@[simp] theorem State.stampWindow_draws : (s.stampWindow).draws = s.draws := rfl

/-! ## accept -/

@[simp] theorem State.accept_running (v : Word) : (s.accept v).running = some { cur := v, snap := s.op, left := Config.cmdLatency (v.extractLsb' 0 8) (v.extractLsb' 16 9) s.draws } := rfl
@[simp] theorem State.accept_errCode (v : Word) : (s.accept v).errCode = s.errCode := rfl
@[simp] theorem State.accept_irqStatus (v : Word) : (s.accept v).irqStatus = s.irqStatus := rfl
@[simp] theorem State.accept_irqEnable (v : Word) : (s.accept v).irqEnable = s.irqEnable := rfl
@[simp] theorem State.accept_cmd (v : Word) : (s.accept v).cmd = v := rfl
@[simp] theorem State.accept_op (v : Word) : (s.accept v).op = s.op := rfl
@[simp] theorem State.accept_res (v : Word) : (s.accept v).res = s.res := rfl
@[simp] theorem State.accept_sched (v : Word) : (s.accept v).sched = s.sched := rfl
@[simp] theorem State.accept_inputs (v : Word) : (s.accept v).inputs = s.inputs := rfl
@[simp] theorem State.accept_resp (v : Word) : (s.accept v).resp = s.resp := rfl
@[simp] theorem State.accept_draws (v : Word) : (s.accept v).draws = s.draws + 1 := rfl

/-! ## failWith -/

@[simp] theorem State.failWith_running (e : ErrCode) : (s.failWith e).running = none := rfl
@[simp] theorem State.failWith_errCode (e : ErrCode) : (s.failWith e).errCode = e := rfl
@[simp] theorem State.failWith_irqStatus (e : ErrCode) : (s.failWith e).irqStatus = s.irqStatus ||| Irq.cmdDone ||| Irq.cmdErr := rfl
@[simp] theorem State.failWith_irqEnable (e : ErrCode) : (s.failWith e).irqEnable = s.irqEnable := rfl
@[simp] theorem State.failWith_cmd (e : ErrCode) : (s.failWith e).cmd = s.cmd := rfl
@[simp] theorem State.failWith_op (e : ErrCode) : (s.failWith e).op = s.op := rfl
@[simp] theorem State.failWith_res (e : ErrCode) : (s.failWith e).res = s.res := rfl
@[simp] theorem State.failWith_sched (e : ErrCode) : (s.failWith e).sched = s.sched := rfl
@[simp] theorem State.failWith_inputs (e : ErrCode) : (s.failWith e).inputs = s.inputs := rfl
@[simp] theorem State.failWith_resp (e : ErrCode) : (s.failWith e).resp = s.resp := rfl
@[simp] theorem State.failWith_draws (e : ErrCode) : (s.failWith e).draws = s.draws := rfl

/-! ## commit -/

@[simp] theorem State.commit_running (o : Operands) (r : Results) : (s.commit o r).running = none := rfl
@[simp] theorem State.commit_errCode (o : Operands) (r : Results) : (s.commit o r).errCode = .ok := rfl
@[simp] theorem State.commit_irqStatus (o : Operands) (r : Results) : (s.commit o r).irqStatus = s.irqStatus ||| Irq.cmdDone := rfl
@[simp] theorem State.commit_irqEnable (o : Operands) (r : Results) : (s.commit o r).irqEnable = s.irqEnable := rfl
@[simp] theorem State.commit_cmd (o : Operands) (r : Results) : (s.commit o r).cmd = s.cmd := rfl
@[simp] theorem State.commit_op (o : Operands) (r : Results) : (s.commit o r).op = o := rfl
@[simp] theorem State.commit_res (o : Operands) (r : Results) : (s.commit o r).res = r := rfl
@[simp] theorem State.commit_sched (o : Operands) (r : Results) : (s.commit o r).sched = s.sched := rfl
@[simp] theorem State.commit_inputs (o : Operands) (r : Results) : (s.commit o r).inputs = s.inputs := rfl
@[simp] theorem State.commit_resp (o : Operands) (r : Results) : (s.commit o r).resp = s.resp := rfl
@[simp] theorem State.commit_draws (o : Operands) (r : Results) : (s.commit o r).draws = s.draws := rfl

/-! ## hardReset -/

@[simp] theorem State.hardReset_running : (s.hardReset).running = none := rfl
@[simp] theorem State.hardReset_errCode : (s.hardReset).errCode = .ok := rfl
@[simp] theorem State.hardReset_irqStatus : (s.hardReset).irqStatus = 0 := rfl
@[simp] theorem State.hardReset_irqEnable : (s.hardReset).irqEnable = 0 := rfl
@[simp] theorem State.hardReset_cmd : (s.hardReset).cmd = 0 := rfl
@[simp] theorem State.hardReset_op : (s.hardReset).op = { Operands.reset with bufEpoch := s.draws } := rfl
@[simp] theorem State.hardReset_res : (s.hardReset).res = Results.reset := rfl
@[simp] theorem State.hardReset_sched : (s.hardReset).sched = Sched.reset := rfl
@[simp] theorem State.hardReset_inputs : (s.hardReset).inputs = s.inputs := rfl
@[simp] theorem State.hardReset_resp : (s.hardReset).resp = none := rfl
@[simp] theorem State.hardReset_draws : (s.hardReset).draws = s.draws + 1 := rfl

/-! ## softReset -/

@[simp] theorem State.softReset_running : (s.softReset).running = none := rfl
@[simp] theorem State.softReset_errCode : (s.softReset).errCode = .ok := rfl
@[simp] theorem State.softReset_irqStatus : (s.softReset).irqStatus = 0 := rfl
@[simp] theorem State.softReset_irqEnable : (s.softReset).irqEnable = 0 := rfl
@[simp] theorem State.softReset_cmd : (s.softReset).cmd = 0 := rfl
@[simp] theorem State.softReset_op : (s.softReset).op = { Operands.reset with
      mem := if s.busy then [] else s.op.mem
      bufEpoch := if s.busy then s.draws else s.op.bufEpoch } := rfl
@[simp] theorem State.softReset_res : (s.softReset).res = Results.reset := rfl
@[simp] theorem State.softReset_sched : (s.softReset).sched = { Sched.reset with time := s.sched.time, timeHiLatch := s.sched.timeHiLatch } := rfl
@[simp] theorem State.softReset_inputs : (s.softReset).inputs = s.inputs := rfl
@[simp] theorem State.softReset_resp : (s.softReset).resp = s.resp := rfl
@[simp] theorem State.softReset_draws : (s.softReset).draws = if s.busy then s.draws + 1 else s.draws := rfl

end Sys2Proof.Machine
end

