-- ==== Sys2Proof/Laws/Ops.lean ====
section
/-! SUPPORT. What the shared operations can do: the completion of a command, the checks, the primitives' lengths. -/

namespace Sys2Proof.Machine

/-! ## Completion (30_encoding R116) -/

@[simp] theorem State.complete_ok (s : State) (o : Operands) (r : Results) : s.complete (.ok (o, r)) = s.commit o r := rfl
@[simp] theorem State.complete_error (s : State) (e : ErrCode) : s.complete (.error e) = s.failWith e := rfl

/-- A completion either commits or fails. -/
theorem State.complete_cases (s : State) (x : CmdResult) :
    (∃ o r, x = .ok (o, r) ∧ s.complete x = s.commit o r) ∨ (∃ e, x = .error e ∧ s.complete x = s.failWith e) := by
  cases x with
  | ok p => exact .inl ⟨p.1, p.2, rfl, rfl⟩
  | error e => exact .inr ⟨e, rfl, rfl⟩

@[simp] theorem State.complete_sched (s : State) (x : CmdResult) : (s.complete x).sched = s.sched := by
  cases x <;> rfl
@[simp] theorem State.complete_irqEnable (s : State) (x : CmdResult) : (s.complete x).irqEnable = s.irqEnable := by
  cases x <;> rfl
@[simp] theorem State.complete_cmd (s : State) (x : CmdResult) : (s.complete x).cmd = s.cmd := by cases x <;> rfl
@[simp] theorem State.complete_inputs (s : State) (x : CmdResult) : (s.complete x).inputs = s.inputs := by
  cases x <;> rfl
@[simp] theorem State.complete_resp (s : State) (x : CmdResult) : (s.complete x).resp = s.resp := by cases x <;> rfl
@[simp] theorem State.complete_draws (s : State) (x : CmdResult) : (s.complete x).draws = s.draws := by cases x <;> rfl
@[simp] theorem State.complete_running (s : State) (x : CmdResult) : (s.complete x).running = none := by
  cases x <;> rfl

/-- With no accepted command, or a snapshot equal to the live operands, a command reads the live operands. -/
theorem State.snapshot_of_idle (s : State) (h : s.running = none) : s.snapshot = s.op := by
  simp [State.snapshot, h]

theorem State.busy_iff (s : State) : s.busy = true ↔ ∃ r, s.running = some r := by
  simp [State.busy, Option.isSome_iff_exists]

/-! ## Checks -/

theorem checkLen_long {len : Len} (h : len.toNat > 256) (k : CmdResult) : checkLen len k = .error .lenRange :=
  if_pos h

theorem checkLen_legal {len : Len} (h : len.toNat ≤ 256) (k : CmdResult) : checkLen len k = k :=
  if_neg (Nat.not_lt.mpr h)

theorem checkLen_ok {len : Len} {k : CmdResult} {p : Operands × Results} (h : checkLen len k = .ok p) :
    len.toNat ≤ 256 ∧ k = .ok p := by
  unfold checkLen at h
  split at h
  · cases h
  · exact ⟨by omega, h⟩

/-! ## Lengths -/

@[simp] theorem length_mic4 (k : Block) (m : List Byte) : (mic4 k m).length = 4 := by simp [mic4]

@[simp] theorem length_ctrxFrom (k t : Block) (i : Nat) (m : List Byte) : (ctrxFrom k t i m).length = m.length := by
  induction m generalizing i with
  | nil => rfl
  | cons b bs ih => simp [ctrxFrom, ih]

@[simp] theorem length_ctrx (k t : Block) (m : List Byte) : (ctrx k t m).length = m.length := length_ctrxFrom k t 0 m

@[simp] theorem length_jreqBody (n : Operands) : (jreqBody n).length = 19 := by simp [jreqBody]

@[simp] theorem length_blockB0 (dir : Bool) (addr fcnt : Word) (l : Nat) : (blockB0 dir addr fcnt l).length = 16 := by
  simp [blockB0]

@[simp] theorem length_dataMic (n : Operands) (dir : Bool) (addr fcnt : Word) (m : List Byte) :
    (dataMic n dir addr fcnt m).length = 4 := by simp [dataMic]

@[simp] theorem length_cryptPayload (n : Operands) (port : Byte) (dir : Bool) (addr fcnt : Word) (p : List Byte) :
    (cryptPayload n port dir addr fcnt p).length = p.length := by simp [cryptPayload]

theorem length_jaccPlain (k0 : Block) (c : List Byte) (h : c.length = 17 ∨ c.length = 33) :
    (jaccPlain k0 c).length = c.length := by
  rcases h with h | h <;> simp [jaccPlain, h]

theorem length_dataHeader (n : Operands) : (dataHeader n).length = 8 + (txFoptsLen n.txHdr).toNat := by
  have := (txFoptsLen n.txHdr).isLt
  simp [dataHeader]
  omega

theorem length_dataBody (n : Operands) (len : Nat) : (dataBody n len).length = if len > 0 then 1 + len else 0 := by
  unfold dataBody
  split
  · simp; omega
  · rfl

/-- The frame without its MIC has the length of R186, less 4. -/
theorem length_dataMsg (n : Operands) (len : Nat) :
    (dataMsg n len).length + 4 = dataFrameLen (txFoptsLen n.txHdr).toNat len := by
  simp only [dataMsg, List.length_append, length_dataHeader, length_dataBody, dataFrameLen]
  omega

/-! ## The scheduler's step -/

/-- Everything SchedStep can do: nothing, or one of the timed transitions (42_scheduler R241). -/
theorem State.schedStep_cases (s : State) :
    s.schedStep = s ∨
    (s.sched.schedState = .wait1 ∧ s.sched.elapsed ≥ s.sched.delay1 ∧
      s.schedStep = { s with
        sched := { s.sched with
          schedState := .window1, winOpenTs := s.sched.time, rx1Dr := rx1Dr s.sched.rx1Cfg, radioAction := .openRx1 }
        irqStatus := s.irqStatus ||| Irq.radioReq }) ∨
    (((s.sched.schedState = .window1 ∧ s.sched.windowElapsed ≥ s.sched.window) ∨ s.sched.schedState = .wait2) ∧
      s.sched.elapsed ≥ s.sched.delay2 ∧
      s.schedStep = { s with
        sched := { s.sched with schedState := .window2, winOpenTs := s.sched.time, radioAction := .openRx2 }
        irqStatus := s.irqStatus ||| Irq.radioReq }) ∨
    (s.sched.schedState = .window1 ∧ s.sched.windowElapsed ≥ s.sched.window ∧ ¬s.sched.elapsed ≥ s.sched.delay2 ∧
      s.schedStep = { s with
        sched := { s.sched with
          schedState := .wait2, radioAction := if s.sched.cls = .c then .contRx2 else .close }
        irqStatus := s.irqStatus ||| Irq.radioReq }) ∨
    (s.sched.schedState = .window2 ∧ s.sched.windowElapsed ≥ s.sched.window ∧
      s.schedStep = { s with
        sched := { s.sched with
          schedState := if s.sched.cls = .c then .continuous else .idle
          radioAction := if s.sched.cls = .c then .contRx2 else .close }
        irqStatus := s.irqStatus ||| Irq.radioReq }) := by
  cases hq : s.sched.schedState with
  | idle => exact .inl (by simp [State.schedStep, hq])
  | continuous => exact .inl (by simp [State.schedStep, hq])
  | wait1 =>
    by_cases h : s.sched.elapsed ≥ s.sched.delay1
    · exact .inr (.inl ⟨rfl, h, by simp [State.schedStep, hq, h, State.goto, State.stampWindow, State.emit]⟩)
    · exact .inl (by simp [State.schedStep, hq, h])
  | wait2 =>
    by_cases h : s.sched.elapsed ≥ s.sched.delay2
    · exact .inr (.inr (.inl ⟨.inr rfl, h, by simp [State.schedStep, hq, h, State.goto, State.stampWindow, State.emit]⟩))
    · exact .inl (by simp [State.schedStep, hq, h])
  | window1 =>
    by_cases hw : s.sched.windowElapsed ≥ s.sched.window
    · by_cases h : s.sched.elapsed ≥ s.sched.delay2
      · exact .inr (.inr (.inl ⟨.inl ⟨rfl, hw⟩, h,
          by simp [State.schedStep, hq, hw, h, State.goto, State.stampWindow, State.emit]⟩))
      · exact .inr (.inr (.inr (.inl ⟨rfl, hw, h, by simp [State.schedStep, hq, hw, h, State.goto, State.emit]⟩)))
    · exact .inl (by simp [State.schedStep, hq, hw])
  | window2 =>
    by_cases hw : s.sched.windowElapsed ≥ s.sched.window
    · refine .inr (.inr (.inr (.inr ⟨rfl, hw, ?_⟩)))
      by_cases hc : s.sched.cls = .c <;> simp [State.schedStep, hq, hw, hc, State.goto, State.emit]
    · exact .inl (by simp [State.schedStep, hq, hw])

end Sys2Proof.Machine
end

