-- ==== Sys2Proof/Laws/PerInstr.lean ====
section
/-! SUPPORT. A law about every instruction as syntax: the signal that encodes it lies in its row of spec/opcode_table.json. -/

namespace Sys2Proof.Laws.TableRow

/-- The instruction is encoded as a write at `off` of a word whose bits under `mask` are `match_`. -/
def InRow (off : Offset) (match_ mask : Word) (i : Instr) : Prop := ∃ w, encode i = .busWrite off w ∧ w &&& mask = match_

/-- The row of each instruction: its port, its match and its mask; a row without match and mask has its port and the
bits its "encoding" names; TICK is no bus word (30_encoding R123). -/
def Statement (i : Instr) : Prop :=
  match i with
  | .ecb _ => InRow 0x014 0x00000001 0xFFFFFCFF i
  | .cmac _ _ => InRow 0x014 0x00000002 0xFE00FCFF i
  | .ctr _ _ => InRow 0x014 0x00000003 0xFE00FCFF i
  | .derive => InRow 0x014 0x00000004 0xFFFFFFFF i
  | .sessRst => InRow 0x014 0x00000005 0xFFFFFFFF i
  | .jreqEnc => InRow 0x014 0x00000010 0xFFFFFFFF i
  | .jaccDec _ => InRow 0x014 0x00000011 0xFE00FFFF i
  | .dataEnc _ => InRow 0x014 0x00000012 0xFE00FFFF i
  | .dataDec _ => InRow 0x014 0x00000013 0xFE00FFFF i
  | .evTxDone => InRow 0x21C 0b001 0b011 i
  | .evRxOk => InRow 0x21C 0b010 0b111 i
  | .evRxCrcErr => InRow 0x21C 0b110 0b111 i
  | .evBoth => InRow 0x21C 0b011 0b011 i
  | .evNone => InRow 0x21C 0b000 0b011 i
  | .setClass cls => InRow 0x200 (if cls = .c then 1 else 0) 0b1 i
  | .srst => InRow 0x004 0b1 0b1 i
  | .irqAck mask => InRow 0x00C (mask.setWidth 32) 0x0000001F i
  | .tick => encode i = .msTick

/-- Under the mask of the forms with a slot and a length only the opcode is left. -/
theorem cmdWord_mask (opc : Byte) (ks : KeySlot) (len : Len) :
    cmdWord opc ks len &&& 0xFE00FCFF = opc.setWidth 32 := by
  ext i hi
  interval_cases i <;> simp [cmdWord]

/-- Under the mask of the forms with a length, too, when the slot is 0. -/
theorem cmdWord_mask_len (opc : Byte) (len : Len) : cmdWord opc 0 len &&& 0xFE00FFFF = opc.setWidth 32 := by
  ext i hi
  interval_cases i <;> simp [cmdWord]

/-- And under ECB's mask, when the length is 0. -/
theorem cmdWord_mask_ks (opc : Byte) (ks : KeySlot) : cmdWord opc ks 0 &&& 0xFFFFFCFF = opc.setWidth 32 := by
  ext i hi
  interval_cases i <;> simp [cmdWord]

theorem ecb (ks : KeySlot) : Statement (.ecb ks) := ⟨_, rfl, cmdWord_mask_ks 0x01 ks⟩
theorem cmac (ks : KeySlot) (len : Len) : Statement (.cmac ks len) := ⟨_, rfl, cmdWord_mask 0x02 ks len⟩
theorem ctr (ks : KeySlot) (len : Len) : Statement (.ctr ks len) := ⟨_, rfl, cmdWord_mask 0x03 ks len⟩
theorem derive : Statement .derive := ⟨_, rfl, by decide⟩
theorem sessRst : Statement .sessRst := ⟨_, rfl, by decide⟩
theorem jreqEnc : Statement .jreqEnc := ⟨_, rfl, by decide⟩
theorem jaccDec (len : Len) : Statement (.jaccDec len) := ⟨_, rfl, cmdWord_mask_len 0x11 len⟩
theorem dataEnc (len : Len) : Statement (.dataEnc len) := ⟨_, rfl, cmdWord_mask_len 0x12 len⟩
theorem dataDec (len : Len) : Statement (.dataDec len) := ⟨_, rfl, cmdWord_mask_len 0x13 len⟩
theorem evTxDone : Statement .evTxDone := ⟨_, rfl, by decide⟩
theorem evRxOk : Statement .evRxOk := ⟨_, rfl, by decide⟩
theorem evRxCrcErr : Statement .evRxCrcErr := ⟨_, rfl, by decide⟩
theorem evBoth : Statement .evBoth := ⟨_, rfl, by decide⟩
theorem evNone : Statement .evNone := ⟨_, rfl, by decide⟩

theorem setClass (cls : DevClass) : Statement (.setClass cls) := by
  cases cls
  · exact ⟨_, rfl, by decide⟩
  · exact ⟨_, rfl, by decide⟩

theorem srst : Statement .srst := ⟨_, rfl, by decide⟩

theorem irqAck (mask : BitVec 5) : Statement (.irqAck mask) :=
  ⟨_, rfl, by revert mask; decide⟩

theorem tick : Statement .tick := rfl

end Sys2Proof.Laws.TableRow
end

