-- ==== Sys2Proof/Laws/Step.lean ====
section
/-! SUPPORT. What a step can do: the three phases of a cycle, each said once; what a command, an event, a plain write
and a bus access can change. -/

namespace Sys2Proof.Machine

/-! ## Outcomes -/

@[simp] theorem andThen_next (s : State) (f : State → StepOutcome) : andThen (.next s) f = f s := rfl

theorem andThen_eq_next {o : StepOutcome} {f : State → StepOutcome} {t : State} (h : andThen o f = .next t) :
    ∃ a, o = .next a ∧ f a = .next t := by
  cases o with
  | next a => exact ⟨a, rfl, h⟩
  | fault e => cases e
  | refused r => cases h

/-! ## Instructions -/

/-- A command's meaning is its completion with what its semantics gives (30_encoding R116). -/
theorem exec_command (i : Instr) (hi : isCommand i = true) (s : State) :
    ∃ x, exec i s = .next (s.complete x) := by
  cases i <;> first | exact ⟨_, rfl⟩ | cases hi

/-- Every instruction answers a next state. -/
theorem exec_next (i : Instr) (s : State) : ∃ t, exec i s = .next t := by
  cases i with
  | evTxDone => simp only [exec, execEvTxDone]; exact ⟨_, rfl⟩
  | evRxOk => simp only [exec, execEvRxOk]; split <;> exact ⟨_, rfl⟩
  | _ => exact ⟨_, rfl⟩

/-- A decoded command word is a command. -/
theorem isCommand_of_decodeCmd {w : Word} {i : Instr} (h : decodeCmd w = .ok i) : isCommand i = true := by
  unfold decodeCmd at h
  split at h
  · cases h
  · rename_i row hrow
    have hmem := List.mem_of_find?_eq_some hrow
    split at h
    · cases h
    · split at h
      · cases h
      · cases h
        fin_cases hmem <;> rfl

/-- SchedStep changes the scheduler's registers and IRQ_STATUS only, and does not look at the engine. -/
theorem schedStep_frame (s : State) : ∃ c q, ∀ r : Option Running,
    State.schedStep { s with running := r } = { s with running := r, sched := c, irqStatus := q } := by
  cases hq : s.sched.schedState with
  | idle => exact ⟨s.sched, s.irqStatus, fun _ => by simp [State.schedStep, hq]⟩
  | continuous => exact ⟨s.sched, s.irqStatus, fun _ => by simp [State.schedStep, hq]⟩
  | wait1 =>
    by_cases h : s.sched.elapsed ≥ s.sched.delay1
    · exact ⟨_, _, fun _ => by simp only [State.schedStep, hq, h, if_true, State.goto, State.stampWindow, State.emit]; rfl⟩
    · exact ⟨s.sched, s.irqStatus, fun _ => by simp [State.schedStep, hq, h]⟩
  | wait2 =>
    by_cases h : s.sched.elapsed ≥ s.sched.delay2
    · exact ⟨_, _, fun _ => by simp only [State.schedStep, hq, h, if_true, State.goto, State.stampWindow, State.emit]; rfl⟩
    · exact ⟨s.sched, s.irqStatus, fun _ => by simp [State.schedStep, hq, h]⟩
  | window1 =>
    by_cases hw : s.sched.windowElapsed ≥ s.sched.window
    · by_cases h : s.sched.elapsed ≥ s.sched.delay2
      · exact ⟨_, _, fun _ => by
          simp only [State.schedStep, hq, hw, h, if_true, State.goto, State.stampWindow, State.emit]; rfl⟩
      · exact ⟨{ s.sched with
            schedState := .wait2, radioAction := if s.sched.cls = .c then .contRx2 else .close }, _, fun _ => by
          simp only [State.schedStep, hq, hw, h, if_true, if_false, State.goto, State.emit]; rfl⟩
    · exact ⟨s.sched, s.irqStatus, fun _ => by simp [State.schedStep, hq, hw]⟩
  | window2 =>
    by_cases hw : s.sched.windowElapsed ≥ s.sched.window
    · by_cases hc : s.sched.cls = .c
      · exact ⟨_, _, fun _ => by simp only [State.schedStep, hq, hw, hc, if_true, State.goto, State.emit]; rfl⟩
      · exact ⟨_, _, fun _ => by simp only [State.schedStep, hq, hw, hc, if_true, if_false, State.goto, State.emit]; rfl⟩
    · exact ⟨s.sched, s.irqStatus, fun _ => by simp [State.schedStep, hq, hw]⟩

/-- A scheduler operation changes the scheduler's registers and IRQ_STATUS only, and does not look at the engine. -/
theorem exec_schedulerOp (i : Instr) (hi : isSchedulerOp i = true) (s : State) :
    ∃ c q, (∀ r : Option Running, exec i { s with running := r } = .next { s with running := r, sched := c, irqStatus := q })
      ∧ exec i s = .next { s with sched := c, irqStatus := q } := by
  cases i with
  | evTxDone =>
    simp only [exec, execEvTxDone]
    by_cases h1 : s.sched.schedState.serving = true <;> by_cases h2 : s.sched.cls = .c <;>
      simp only [h1, h2, State.raiseIrq, State.emit, if_true, if_false, Bool.false_eq_true] <;>
      exact ⟨_, _, fun _ => rfl, rfl⟩
  | evRxOk =>
    simp only [exec, execEvRxOk]
    by_cases h1 : s.sched.cls = .a
    · by_cases h2 : s.sched.schedState = .window1 ∨ s.sched.schedState = .window2 <;>
        simp only [h1, h2, State.goto, State.emit, if_true, if_false] <;> exact ⟨_, _, fun _ => rfl, rfl⟩
    · by_cases h2 : s.sched.schedState = .continuous <;>
        simp only [h1, h2, State.goto, State.emit, if_true, if_false, ne_eq, not_true, not_false_iff] <;>
        exact ⟨_, _, fun _ => rfl, rfl⟩
  | evRxCrcErr => exact ⟨s.sched, s.irqStatus, fun _ => rfl, rfl⟩
  | evBoth => exact ⟨s.sched, _, fun _ => rfl, rfl⟩
  | evNone => exact ⟨s.sched, s.irqStatus, fun _ => rfl, rfl⟩
  | setClass cls =>
    simp only [exec, execSetClass]
    by_cases h : s.sched.cls = cls
    · simp only [h, if_true]; exact ⟨{ s.sched with cls := cls }, s.irqStatus, fun _ => rfl, rfl⟩
    · simp only [h, if_false]
      cases cls
      · by_cases h1 : s.sched.schedState = .continuous
        · simp only [h1, if_true, State.goto, State.emit]; exact ⟨_, _, fun _ => rfl, rfl⟩
        · by_cases h2 : s.sched.schedState = .wait1 ∨ s.sched.schedState = .wait2 <;>
            simp only [h1, h2, if_true, if_false, State.emit] <;> exact ⟨_, _, fun _ => rfl, rfl⟩
      · by_cases h1 : s.sched.schedState = .idle
        · simp only [h1, if_true, State.goto, State.emit]; exact ⟨_, _, fun _ => rfl, rfl⟩
        · by_cases h2 : s.sched.schedState = .wait1 ∨ s.sched.schedState = .wait2 <;>
            simp only [h1, h2, if_true, if_false, State.emit] <;> exact ⟨_, _, fun _ => rfl, rfl⟩
  | tick =>
    obtain ⟨c, q, h⟩ := schedStep_frame { s with sched := { s.sched with time := s.sched.time + 1 } }
    exact ⟨c, q, fun r => congrArg _ (h r), congrArg _ (h s.running)⟩
  | _ => cases hi

/-- In Class A never Continuous, in Class C never Idle (42_scheduler R261). -/
abbrev Sched.classOk (c : Sched) : Prop :=
  ¬(c.cls = .a ∧ c.schedState = .continuous) ∧ ¬(c.cls = .c ∧ c.schedState = .idle)

/-- What SchedStep leaves of the scheduler: TIME, the class, the host's registers and TX_END_TS stay, a new
WIN_OPEN_TS is the present, no IRQ bit falls, and R261's invariant holds on. -/
theorem schedStep_effect (s : State) :
    s.schedStep = { s with sched := s.schedStep.sched, irqStatus := s.schedStep.irqStatus } ∧
    s.irqStatus ||| s.schedStep.irqStatus = s.schedStep.irqStatus ∧
    s.schedStep.sched.time = s.sched.time ∧ s.schedStep.sched.txEndTs = s.sched.txEndTs ∧
    (s.schedStep.sched.winOpenTs = s.sched.winOpenTs ∨ s.schedStep.sched.winOpenTs = s.sched.time) ∧
    s.schedStep.sched.cls = s.sched.cls ∧ s.schedStep.sched.rx1Cfg = s.sched.rx1Cfg ∧
    (s.sched.classOk → s.schedStep.sched.classOk) := by
  have hor : s.irqStatus ||| (s.irqStatus ||| Irq.radioReq) = s.irqStatus ||| Irq.radioReq := by
    rw [← BitVec.or_assoc, BitVec.or_self]
  rcases State.schedStep_cases s with e | ⟨_, _, e⟩ | ⟨_, _, e⟩ | ⟨_, _, _, e⟩ | ⟨_, _, e⟩ <;> rw [e]
  · exact ⟨rfl, BitVec.or_self, rfl, rfl, .inl rfl, rfl, rfl, id⟩
  · exact ⟨rfl, hor, rfl, rfl, .inr rfl, rfl, rfl, fun _ => by simp [Sched.classOk]⟩
  · exact ⟨rfl, hor, rfl, rfl, .inr rfl, rfl, rfl, fun _ => by simp [Sched.classOk]⟩
  · exact ⟨rfl, hor, rfl, rfl, .inl rfl, rfl, rfl, fun _ => by simp [Sched.classOk]⟩
  · refine ⟨rfl, hor, rfl, rfl, .inl rfl, rfl, rfl, fun _ => ?_⟩
    cases hc : s.sched.cls <;> simp [Sched.classOk, hc]

/-- What an event or a class switch leaves of the scheduler: TIME, WIN_OPEN_TS and the host's registers stay, a new
TX_END_TS is the present, no IRQ bit falls, and R261's invariant holds on. -/
theorem event_effect (i : Instr) (hi : isSchedulerOp i = true) (ht : i ≠ .tick) (s t : State)
    (h : exec i s = .next t) :
    t = { s with sched := t.sched, irqStatus := t.irqStatus } ∧
    s.irqStatus ||| t.irqStatus = t.irqStatus ∧
    t.sched.time = s.sched.time ∧ (t.sched.txEndTs = s.sched.txEndTs ∨ t.sched.txEndTs = s.sched.time) ∧
    t.sched.winOpenTs = s.sched.winOpenTs ∧ t.sched.rx1Cfg = s.sched.rx1Cfg ∧
    (s.sched.classOk → t.sched.classOk) := by
  have hor (b : BitVec 5) : s.irqStatus ||| (s.irqStatus ||| b) = s.irqStatus ||| b := by
    rw [← BitVec.or_assoc, BitVec.or_self]
  cases i with
  | evTxDone =>
    simp only [exec, execEvTxDone, Host.Outcome.next.injEq] at h
    subst h
    by_cases h1 : s.sched.schedState.serving = true <;> by_cases h2 : s.sched.cls = .c <;>
      simp [h1, h2, State.raiseIrq, State.emit, hor, BitVec.or_assoc, Sched.classOk]
  | evRxOk =>
    simp only [exec, execEvRxOk] at h
    by_cases h1 : s.sched.cls = .a
    · by_cases h2 : s.sched.schedState = .window1 ∨ s.sched.schedState = .window2 <;>
        simp only [h1, h2, State.goto, State.emit, if_true, if_false, Host.Outcome.next.injEq] at h <;>
        subst h <;> simp [hor, Sched.classOk]
    · by_cases h2 : s.sched.schedState = .continuous <;>
        simp only [h1, h2, State.goto, State.emit, if_true, if_false, ne_eq, not_true, not_false_iff,
          Host.Outcome.next.injEq] at h <;>
        subst h <;> simp [hor, h1, Sched.classOk]
  | evRxCrcErr => cases h; simp
  | evBoth => cases h; simp [State.raiseIrq, hor]
  | evNone => cases h; simp
  | setClass cls =>
    simp only [exec, execSetClass, Host.Outcome.next.injEq] at h
    by_cases h0 : s.sched.cls = cls
    · simp only [h0, if_true] at h
      subst h
      simp [h0, Sched.classOk]
    · simp only [h0, if_false] at h
      cases cls
      · by_cases h1 : s.sched.schedState = .continuous
        · simp only [h1, if_true, State.goto, State.emit] at h
          subst h
          simp [hor, Sched.classOk]
        · by_cases h2 : s.sched.schedState = .wait1 ∨ s.sched.schedState = .wait2 <;>
            simp only [h1, h2, if_true, if_false, State.emit] at h <;> subst h <;> simp [hor, h1, Sched.classOk]
      · by_cases h1 : s.sched.schedState = .idle
        · simp only [h1, if_true, State.goto, State.emit] at h
          subst h
          simp [hor, Sched.classOk]
        · by_cases h2 : s.sched.schedState = .wait1 ∨ s.sched.schedState = .wait2 <;>
            simp only [h1, h2, if_true, if_false, State.emit] at h <;> subst h <;> simp [hor, h1, Sched.classOk]
  | tick => exact absurd rfl ht
  | _ => cases hi

/-- The registers a plain write never touches. -/
theorem writeReg_effect (s : State) (r : Reg) (v : Word) :
    (s.writeReg r v).errCode = s.errCode ∧ (s.writeReg r v).irqStatus = s.irqStatus ∧
    (s.writeReg r v).running = s.running ∧ (s.writeReg r v).res = s.res ∧ (s.writeReg r v).cmd = s.cmd ∧
    (s.writeReg r v).draws = s.draws ∧ (s.writeReg r v).inputs = s.inputs ∧ (s.writeReg r v).resp = s.resp ∧
    (s.writeReg r v).sched.time = s.sched.time ∧ (s.writeReg r v).sched.schedState = s.sched.schedState ∧
    (s.writeReg r v).sched.cls = s.sched.cls ∧ (s.writeReg r v).sched.txEndTs = s.sched.txEndTs ∧
    (s.writeReg r v).sched.winOpenTs = s.sched.winOpenTs ∧ (s.writeReg r v).op.bufEpoch = s.op.bufEpoch := by
  cases r with
  | key ks j =>
    refine ⟨rfl, rfl, rfl, rfl, rfl, rfl, rfl, rfl, rfl, rfl, rfl, rfl, rfl, ?_⟩
    simp only [State.writeReg, Operands.setKey]
    split
    · rfl
    · split
      · rfl
      · split <;> rfl
  | _ => exact ⟨rfl, rfl, rfl, rfl, rfl, rfl, rfl, rfl, rfl, rfl, rfl, rfl, rfl, rfl⟩

/-- A read changes the response, TIME_HI_LATCH and the counter of free values only. -/
theorem busRead_effect (s : State) (off : Offset) (size : AccessSize) :
    s.busRead off size = { s with
      resp := (s.busRead off size).resp
      draws := (s.busRead off size).draws
      sched := { s.sched with timeHiLatch := (s.busRead off size).sched.timeHiLatch } } ∧
    s.draws ≤ (s.busRead off size).draws := by
  unfold State.busRead
  cases accessReg off size with
  | none => exact ⟨rfl, Nat.le_refl _⟩
  | some r =>
    simp only
    split
    · exact ⟨rfl, Nat.le_succ _⟩
    · unfold State.readEffect
      split <;> exact ⟨rfl, Nat.le_refl _⟩

/-! ## What a command's writes can be -/

/-- What every command's writes keep: the host's two key slots, the buffers' unspecified contents, and the invariants of the operand and result registers. -/
structure WritesKeep (o o' : Operands) (r r' : Results) : Prop where
  k0 : o'.k0 = o.k0
  k3 : o'.k3 = o.k3
  bufEpoch : o'.bufEpoch = o.bufEpoch
  opInv : o.Inv → o'.Inv
  resInv : r.Inv → r'.Inv

theorem WritesKeep.refl (o : Operands) (r : Results) : WritesKeep o o r r := ⟨rfl, rfl, rfl, id, id⟩

/-- A store of at most 256 bytes into PBUF keeps all of it, for result registers that keep their invariant. -/
theorem WritesKeep.storePbuf (o : Operands) (bs : List Byte) (r r' : Results) (h : bs.length ≤ 256)
    (hr : r.Inv → r'.Inv) : WritesKeep o (o.storePbuf bs) r r' :=
  ⟨rfl, rfl, rfl, fun hi => o.store_inv _ bs hi (by simp [Config.pbufBase]) (by simp [Config.pbufBase]; omega), hr⟩

/-- The same for FBUF. -/
theorem WritesKeep.storeFbuf (o : Operands) (bs : List Byte) (r r' : Results) (h : bs.length ≤ 256)
    (hr : r.Inv → r'.Inv) : WritesKeep o (o.storeFbuf bs) r r' :=
  ⟨rfl, rfl, rfl, fun hi => o.store_inv _ bs hi (by simp [Config.fbufBase]) (by simp [Config.fbufBase]; omega), hr⟩

theorem jaParamsOf_reserved (p : List Byte) : (jaParamsOf p).extractLsb' 17 7 = 0 := by
  unfold jaParamsOf
  split <;> (ext i hi; interval_cases i <;> simp)

theorem rxInfoOf_reserved (x : RxFrame) : (rxInfoOf x).getLsbD 31 = false := by
  simp [rxInfoOf]

theorem ctrResult_keeps {ks : KeySlot} {len : Len} {n o o' : Operands} {r r' : Results}
    (h : ctrResult ks len n o r = .ok (o', r')) : WritesKeep o o' r r' := by
  obtain ⟨hl, h⟩ := checkLen_ok h
  cases h
  exact WritesKeep.storePbuf _ _ _ _ (by simpa using hl) id

theorem jreqResult_keeps {n o o' : Operands} {r r' : Results} (h : jreqResult n o r = .ok (o', r')) :
    WritesKeep o o' r r' := by
  unfold jreqResult at h
  split at h
  · cases h
  · cases h
    exact WritesKeep.storeFbuf _ _ _ _ (by simp) fun hr => ⟨by simp, hr.2⟩

theorem jaccCommit_keeps (p : List Byte) (n o : Operands) (r : Results) :
    WritesKeep o (jaccCommit p n o r).1 r (jaccCommit p n o r).2 := by
  unfold jaccCommit deriveInto
  by_cases hp : p.length = 33
  · have hlen : (sub p 13 16).length = 16 := by simp [hp]
    simp only [hp, if_true]
    generalize sub p 13 16 = bs at hlen ⊢
    refine ⟨rfl, rfl, rfl, fun hi => ?_, fun hr => ⟨by simp, hr.2.1, jaParamsOf_reserved p⟩⟩
    exact ⟨Memory.wf_writeList bs _ _ hi.1,
      Memory.inBuffers_writeList bs _ _ hi.2.1 (by simp [Config.pbufBase]) (by simp [Config.pbufBase, hlen]), hi.2.2⟩
  · simp only [hp, if_false]
    exact ⟨rfl, rfl, rfl, fun hi => hi, fun hr => ⟨by simp, hr.2.1, jaParamsOf_reserved p⟩⟩

theorem jaccResult_keeps {len : Len} {n o o' : Operands} {r r' : Results}
    (h : jaccResult len n o r = .ok (o', r')) : WritesKeep o o' r r' := by
  obtain ⟨_, h⟩ := checkLen_ok h
  split at h
  · cases h
  · split at h
    · cases h
    · dsimp only at h
      split at h
      · cases h
      · have hc := Except.ok.inj h
        have := jaccCommit_keeps (jaccPlain n.k0 (n.fbuf len.toNat)) n o r
        rwa [hc] at this

theorem dataEncResult_keeps {len : Len} {n o o' : Operands} {r r' : Results}
    (h : dataEncResult len n o r = .ok (o', r')) : WritesKeep o o' r r' := by
  obtain ⟨_, h⟩ := checkLen_ok h
  split at h
  · cases h
  · split at h
    · cases h
    · rename_i hlen
      cases h
      have := length_dataMsg n len.toNat
      refine WritesKeep.storeFbuf _ _ _ _ (by simp; omega) fun hr => ⟨?_, hr.2⟩
      simp only [BitVec.toNat_ofNat]
      omega

theorem dataDecResult_keeps {len : Len} {n o o' : Operands} {r r' : Results}
    (h : dataDecResult len n o r = .ok (o', r')) : WritesKeep o o' r r' := by
  obtain ⟨hl, h⟩ := checkLen_ok h
  simp only at h
  repeat' split at h
  all_goals cases h
  all_goals
    have hp : (parseFrame (n.fbuf len.toNat) n.fcntUp).pay.length ≤ 256 := by
      simp only [parseFrame]
      split <;> simp
      omega
    refine ⟨rfl, rfl, rfl, fun hi => Operands.store_inv _ _ _ hi (by simp [Config.pbufBase])
      (by simp [Config.pbufBase]; omega), fun hr => ⟨?_, rxInfoOf_reserved _, hr.2.2⟩⟩
    simp only [length_cryptPayload, BitVec.toNat_ofNat]
    omega

/-- Every command either fails, writing nothing, or commits writes that keep what `WritesKeep` says. -/
theorem command_keeps (i : Instr) (hi : isCommand i = true) (s t : State) (h : exec i s = .next t) :
    (∃ e, t = s.failWith e) ∨ ∃ o r, t = s.commit o r ∧ WritesKeep s.op o s.res r := by
  have key (x : CmdResult) (hx : ∀ o r, x = .ok (o, r) → WritesKeep s.op o s.res r)
      (ht : (.next (s.complete x) : StepOutcome) = .next t) :
      (∃ e, t = s.failWith e) ∨ ∃ o r, t = s.commit o r ∧ WritesKeep s.op o s.res r := by
    cases x with
    | ok p => cases ht; exact .inr ⟨p.1, p.2, rfl, hx _ _ rfl⟩
    | error e => cases ht; exact .inl ⟨e, rfl⟩
  cases i with
  | ecb ks => exact key _ (fun o r h => by cases h; exact ⟨rfl, rfl, rfl, id, id⟩) h
  | cmac ks len =>
    exact key _ (fun o r h => by obtain ⟨_, h⟩ := checkLen_ok h; cases h; exact ⟨rfl, rfl, rfl, id, id⟩) h
  | ctr ks len => exact key _ (fun o r h => ctrResult_keeps h) h
  | derive => exact key _ (fun o r h => by cases h; exact ⟨rfl, rfl, rfl, id, id⟩) h
  | sessRst => exact key _ (fun o r h => by cases h; exact ⟨rfl, rfl, rfl, id, id⟩) h
  | jreqEnc => exact key _ (fun o r h => jreqResult_keeps h) h
  | jaccDec len => exact key _ (fun o r h => jaccResult_keeps h) h
  | dataEnc len => exact key _ (fun o r h => dataEncResult_keeps h) h
  | dataDec len => exact key _ (fun o r h => dataDecResult_keeps h) h
  | _ => cases hi

/-! ## The phases of a cycle -/

/-- Everything a write can do: a bus error; a drop, with OVERRUN; an accepted command; an instruction of another port;
or a plain write. -/
theorem busWrite_cases (s : State) (off : Offset) (size : AccessSize) (v : Word) :
    (accessReg off size = none ∧ busWrite s off size v = .next { s with resp := some .error }) ∨
    (∃ r, accessReg off size = some r ∧ s.busy = true ∧ r.locked = true ∧
      busWrite s off size v = .next { s with resp := some .done, irqStatus := s.irqStatus ||| Irq.overrun }) ∨
    (accessReg off size = some .cmd ∧ s.busy = false ∧
      busWrite s off size v = .next ({ s with resp := some .done : State }.accept v)) ∨
    (∃ r i, accessReg off size = some r ∧ r ≠ .cmd ∧ ¬(s.busy = true ∧ r.locked = true) ∧
      decode (.busWrite off v) = .ok i ∧ busWrite s off size v = exec i { s with resp := some .done }) ∨
    (∃ r e, accessReg off size = some r ∧ r ≠ .cmd ∧ ¬(s.busy = true ∧ r.locked = true) ∧
      decode (.busWrite off v) = .error e ∧
      busWrite s off size v = .next ({ s with resp := some .done : State }.writeReg r v)) := by
  unfold busWrite
  cases hr : accessReg off size with
  | none => exact .inl ⟨rfl, rfl⟩
  | some r =>
    by_cases hb : s.busy = true ∧ r.locked = true
    · refine .inr (.inl ⟨r, rfl, hb.1, hb.2, ?_⟩)
      have hb' : (State.busy { s with resp := some .done } && r.locked) = true := by
        simpa [State.busy] using hb
      simp only [hb', if_true]; rfl
    · have hb' : (State.busy { s with resp := some .done } && r.locked) = false := by
        rw [← Bool.not_eq_true]; simpa [State.busy] using hb
      by_cases hc : r = .cmd
      · subst hc
        refine .inr (.inr (.inl ⟨rfl, ?_, by simp [hb']⟩))
        have hl : Reg.locked .cmd = true := by decide
        simpa [hl] using hb
      · cases hd : decode (.busWrite off v) with
        | ok i => exact .inr (.inr (.inr (.inl ⟨r, i, rfl, hc, hb, rfl, by simp [hb', hc]⟩)))
        | error e => exact .inr (.inr (.inr (.inr ⟨r, e, rfl, hc, hb, rfl, by simp [hb', hc]⟩)))

/-- A word that decodes outside CMD is an event, a class switch, a soft reset or an acknowledgement. -/
theorem decode_port {off : Offset} {v : Word} {i : Instr} (hoff : off ≠ Config.cmdOffset)
    (h : decode (.busWrite off v) = .ok i) :
    (off = Config.eventOffset ∧ i = decodeEvent v) ∨
    (off = Config.schedCtrlOffset ∧ i = .setClass (decodeClass v)) ∨
    (off = Config.ctrlOffset ∧ v.getLsbD 0 = true ∧ i = .srst) ∨
    (off = Config.irqStatusOffset ∧ i = .irqAck (v.extractLsb' 0 5)) := by
  simp only [decode, hoff, if_false] at h
  split at h
  · cases h; exact .inl ⟨by assumption, rfl⟩
  · split at h
    · cases h; exact .inr (.inl ⟨by assumption, rfl⟩)
    · split at h
      · split at h
        · cases h; exact .inr (.inr (.inl ⟨by assumption, by assumption, rfl⟩))
        · cases h
      · split at h
        · cases h; exact .inr (.inr (.inr ⟨by assumption, rfl⟩))
        · cases h

theorem isSchedulerOp_decodeEvent (v : Word) : isSchedulerOp (decodeEvent v) = true := by
  simp only [decodeEvent]
  split
  · rfl
  · split
    · rfl
    · split
      · rfl
      · split <;> rfl

/-- Everything the engine's part of a cycle can do: nothing, a cycle less to go, or the completion of the command. -/
theorem enginePhase_cases (s : State) :
    (s.running = none ∧ enginePhase s = .next s) ∨
    (∃ r n, s.running = some r ∧ r.left = n + 1 ∧
      enginePhase s = .next { s with running := some { r with left := n } }) ∨
    (∃ r x, s.running = some r ∧ r.left = 0 ∧ enginePhase s = completeRunning r.cur s ∧
      completeRunning r.cur s = .next (s.complete x)) := by
  unfold enginePhase
  cases hr : s.running with
  | none => exact .inl ⟨rfl, rfl⟩
  | some r =>
    obtain ⟨cur, snap, left⟩ := r
    cases left with
    | succ n => exact .inr (.inl ⟨_, n, rfl, rfl, rfl⟩)
    | zero =>
      refine .inr (.inr ⟨⟨cur, snap, 0⟩, ?_⟩)
      cases hd : decodeCmd cur with
      | ok i =>
        obtain ⟨x, hx⟩ := exec_command i (isCommand_of_decodeCmd hd) s
        exact ⟨x, rfl, rfl, rfl, by simp [completeRunning, hd, hx]⟩
      | error e => exact ⟨.error .illegalCmd, rfl, rfl, rfl, by simp [completeRunning, hd]⟩

/-- The tick's part of a cycle. -/
theorem tickPhase_eq (b : Bool) (s : State) : tickPhase b s = if b then exec .tick s else .next s := by
  cases b <;> rfl

/-- A step is a hard reset, or the three phases in order (70_reset_and_hazards R343). -/
theorem step_phases {s t : State} (h : step s = .next t) :
    (s.nextInput.rst = true ∧ t = s.popInput.hardReset) ∨
    (s.nextInput.rst = false ∧ ∃ a b, busPhase s.nextInput.bus { s.popInput with resp := none } = .next a ∧
      enginePhase a = .next b ∧ tickPhase s.nextInput.tick b = .next t) := by
  unfold step cycle cycleWith at h
  split at h
  · rename_i hr; exact .inl ⟨hr, by injection h with h; exact h.symm⟩
  · rename_i hr
    obtain ⟨b, hb, ht⟩ := andThen_eq_next h
    obtain ⟨a, ha, hb⟩ := andThen_eq_next hb
    exact .inr ⟨by simpa using hr, a, b, ha, hb, ht⟩

/-! ## What each phase can change -/

theorem size_of_accessReg {off : Offset} {size : AccessSize} {r : Reg} (h : accessReg off size = some r) :
    size = .word := by
  cases size <;> first | rfl | cases h

theorem decodeEvent_ne_tick (v : Word) : decodeEvent v ≠ .tick := by
  simp only [decodeEvent]
  repeat' split
  all_goals simp

/-- Everything the bus part of a cycle can do: a soft reset; a plain write; an acknowledgement; an event or a class
switch; an accepted command; or nothing but the response, TIME_HI_LATCH, a drawn free value and OVERRUN. -/
theorem busPhase_effect (bus : Option BusOp) (s a : State) (h : busPhase bus s = .next a) :
    (∃ v : Word, bus = some (.write Config.ctrlOffset .word v) ∧ v.getLsbD 0 = true ∧
      a = State.softReset { s with resp := some .done }) ∨
    (∃ (off : Offset) (v : Word) (r : Reg), bus = some (.write off .word v) ∧ accessReg off .word = some r ∧
      ¬(s.busy = true ∧ r.locked = true) ∧ r ≠ .cmd ∧ a = State.writeReg { s with resp := some .done } r v) ∨
    (∃ v : Word, bus = some (.write Config.irqStatusOffset .word v) ∧
      a = { s with resp := some .done, irqStatus := s.irqStatus &&& ~~~(v.extractLsb' 0 5) }) ∨
    (∃ (v : Word) (i : Instr), ((bus = some (.write Config.eventOffset .word v) ∧ i = decodeEvent v) ∨
        (bus = some (.write Config.schedCtrlOffset .word v) ∧ i = .setClass (decodeClass v))) ∧
      isSchedulerOp i = true ∧ i ≠ .tick ∧ exec i { s with resp := some .done } = .next a) ∨
    (∃ (off : Offset) (v : Word), bus = some (.write off .word v) ∧ accessReg off .word = some .cmd ∧
      s.running = none ∧ a = State.accept { s with resp := some .done } v) ∨
    (a = { s with
        resp := a.resp, draws := a.draws, irqStatus := a.irqStatus
        sched := { s.sched with timeHiLatch := a.sched.timeHiLatch } } ∧
      s.irqStatus ||| a.irqStatus = a.irqStatus ∧ s.draws ≤ a.draws) := by
  rcases bus with _ | ⟨off, size⟩ | ⟨off, size, v⟩
  · cases h
    exact .inr (.inr (.inr (.inr (.inr ⟨rfl, BitVec.or_self, Nat.le_refl _⟩))))
  · cases h
    obtain ⟨h1, h2⟩ := busRead_effect s off size
    refine .inr (.inr (.inr (.inr (.inr ⟨?_, ?_, h2⟩))))
    · rw [h1]
    · rw [h1]; exact BitVec.or_self
  · simp only [busPhase] at h
    rcases busWrite_cases s off size v with ⟨_, e⟩ | ⟨r, h1, h2, h3, e⟩ | ⟨h1, h2, e⟩ | ⟨r, i, h1, h2, h3, h4, e⟩ |
      ⟨r, er, h1, h2, h3, h4, e⟩
    · rw [e] at h
      cases h
      exact .inr (.inr (.inr (.inr (.inr ⟨rfl, BitVec.or_self, Nat.le_refl _⟩))))
    · rw [e] at h
      cases h
      exact .inr (.inr (.inr (.inr (.inr ⟨rfl, by simp [← BitVec.or_assoc], Nat.le_refl _⟩))))
    · rw [e] at h
      cases h
      cases size_of_accessReg h1
      refine .inr (.inr (.inr (.inr (.inl ⟨off, v, rfl, h1, ?_, rfl⟩))))
      simpa [State.busy] using h2
    · rw [e] at h
      cases size_of_accessReg h1
      have hoff : off ≠ Config.cmdOffset := by
        intro hc
        subst hc
        have : accessReg Config.cmdOffset .word = some .cmd := by decide
        rw [this] at h1
        cases h1
        exact h2 rfl
      rcases decode_port hoff h4 with ⟨rfl, rfl⟩ | ⟨rfl, rfl⟩ | ⟨rfl, hv, rfl⟩ | ⟨rfl, rfl⟩
      · exact .inr (.inr (.inr (.inl ⟨v, _, .inl ⟨rfl, rfl⟩, isSchedulerOp_decodeEvent v, decodeEvent_ne_tick v, h⟩)))
      · exact .inr (.inr (.inr (.inl ⟨v, _, .inr ⟨rfl, rfl⟩, rfl, by simp, h⟩)))
      · cases h
        exact .inl ⟨v, rfl, hv, rfl⟩
      · cases h
        exact .inr (.inr (.inl ⟨v, rfl, rfl⟩))
    · rw [e] at h
      cases h
      cases size_of_accessReg h1
      exact .inr (.inl ⟨off, v, r, rfl, h1, h3, h2, rfl⟩)

/-- What the engine's part of a cycle changes: the countdown alone, or a completion: a failure, or the commit of a
decoded command's writes. -/
theorem enginePhase_effect (s t : State) (h : enginePhase s = .next t) :
    (s.running = none ∧ t = s) ∨
    (∃ r n, s.running = some r ∧ r.left = n + 1 ∧ t = { s with running := some { r with left := n } }) ∨
    (∃ r, s.running = some r ∧ r.left = 0 ∧ completeRunning r.cur s = .next t ∧
      ((∃ e, t = s.failWith e) ∨
        ∃ i o w, decodeCmd r.cur = .ok i ∧ exec i s = .next t ∧ t = s.commit o w ∧ WritesKeep s.op o s.res w)) := by
  rcases enginePhase_cases s with ⟨hn, e⟩ | ⟨r, n, h1, h2, e⟩ | ⟨r, x, h1, h2, e, e'⟩
  · rw [e] at h
    cases h
    exact .inl ⟨hn, rfl⟩
  · rw [e] at h
    cases h
    exact .inr (.inl ⟨r, n, h1, h2, rfl⟩)
  · rw [e] at h
    refine .inr (.inr ⟨r, h1, h2, h, ?_⟩)
    unfold completeRunning at h
    split at h
    · rename_i i hi
      rcases command_keeps i (isCommand_of_decodeCmd hi) s t h with ⟨er, he⟩ | ⟨o, w, he, hk⟩
      · exact .inl ⟨er, he⟩
      · exact .inr ⟨i, o, w, hi, h, he, hk⟩
    · cases h
      exact .inl ⟨_, rfl⟩

/-- The engine's part of a cycle never touches the scheduler, and no IRQ bit falls in it. -/
theorem enginePhase_keeps (s t : State) (h : enginePhase s = .next t) :
    t.sched = s.sched ∧ t.inputs = s.inputs ∧ t.resp = s.resp ∧ t.draws = s.draws ∧ t.irqEnable = s.irqEnable ∧
    t.cmd = s.cmd ∧ s.irqStatus ||| t.irqStatus = t.irqStatus := by
  rcases enginePhase_effect s t h with ⟨_, rfl⟩ | ⟨r, n, _, _, rfl⟩ | ⟨r, _, _, _, ⟨e, rfl⟩ | ⟨i, o, w, _, _, rfl, _⟩⟩
  · exact ⟨rfl, rfl, rfl, rfl, rfl, rfl, BitVec.or_self⟩
  · exact ⟨rfl, rfl, rfl, rfl, rfl, rfl, BitVec.or_self⟩
  · exact ⟨rfl, rfl, rfl, rfl, rfl, rfl, by simp [State.failWith, ← BitVec.or_assoc]⟩
  · exact ⟨rfl, rfl, rfl, rfl, rfl, rfl, by simp [State.commit, ← BitVec.or_assoc]⟩

/-- What the tick's part of a cycle changes. -/
theorem tickPhase_effect (b : Bool) (s t : State) (h : tickPhase b s = .next t) :
    t = { s with sched := t.sched, irqStatus := t.irqStatus } ∧ s.irqStatus ||| t.irqStatus = t.irqStatus ∧
    (b = false → t = s) ∧ t.sched.time = s.sched.time + (if b then 1 else 0) ∧
    t.sched.txEndTs = s.sched.txEndTs ∧
    (t.sched.winOpenTs = s.sched.winOpenTs ∨ t.sched.winOpenTs = t.sched.time) ∧
    (s.sched.classOk → t.sched.classOk) ∧ t.sched.rx1Cfg = s.sched.rx1Cfg := by
  rw [tickPhase_eq] at h
  cases b with
  | false => cases h; simp
  | true =>
    simp only [if_true, exec, execTick, Host.Outcome.next.injEq] at h
    obtain ⟨e1, e2, e3, e4, e5, _, e7, e8⟩ := schedStep_effect { s with sched := { s.sched with time := s.sched.time + 1 } }
    rw [h] at e1 e2 e3 e4 e5 e7 e8
    refine ⟨by rw [e1], e2, by simp, by simpa using e3, e4, ?_, fun hh => e8 hh, e7⟩
    rcases e5 with e5 | e5
    · exact .inl e5
    · exact .inr (e5.trans e3.symm)

/-! ## What raises an IRQ bit, and what moves the engine -/

/-- SchedStep raises RADIO_REQ and no other bit, and it does so in every transition. -/
theorem schedStep_irq (s : State) :
    (s.schedStep = s) ∨ s.schedStep.irqStatus = s.irqStatus ||| Irq.radioReq := by
  rcases State.schedStep_cases s with e | ⟨_, _, e⟩ | ⟨_, _, e⟩ | ⟨_, _, _, e⟩ | ⟨_, _, e⟩
  · exact .inl e
  all_goals exact .inr (by rw [e])

/-- A tick raises RADIO_REQ and no other bit, and it does so whenever it changes SCHED_STATE. -/
theorem tickPhase_irq (b : Bool) (s t : State) (h : tickPhase b s = .next t) :
    (t.irqStatus = s.irqStatus ∧ t.sched.schedState = s.sched.schedState) ∨
    (b = true ∧ t.irqStatus = s.irqStatus ||| Irq.radioReq) := by
  rw [tickPhase_eq] at h
  cases b with
  | false => cases h; exact .inl ⟨rfl, rfl⟩
  | true =>
    simp only [if_true, exec, execTick, Host.Outcome.next.injEq] at h
    subst h
    rcases schedStep_irq { s with sched := { s.sched with time := s.sched.time + 1 } } with e | e
    · exact .inl (by rw [e]; exact ⟨rfl, rfl⟩)
    · exact .inr ⟨rfl, e⟩

/-- A command that raises an error raises one with a name: never OK (60_exceptions R290). -/
theorem exec_command_result (i : Instr) (hi : isCommand i = true) (s : State) :
    ∃ x : CmdResult, exec i s = .next (s.complete x) ∧ x ≠ .error .ok := by
  have check (len : Len) (k : CmdResult) (h : k ≠ .error .ok) : checkLen len k ≠ .error .ok := by
    unfold checkLen
    split
    · simp
    · exact h
  cases i with
  | ecb ks => exact ⟨_, rfl, by simp [ecbResult]⟩
  | cmac ks len => exact ⟨_, rfl, check _ _ (by simp)⟩
  | ctr ks len => exact ⟨_, rfl, check _ _ (by simp)⟩
  | derive => exact ⟨_, rfl, by simp [deriveResult]⟩
  | sessRst => exact ⟨_, rfl, by simp [sessRstResult]⟩
  | jreqEnc => exact ⟨_, rfl, by unfold jreqResult; split <;> simp⟩
  | jaccDec len => exact ⟨_, rfl, check _ _ (by dsimp only; (repeat' split) <;> simp)⟩
  | dataEnc len => exact ⟨_, rfl, check _ _ (by dsimp only; (repeat' split) <;> simp)⟩
  | dataDec len => exact ⟨_, rfl, check _ _ (by dsimp only; (repeat' split) <;> simp)⟩
  | _ => cases hi

/-- The engine's part of a cycle raises CMD_DONE in a completion, CMD_ERR when it fails, and no other bit. -/
theorem enginePhase_irq (s t : State) (h : enginePhase s = .next t) :
    (t.irqStatus = s.irqStatus ∧ ∀ r, s.running = some r → r.left ≠ 0) ∨
    (∃ r, s.running = some r ∧ r.left = 0 ∧
      t.irqStatus = s.irqStatus ||| Irq.cmdDone ||| (if t.errCode = .ok then 0 else Irq.cmdErr)) := by
  rcases enginePhase_cases s with ⟨hn, e⟩ | ⟨r, n, h1, h2, e⟩ | ⟨r, x, h1, h2, e, e'⟩
  · rw [e] at h; cases h
    exact .inl ⟨rfl, by simp [hn]⟩
  · rw [e] at h; cases h
    exact .inl ⟨rfl, by rintro r' hr; rw [h1] at hr; cases hr; omega⟩
  · rw [e] at h
    refine .inr ⟨r, h1, h2, ?_⟩
    have key (y : CmdResult) (hy : y ≠ .error .ok) (hc : completeRunning r.cur s = .next (s.complete y)) :
        t.irqStatus = s.irqStatus ||| Irq.cmdDone ||| (if t.errCode = .ok then 0 else Irq.cmdErr) := by
      rw [hc] at h
      cases h
      cases y with
      | ok p => simp [State.complete, State.commit]
      | error er =>
        have : er ≠ .ok := fun h => hy (by rw [h])
        simp [State.complete, State.failWith, this]
    unfold completeRunning at key
    cases hd : decodeCmd r.cur with
    | error er => rw [hd] at key; exact key (.error .illegalCmd) (by simp) rfl
    | ok i =>
      rw [hd] at key
      obtain ⟨y, hy, hne⟩ := exec_command_result i (isCommand_of_decodeCmd hd) s
      exact key y hne hy

/-- Where the bus part of a cycle can raise an IRQ bit: a write dropped by the lock, an event, or a class switch. -/
theorem busPhase_irq (bus : Option BusOp) (s a : State) (h : busPhase bus s = .next a) :
    (∀ i, a.irqStatus.getLsbD i = true → s.irqStatus.getLsbD i = true) ∨
    (∃ off v r, bus = some (.write off .word v) ∧ accessReg off .word = some r ∧ s.busy = true ∧ r.locked = true ∧
      a.irqStatus = s.irqStatus ||| Irq.overrun) ∨
    (∃ v i, ((bus = some (.write Config.eventOffset .word v) ∧ i = decodeEvent v) ∨
        (bus = some (.write Config.schedCtrlOffset .word v) ∧ i = .setClass (decodeClass v))) ∧
      exec i { s with resp := some .done } = .next a) := by
  rcases bus with _ | ⟨off, size⟩ | ⟨off, size, v⟩
  · cases h; exact .inl fun _ => id
  · cases h
    rw [(busRead_effect s off size).1]
    exact .inl fun _ => id
  · simp only [busPhase] at h
    rcases busWrite_cases s off size v with ⟨_, e⟩ | ⟨r, h1, h2, h3, e⟩ | ⟨h1, h2, e⟩ | ⟨r, i, h1, h2, h3, h4, e⟩ |
      ⟨r, er, h1, h2, h3, h4, e⟩
    · rw [e] at h; cases h; exact .inl fun _ => id
    · rw [e] at h; cases h
      cases size_of_accessReg h1
      exact .inr (.inl ⟨off, v, r, rfl, h1, h2, h3, rfl⟩)
    · rw [e] at h; cases h; exact .inl fun _ => id
    · rw [e] at h
      cases size_of_accessReg h1
      have hoff : off ≠ Config.cmdOffset := by
        intro hc
        subst hc
        have : accessReg Config.cmdOffset .word = some .cmd := by decide
        rw [this] at h1
        cases h1
        exact h2 rfl
      rcases decode_port hoff h4 with ⟨rfl, rfl⟩ | ⟨rfl, rfl⟩ | ⟨rfl, hv, rfl⟩ | ⟨rfl, rfl⟩
      · exact .inr (.inr ⟨v, _, .inl ⟨rfl, rfl⟩, h⟩)
      · exact .inr (.inr ⟨v, _, .inr ⟨rfl, rfl⟩, h⟩)
      · cases h; exact .inl fun i hi => by simp [State.softReset, State.reset] at hi
      · cases h; exact .inl fun i hi => by simp [State.clearIrq] at hi; exact hi.1
    · rw [e] at h; cases h
      rw [(writeReg_effect _ r v).2.1]
      exact .inl fun _ => id
/-- The bus part of a cycle leaves a running command as it is, but for a soft reset; with none it may accept one, whose
completion is not in this cycle's bus part. -/
theorem busPhase_running (bus : Option BusOp) (s a : State) (h : busPhase bus s = .next a) :
    a.running = s.running ∨
    (∃ v : Word, bus = some (.write Config.ctrlOffset .word v) ∧ v.getLsbD 0 = true ∧ a.running = none) ∨
    (∃ w, a.running = some w ∧ 0 < w.left ∧ s.running = none) := by
  rcases busPhase_effect bus s a h with ⟨v, hb, hv, e⟩ | ⟨_, v, r, _, _, _, _, e⟩ | ⟨v, _, e⟩ | ⟨v, i, _, hi, ht, he⟩ |
    ⟨_, v, _, _, hn, e⟩ | ⟨e, _, _⟩
  · exact .inr (.inl ⟨v, hb, hv, by rw [e]; rfl⟩)
  · exact .inl (by rw [e, (writeReg_effect _ r v).2.2.1])
  · exact .inl (by rw [e])
  · exact .inl (by rw [(event_effect i hi ht _ a he).1])
  · exact .inr (.inr ⟨_, by rw [e]; rfl, Nat.succ_pos _, hn⟩)
  · exact .inl (by rw [e])

end Sys2Proof.Machine
end

