-- ==== Sys2Proof/WellFormed.lean ====
section
/-! DEFINITION. Which instructions the assembler emits: LEN at most 256 (30_encoding R110, R124). -/

namespace Sys2Proof

/-- The legal values of LEN are 0..256 (30_encoding R110). -/
def Len.legal (len : Len) : Bool := decide (len.toNat ≤ 256)

/-- The assembler's check (30_encoding R124: "len is a decimal or 0x-hex number 0..256"). A command word with a
LEN of 257..511 still decodes, and its command completes with LEN_RANGE (30_encoding R118, log 21). -/
def Instr.wellFormed : Instr → Bool
  | .ecb _ => true
  | .cmac _ len => Len.legal len
  | .ctr _ len => Len.legal len
  | .derive => true
  | .sessRst => true
  | .jreqEnc => true
  | .jaccDec len => Len.legal len
  | .dataEnc len => Len.legal len
  | .dataDec len => Len.legal len
  | .evTxDone => true
  | .evRxOk => true
  | .evRxCrcErr => true
  | .evBoth => true
  | .evNone => true
  | .setClass _ => true
  | .srst => true
  | .irqAck _ => true
  | .tick => true

end Sys2Proof
end

