-- ==== Sys2Proof/Tests/Slice0.lean ====
section
/-! SUPPORT. Tests: the well-formedness smoke test, one word of the spec for every constructor's decoding, and the
vectors of 95_test_vectors, each about one step of a small state. Expected values are the spec's own. -/

namespace Sys2Proof.Machine.Test

-- Each evaluation by the kernel waits for the one before it, so side by side they only hold threads.
set_option Elab.async false

/-! ## WellFormed: the check refuses LEN 257 (30_encoding R124) -/

theorem test_wellFormed_refuses_long_cmac : (Instr.cmac 0 257).wellFormed = false := by decide
theorem test_wellFormed_refuses_long_ctr : (Instr.ctr 0 257).wellFormed = false := by decide
theorem test_wellFormed_refuses_long_jaccDec : (Instr.jaccDec 300).wellFormed = false := by decide
theorem test_wellFormed_refuses_long_dataEnc : (Instr.dataEnc 511).wellFormed = false := by decide
theorem test_wellFormed_refuses_long_dataDec : (Instr.dataDec 257).wellFormed = false := by decide
theorem test_wellFormed_takes_256 : (Instr.cmac 0 256).wellFormed = true := by decide

/-! ## Decoding: words of V-ENC and 30_encoding R119 to R124 -/

theorem test_decode_ecb : decodeCmd 0x00000101 = .ok (.ecb 1) := by decide
theorem test_decode_cmac : decodeCmd 0x00280302 = .ok (.cmac 3 40) := by decide
theorem test_decode_cmac_256 : decodeCmd 0x01000002 = .ok (.cmac 0 256) := by decide
theorem test_decode_cmac_257 : decodeCmd 0x01010002 = .ok (.cmac 0 257) := by decide
theorem test_decode_ctr : decodeCmd 0x00110203 = .ok (.ctr 2 17) := by decide
theorem test_decode_derive : decodeCmd 0x00000004 = .ok .derive := by decide
theorem test_decode_sessRst : decodeCmd 0x00000005 = .ok .sessRst := by decide
theorem test_decode_jreqEnc : decodeCmd 0x00000010 = .ok .jreqEnc := by decide
theorem test_decode_jaccDec : decodeCmd 0x00210011 = .ok (.jaccDec 33) := by decide
theorem test_decode_dataEnc : decodeCmd 0x00040012 = .ok (.dataEnc 4) := by decide
theorem test_decode_dataDec : decodeCmd 0x00110013 = .ok (.dataDec 17) := by decide
theorem test_decode_opcode_zero : decodeCmd 0x00000000 = .error .unknownOpcode := by decide
theorem test_decode_opcode_six : decodeCmd 0x00000006 = .error .unknownOpcode := by decide
theorem test_decode_ecb_with_len : decodeCmd 0x00010001 = .error .fieldMustBeZero := by decide
theorem test_decode_jreqEnc_with_ks : decodeCmd 0x00000110 = .error .fieldMustBeZero := by decide
theorem test_decode_reserved_bit_10 : decodeCmd 0x00000402 = .error .reservedBits := by decide
theorem test_decode_reserved_bit_25 : decodeCmd 0x02000002 = .error .reservedBits := by decide
theorem test_decode_event_0 : decode (.busWrite 0x21C 0) = .ok .evNone := by decide
theorem test_decode_event_1 : decode (.busWrite 0x21C 0b001) = .ok .evTxDone := by decide
theorem test_decode_event_2 : decode (.busWrite 0x21C 0b010) = .ok .evRxOk := by decide
theorem test_decode_event_3 : decode (.busWrite 0x21C 0b011) = .ok .evBoth := by decide
theorem test_decode_event_4 : decode (.busWrite 0x21C 0b100) = .ok .evNone := by decide
theorem test_decode_event_5 : decode (.busWrite 0x21C 0b101) = .ok .evTxDone := by decide
theorem test_decode_event_6 : decode (.busWrite 0x21C 0b110) = .ok .evRxCrcErr := by decide
theorem test_decode_event_7 : decode (.busWrite 0x21C 0xFFFFFFFF) = .ok .evBoth := by decide
theorem test_decode_setClass : decode (.busWrite 0x200 0xFFFFFFFF) = .ok (.setClass .c) := by decide
theorem test_decode_srst : decode (.busWrite 0x004 1) = .ok .srst := by decide
theorem test_decode_ctrl_zero : decode (.busWrite 0x004 0xFFFFFFFE) = .error .ctrlWithoutSrst := by decide
theorem test_decode_irqAck : decode (.busWrite 0x00C 0x1F) = .ok (.irqAck 0x1F) := by decide
theorem test_decode_tick : decode .msTick = .ok .tick := by decide
theorem test_decode_plain_write : decode (.busWrite 0x01C 1) = .error .plainWrite := by decide

/-! ## A small state to step -/

/-- The next state of an outcome. -/
def nextOf (o : StepOutcome) : State :=
  match o with
  | .next t => t
  | .fault _ => State.reset
  | .refused _ => State.reset

/-- One step that completes a command word placed on a state. -/
def runCmd (s : State) (w : Nat) : State := nextOf (step (s.withFetchWord 32 w))

/-- One step that writes EVENT. -/
def runEvent (s : State) (w : Nat) : State := nextOf (step (s.withFetchWord 8 w))

/-- One step with a bus access and perhaps a tick. -/
def runCycle (s : State) (bus : Option BusOp) (tick : Bool) : State :=
  nextOf (step { s with inputs := [{ rst := false, bus := bus, tick := tick }] })

/-- Reset, with other operand registers. -/
def onOp (o : Operands) : State := { State.reset with op := o }

/-- Reset, in a scheduler state at some TIME. -/
def inSched (q : SchedState) (cls : DevClass) (txEnd winOpen time : DWord) : State :=
  { State.reset with sched := { Sched.reset with
    schedState := q, cls := cls, txEndTs := txEnd, winOpenTs := winOpen, time := time } }

/-! ## The crypto commands (V-AES, V-CMAC, V-CTR, V-DERIVE) -/

/-- 00 01 … 0F, the FIPS-197 key. -/
def kF : Block := 0x0F0E0D0C0B0A09080706050403020100#128
/-- 2B 7E 15 16 …, the RFC 4493 key. -/
def k2 : Block := 0x3C4FCF098815F7ABA6D2AE2816157E2B#128
/-- 8D 7F 3B 4C …, E1's AppKey. -/
def kA : Block := 0x6F5E4D3C2B1A0F9E8D7C6B5A4C3B7F8D#128
/-- AA×16, E2's session keys. -/
def kAA : Block := 0xAAAAAAAAAAAAAAAAAAAAAAAAAAAAAAAA#128

/-- FIPS-197 C.1 in slot K3 (40_crypto R149, R160; P1's `ECB K3`). -/
theorem test_ecb_fips197 :
    (runCmd (onOp { Operands.reset with k3 := kF, blockIn := 0xFFEEDDCCBBAA99887766554433221100#128 }) 0x301).res.blockOut
      = 0x5AC5B47080B7CDD830047B6AD8E0C469#128 := by decide +kernel

/-- All zeros (40_crypto R160). -/
theorem test_ecb_zero :
    (runCmd State.reset 0x001).res.blockOut = 0x2E2B34CA59FA4C883B2C8AEFD44BE966#128 := by
  decide +kernel

/-- RFC 4493 example 1: the empty message (V-CMAC). -/
theorem test_cmac_empty :
    (runCmd (onOp { Operands.reset with k3 := k2 }) 0x302).res.macOut
      = 0x4667759B127DA37F283759E929691DBB#128 := by decide +kernel

/-- RFC 4493 example 2: a complete block (V-CMAC). -/
theorem test_cmac_16 :
    cmac k2 [0x6B, 0xC1, 0xBE, 0xE2, 0x2E, 0x40, 0x9F, 0x96, 0xE9, 0x3D, 0x7E, 0x11, 0x73, 0x93, 0x17, 0x2A]
      = 0x7C284AD09DDD9BF744414D6BB4160A07#128 := by decide +kernel

/-- One byte into block 2 (V-CMAC). -/
theorem test_cmac_17 :
    cmac k2 [0x6B, 0xC1, 0xBE, 0xE2, 0x2E, 0x40, 0x9F, 0x96, 0xE9, 0x3D, 0x7E, 0x11, 0x73, 0x93, 0x17, 0x2A, 0xAE]
      = 0xA4C2A2C10BB2CD4D43A1C58E16CC72BC#128 := by decide +kernel

/-- V-C1. -/
theorem test_ctr_vc1 :
    (runCmd (onOp (({ Operands.reset with k0 := kAA, blockIn := 0x77000000000726011BDA000000000001#128 }).storePbuf
      [0x01, 0x02, 0x03, 0x04])) 0x00040003).op.pbuf 4 = [0x0F, 0x38, 0x2F, 0x82] := by decide +kernel

/-- V-C2's byte 16: the second counter block. -/
theorem test_ctr_second_block :
    ctrxFrom k2 0x00000000000726011BDA000000000001#128 15 [0x0F, 0x10] = [0xB9, 0x3E] := by decide +kernel

/-- V-DERIVE. -/
theorem test_derive_keys :
    (let t := runCmd (onOp { Operands.reset with k0 := kA, jaAppNonce := 1, jaNetId := 0x13, devNonce := 1 }) 0x004
     (t.op.k1, t.op.k2)) = (0xC257E5560992A77106F32860CFD84BA8#128,
       0xE3E659DB16457BB45941150D6EF3DDC1#128) := by decide +kernel

/-! ## The codec (E1, V-JACC, V-DATA, V-SESS) -/

/-- E1: the whole Join-Request frame. -/
theorem test_jreqEnc_e1 :
    (let t := runCmd (onOp { Operands.reset with
        k0 := kA, appEui := 0x70B3D57ED00201A6, devEui := 0x0004A30B001C0530, devNonce := 1 }) 0x010
     (t.op.fbuf 23, t.res.resLen, t.res.mic))
      = ([0x00, 0xA6, 0x01, 0x02, 0xD0, 0x7E, 0xD5, 0xB3, 0x70, 0x30, 0x05, 0x1C, 0x00, 0x0B, 0xA3, 0x04, 0x00, 0x01, 0x00, 0x24, 0x0C, 0x23, 0x92], 23, 0x92230C24) := by
  decide +kernel

/-- V-J2: a joined core refuses it. -/
theorem test_jreqEnc_joined :
    (runCmd (onOp { Operands.reset with k1 := 1, k2 := 1, devAddr := 1 }) 0x010).errCode = .alreadyJoined := by
  decide +kernel

/-- A core waiting for a Join-Accept, with a frame in FBUF. -/
def joining (f : List Byte) : State := onOp (({ Operands.reset with k0 := kA, devNonce := 1 }).storeFbuf f)

/-- V-A1's frame. -/
def va1 : List Byte := [0x20, 0x5F, 0xB6, 0xC6, 0x06, 0xE2, 0xBB, 0x60, 0x06, 0x9C, 0x0B, 0x0F, 0x86, 0xD4, 0x6E, 0x27, 0x97]

/-- V-A1. -/
theorem test_jaccDec_va1 :
    (let t := runCmd (joining va1) 0x00110011
     (t.errCode, t.op.devAddr, t.op.jaNetId, t.res.jaParams, t.res.mic, t.op.joined))
      = (.ok, 0x26011BDA, 0x13, 0x20000100, 0xEDF207D6, true) := by decide +kernel

/-- V-A3: one flipped bit, BAD_MIC. -/
theorem test_jaccDec_va3 :
    (runCmd (joining (va1.take 16 ++ [0x96])) 0x00110011).errCode = .badMic := by decide +kernel

/-- E2's session, with a payload in PBUF. -/
def e2 : Operands :=
  ({ Operands.reset with k1 := kAA, k2 := kAA, devAddr := 0x26011BDA, fcntUp := 7, txHdr := 0x1000 }).storePbuf
    [0x01, 0x02, 0x03, 0x04]

/-- E2's frame. -/
def e2Frame : List Byte := [0x40, 0xDA, 0x1B, 0x01, 0x26, 0x00, 0x07, 0x00, 0x01, 0x0F, 0x38, 0x2F, 0x82, 0xE2, 0x8B, 0xCE, 0x11]

/-- E2: the encoded frame. -/
theorem test_dataEnc_e2 :
    (let t := runCmd (onOp e2) 0x00040012
     (t.op.fbuf 17, t.res.resLen, t.res.mic)) = (e2Frame, 17, 0x11CE8BE2) := by decide +kernel

/-- V-D6: a frame of 257 bytes. -/
theorem test_dataEnc_vd6 :
    (runCmd (onOp { e2 with txHdr := 0x1F00 }) 0x00E50012).errCode = .lenRange := by decide +kernel

/-- E2: decoding the loopback. -/
theorem test_dataDec_e2 :
    (let t := runCmd (onOp ((e2.storePbuf (zeros 4)).storeFbuf e2Frame)) 0x00110013
     (t.op.pbuf 4, t.res.resLen, t.res.rxInfo, t.res.rxFcnt, t.op.fcntDown))
      = ([0x01, 0x02, 0x03, 0x04], 4, 0x00300040, 7, 0) := by decide +kernel

/-- V-E7: the check order puts BAD_MHDR before WRONG_DEVADDR. -/
theorem test_dataDec_ve7 :
    (runCmd (onOp (e2.storeFbuf (0xE0 :: zeros 11))) 0x000C0013).errCode = .badMhdr := by decide +kernel

/-- V-SESS. -/
theorem test_sessRst_clears :
    (let t := runCmd (onOp { e2 with k0 := kA, fcntDown := 3 }) 0x005
     (t.op.devAddr, t.op.k1, t.op.k2, t.op.fcntUp, t.op.fcntDown, t.op.k0)) = (0, 0, 0, 0, 0, kA) := by decide +kernel

/-- V-I2 and V-ENC: an illegal command word completes with ILLEGAL_CMD and both command bits. -/
theorem test_illegal_word :
    (let t := runCmd State.reset 0
     (t.errCode, t.irqStatus, t.busy)) = (.illegalCmd, 0b00011, false) := by decide +kernel

/-! ## The scheduler (V-SCHED) -/

/-- V-S1: RX1 opens on tick 1000. -/
theorem test_tick_opens_rx1 :
    (let t := runCycle (inSched .wait1 .a 0 0 999) none true
     (t.sched.schedState, t.sched.radioAction, t.sched.winOpenTs)) = (.window1, .openRx1, 1000) := by decide +kernel

/-- V-S8: with WINDOW_MS = 1000 the first window is late at 2000. -/
theorem test_tick_late_window :
    (let s := inSched .window1 .a 0 1000 1999
     let t := runCycle { s with sched := { s.sched with windowMs := 1000 } } none true
     (t.sched.schedState, t.sched.radioAction)) = (.window2, .openRx2) := by decide +kernel

/-- RX1_CFG 0x7031 and 0x7805 (R251). -/
theorem test_rx1Dr_clamps : (rx1Dr 0x7025, rx1Dr 0x7031, rx1Dr 0x7805) = (3, 0, 8) := by decide +kernel

/-- V-S11: a second TX_DONE in Window1. -/
theorem test_evTxDone_in_window :
    (let t := runEvent (inSched .window1 .a 0 1000 1200) 1
     (t.sched.schedState, t.sched.txEndTs, t.irqStatus)) = (.wait1, 1200, 0b10000) := by decide +kernel

/-- V-S6: a packet in Class C. -/
theorem test_evRxOk_class_c :
    (let t := runEvent (inSched .window1 .c 0 1000 1100) 2
     (t.sched.schedState, t.sched.radioAction)) = (.continuous, .contRx2) := by decide +kernel

/-- V-S14: a packet in Idle, Class A: no action. -/
theorem test_evRxOk_idle : (runEvent State.reset 2).irqStatus = 0 := by decide +kernel

/-- V-S4: a CRC error does nothing. -/
theorem test_evRxCrcErr_nothing :
    (runEvent (inSched .window1 .a 0 1000 1050) 6).sched = (inSched .window1 .a 0 1000 1050).sched := by decide +kernel

/-- V-S12. -/
theorem test_evBoth_schedErr :
    (let t := runEvent (inSched .wait2 .a 0 1000 1600) 3
     (t.sched.schedState, t.irqStatus)) = (.wait2, 0b10000) := by decide +kernel

/-- 30_encoding R119: 0b100 has no effect. -/
theorem test_evNone_nothing :
    (let t := runEvent (inSched .wait2 .a 0 1000 1600) 4
     (t.sched.schedState, t.irqStatus)) = (.wait2, 0) := by decide +kernel

/-- R262: to Class C in Idle. -/
theorem test_setClass_c_idle :
    (let t := runCycle State.reset (some (.write 0x200 .word 1)) false
     (t.sched.schedState, t.sched.radioAction, t.sched.cls)) = (.continuous, .contRx2, .c) := by decide +kernel

/-- R262: a switch during a window emits nothing. -/
theorem test_setClass_in_window :
    (runCycle (inSched .window2 .c 0 2000 2100) (some (.write 0x200 .word 0)) false).irqStatus = 0 := by decide +kernel

/-! ## The bus, the IRQ bits and reset (V-IRQ, V-RST) -/

/-- V-I3. -/
theorem test_irqAck_one_bit :
    (runCycle { State.reset with irqStatus := 0b00011 } (some (.write 0x00C .word 1)) false).irqStatus = 0b00010 := by
  decide +kernel

/-- V-R2: soft reset keeps TIME. -/
theorem test_srst_keeps_time :
    (let t := runCycle { inSched .wait1 .c 0 0 5000 with op := { Operands.reset with k0 := kA } }
        (some (.write 0x004 .word 1)) false
     (t.sched.time, t.sched.cls, t.op.k0)) = (5000, .a, 0) := by decide +kernel

/-- V-I6: a read at 0x009 is a bus error. -/
theorem test_read_misaligned : (runCycle State.reset (some (.read 0x009 .word)) false).resp = some .error := by
  decide +kernel

/-- V-I7: so is a read of the unmapped 0x05C. -/
theorem test_read_unmapped : (runCycle State.reset (some (.read 0x05C .word)) false).resp = some .error := by
  decide +kernel

/-- V-R1. -/
theorem test_read_id : (runCycle State.reset (some (.read 0x000 .word)) false).resp = some (.data 0x4C570001) := by
  decide +kernel

/-- 20_memory R81: the key 00 01 … 0F in K[3] reads back as these words. -/
theorem test_key_words :
    (let s := onOp { Operands.reset with k3 := kF }
     (s.readReg (.key 3 0), s.readReg (.key 3 1), s.readReg (.key 3 2), s.readReg (.key 3 3)))
      = (0x03020100, 0x07060504, 0x0B0A0908, 0x0F0E0D0C) := by decide +kernel

/-- V-I9: a write of DEVADDR while BUSY is dropped. -/
theorem test_write_locked :
    (let t := runCycle { State.reset with running := some { cur := 1, snap := Operands.reset, left := 5 } }
        (some (.write 0x01C .word 1)) false
     (t.op.devAddr, t.irqStatus)) = (0, 0b01000) := by decide +kernel

/-- V-I10: TIME_LO latches the upper half. -/
theorem test_time_latch :
    (let t := runCycle (inSched .idle .a 0 0 0x100000005) (some (.read 0x230 .word)) true
     (t.resp, t.sched.timeHiLatch)) = (some (.data 5), 1) := by decide +kernel

/-- R242: a TX_DONE written in a tick's cycle is stamped with the TIME before it. -/
theorem test_txDone_before_tick :
    (let t := runCycle (inSched .idle .a 0 0 41) (some (.write 0x21C .word 1)) true
     (t.sched.txEndTs, t.sched.time)) = (41, 42) := by decide +kernel

/-- The host's word interface: a table word decodes to its row, and TICK has no word. -/
theorem test_table_words :
    (decodeTableWord 32 0x00110013, decodeTableWord 8 0b110, decodeTableWord 0 0)
      = (some (.dataDec 17), some .evRxCrcErr, some .tick) := by decide

end Sys2Proof.Machine.Test
end

