-- ==== Sys2Proof/Tests/Witnesses.lean ====
section
/-! SUPPORT. For every obligation with hypotheses, a concrete state and operands that meet all of them together, one
for each clause where it has several, at boundary values. -/

namespace Sys2Proof.Machine.Test

-- Each evaluation by the kernel waits for the one before it, so side by side they only hold threads.
set_option Elab.async false

open Sys2Proof.Claim

/-! ## States -/

/-- A state whose coming cycle has exactly this input. -/
def withCycle (s : State) (bus : Option BusOp) (tick : Bool) : State :=
  { s with inputs := [{ rst := false, bus := bus, tick := tick }] }

/-- A state whose coming cycle is a reset, with a write and a tick that have no effect. -/
def withReset (s : State) : State :=
  { s with inputs := [{ rst := true, bus := some (.write 0x004 .word 1), tick := true }] }

/-- A state with an accepted command and `left` cycles before the completing one. -/
def busyWith (s : State) (w : Word) (left : Nat) : State :=
  { s with running := some { cur := w, snap := s.op, left := left } }

/-- An outcome that is a next state. -/
def isNext (o : StepOutcome) : Bool :=
  match o with
  | .next _ => true
  | .fault _ => false
  | .refused _ => false

theorem eq_next_of_isNext {o : StepOutcome} (h : isNext o = true) : o = .next (nextOf o) := by
  cases o with
  | next s => rfl
  | fault e => cases e
  | refused r => cases h

/-! ## Encoding -/

theorem witness_LegalCommandWordHasOneMeaning : decodeCmd 0x01FF0302 = .ok (.cmac 3 511) := by decide

/-- Each clause of R113: an OPC, bits 15:10, bits 31:25, a KS, a LEN. -/
theorem witness_IllegalCommandWordsComplete_words :
    IllegalWord 0x00000000 ∧ IllegalWord 0x00000402 ∧ IllegalWord 0x80000002 ∧ IllegalWord 0x00000304 ∧
    IllegalWord 0x00010001 ∧ ¬IllegalWord 0x01FF0302 := by
  unfold IllegalWord
  refine ⟨?_, ?_, ?_, ?_, ?_, ?_⟩ <;> decide

theorem witness_IllegalCommandWordsComplete :
    let s := busyWith State.reset 0x00000000 0
    OnlyInput s none false ∧ Completes s { cur := 0, snap := s.op, left := 0 } ∧ IllegalWord 0 := by
  unfold OnlyInput Completes IllegalWord
  decide +kernel

/-- The highest mapped byte address's word, and an unmapped one. -/
theorem witness_AddressMapIsOneToOne :
    accessReg 0x5FC .word = some (.fbuf 63) ∧ accessReg 0x600 .word = none ∧ BusError 0x600 .word ∧
    ¬BusError 0x5FC .word := by
  unfold BusError
  decide +kernel

/-! ## The cycle -/

theorem witness_StepRunsAcceptedCommand :
    let s := busyWith State.reset 0x00000005 0
    OnlyInput s none false ∧ Completes s { cur := 5, snap := s.op, left := 0 } ∧
    decode (.busWrite 0x014 5) = .ok .sessRst := by
  unfold OnlyInput Completes
  decide +kernel

/-- Idle, and with a command in its last cycle. -/
theorem witness_StepRunsPortInstruction :
    let s := withCycle State.reset (some (.write 0x21C .word 1)) false
    OnlyInput s (some (.write 0x21C .word 1)) false ∧ s.running = none ∧
    OnlyInput (busyWith s 5 0) (some (.write 0x21C .word 1)) false ∧ (0x21C : Offset) ≠ 0x014 ∧
    decode (.busWrite 0x21C 1) = .ok .evTxDone := by
  unfold OnlyInput
  decide +kernel

theorem witness_StepRunsTick :
    let s := withCycle State.reset none true
    OnlyInput s none true ∧ s.running = none := by
  unfold OnlyInput
  decide +kernel

/-- An accepted write, a dropped one in the last cycle but one, and one in the completing cycle. -/
theorem witness_CmdWriteIsAcceptedOrDropped :
    let s := withCycle State.reset (some (.write 0x014 .word 5)) false
    OnlyInput s (some (.write 0x014 .word 5)) false ∧ s.running = none ∧
    OnlyInput (busyWith s 4 1) (some (.write 0x014 .word 5)) false ∧
    (busyWith s 4 1).running = some { cur := 4, snap := s.op, left := 0 + 1 } ∧
    (busyWith s 4 0).running = some { cur := 4, snap := s.op, left := 0 } := by
  unfold OnlyInput
  decide +kernel

/-- The ends of the locked range. -/
theorem witness_LockedWriteIsDropped_locked :
    LockedOffset 0x014 ∧ LockedOffset 0x13C ∧ LockedOffset 0x400 ∧ LockedOffset 0x5FC ∧
    ¬BusError 0x014 .word ∧ ¬BusError 0x13C .word ∧ ¬BusError 0x400 .word ∧ ¬BusError 0x5FC .word := by
  unfold BusError LockedOffset
  refine ⟨?_, ?_, ?_, ?_, ?_, ?_, ?_, ?_⟩ <;> decide

/-- The offsets next to the locked range. -/
theorem witness_LockedWriteIsDropped_open :
    ¬LockedOffset 0x010 ∧ ¬LockedOffset 0x200 ∧ ¬LockedOffset 0x234 ∧
    ¬BusError 0x010 .word ∧ ¬BusError 0x200 .word ∧ ¬BusError 0x234 .word := by
  unfold BusError LockedOffset
  refine ⟨?_, ?_, ?_, ?_, ?_, ?_⟩ <;> decide

/-- In the completing cycle: a locked write, an open one, and a CTRL write with SRST = 0. -/
theorem witness_LockedWriteIsDropped :
    (let s := withCycle (busyWith State.reset 5 0) (some (.write 0x5FC .word 1)) false
     WritesWord s 0x5FC 1 ∧ s.busy = true) ∧
    (let s := withCycle (busyWith State.reset 5 0) (some (.write 0x200 .word 1)) false
     WritesWord s 0x200 1 ∧ s.busy = true) ∧
    (let s := withCycle (busyWith State.reset 5 0) (some (.write 0x004 .word 0)) false
     WritesWord s 0x004 0 ∧ s.busy = true ∧ ¬((0x004 : Offset) = 0x004 ∧ (0 : Word).getLsbD 0 = true)) := by
  unfold WritesWord
  decide +kernel

theorem witness_HostAccessComesFirstInItsCycle :
    (let s := withCycle (busyWith State.reset 5 0) (some (.read 0x008 .word)) true
     s.nextInput.rst = false ∧ s.nextInput.bus = some (.read 0x008 .word) ∧
     Completes s { cur := 5, snap := s.op, left := 0 }) ∧
    (let s := withCycle State.reset (some (.write 0x21C .word 5)) true
     WritesWord s 0x21C 5 ∧ s.nextInput.tick = true ∧ (5 : Word).extractLsb' 0 2 = 1) := by
  unfold Completes WritesWord
  decide +kernel

theorem witness_CommandCompletesAfterItsLatency :
    let s := withCycle State.reset (some (.write 0x014 .word 5)) false
    s.running = none ∧ s.inputs = [{ rst := false, bus := some (.write 0x014 .word 5), tick := false }] ∧
    1 ≤ Config.cmdLatency 5 0 1 :=
  ⟨rfl, rfl, Nat.le_add_left 1 _⟩

/-! ## The bus -/

/-- Misaligned, narrow, and at the ends of the unmapped ranges. -/
theorem witness_BusErrorChangesNothing_offsets :
    BusError 0x001 .word ∧ BusError 0x000 .byte ∧ BusError 0x05C .word ∧ BusError 0x0B0 .word ∧
    BusError 0x0FC .word ∧ BusError 0x140 .word ∧ BusError 0x1FC .word ∧ BusError 0x238 .word ∧
    BusError 0x3FC .word ∧ BusError 0x600 .word ∧ BusError 0xFFC .word := by
  unfold BusError
  refine ⟨?_, ?_, ?_, ?_, ?_, ?_, ?_, ?_, ?_, ?_, ?_⟩ <;> decide

theorem witness_BusErrorChangesNothing :
    (let s := withCycle State.reset (some (.read 0x05C .word)) false
     s.nextInput.rst = false ∧ s.nextInput.bus = some (.read 0x05C .word)) ∧
    (let s := withCycle State.reset (some (.write 0xFFC .word 1)) false
     s.nextInput.rst = false ∧ s.nextInput.bus = some (.write 0xFFC .word 1)) := by
  decide +kernel

/-- An open offset while BUSY, TIME_LO, and both ends of the locked range while BUSY. -/
theorem witness_ReadAnswersAndChangesNothing :
    let s := busyWith State.reset 5 0
    (accessReg 0x010 .word = some .irqEnable ∧ ¬(s.busy = true ∧ LockedOffset 0x010) ∧ Reg.irqEnable ≠ .timeLo) ∧
    accessReg 0x230 .word = some .timeLo ∧
    (accessReg 0x014 .word = some .cmd ∧ s.busy = true ∧ LockedOffset 0x014) ∧
    (accessReg 0x5FC .word = some (.fbuf 63) ∧ s.busy = true ∧ LockedOffset 0x5FC) := by
  unfold LockedOffset
  decide +kernel

/-- A register wider than its field, and TIME_HI, whose latch is not the live half. -/
theorem witness_ReadAnswersAndChangesNothing_shown :
    shown { State.reset with res := { Results.reset with resLen := 256 } } .resLen = some 0x100 ∧
    shown (inSched .idle .a 0 0 0x100000000) .timeHi = some 0 := by decide

theorem witness_PlainWriteReadsBack : rwMask .devNonce ≠ 0 ∧ rwMask .resLen = 0 := by decide

theorem witness_PlainWriteLeavesOtherRegisters : Reg.appEuiHi ≠ .appEuiLo ∧ Reg.appEuiHi ≠ .status := by decide

/-- An open register while BUSY, and a locked one while idle. -/
theorem witness_HostWriteReachesItsRegister :
    (startsSomething .rxDelay1 = false ∧
      ¬((busyWith State.reset 5 0).busy = true ∧ LockedOffset (Reg.offset .rxDelay1))) ∧
    (startsSomething (.key 0 0) = false ∧ ¬(State.reset.busy = true ∧ LockedOffset (Reg.offset (.key 0 0)))) := by
  unfold LockedOffset
  decide +kernel

/-- CTRL with bit 0 = 0 and every other bit 1, while BUSY. -/
theorem witness_HostWriteReachesItsRegister_ctrl :
    (0xFFFFFFFE : Word).getLsbD 0 = false ∧
    OnlyInput (withCycle (busyWith State.reset 5 0) (some (.write 0x004 .word 0xFFFFFFFE)) false)
      (some (.write 0x004 .word 0xFFFFFFFE)) false := by
  unfold OnlyInput
  decide +kernel

/-! ## Status and interrupts -/

/-- The step of a joined core that completes JREQ_ENC changes ERRCODE. -/
theorem witness_ErrcodeChangesOnlyAtCompletionOrReset :
    let s := busyWith (onOp { Operands.reset with k1 := 1, k2 := 1, devAddr := 1 }) 0x010 0
    step s = .next (nextOf (step s)) ∧ (nextOf (step s)).errCode ≠ s.errCode :=
  ⟨eq_next_of_isNext (by decide +kernel), by decide +kernel⟩

theorem witness_IrqBitsAreSticky :
    let s := withCycle { State.reset with irqStatus := 0b10000 } (some (.write 0x00C .word 0x10)) false
    step s = .next (nextOf (step s)) ∧ s.irqStatus.getLsbD 4 = true ∧ (nextOf (step s)).irqStatus.getLsbD 4 = false :=
  ⟨eq_next_of_isNext (by decide +kernel), by decide +kernel, by decide +kernel⟩

/-- Each bit set by its own cause: a failed completion (bits 0 and 1), a tick (2), a dropped write (3), TX_DONE with
RX_DONE (4). -/
theorem witness_IrqBitsAreSticky_set :
    let joined := onOp { Operands.reset with k1 := 1, k2 := 1, devAddr := 1 }
    let sets (s : State) (i : Nat) : Prop :=
      step s = .next (nextOf (step s)) ∧ s.irqStatus.getLsbD i = false ∧ (nextOf (step s)).irqStatus.getLsbD i = true
    sets (busyWith joined 0x010 0) 0 ∧ sets (busyWith joined 0x010 0) 1 ∧
    sets (withCycle (inSched .wait1 .a 0 0 999) none true) 2 ∧
    sets (withCycle (busyWith State.reset 5 1) (some (.write 0x5FC .word 1)) false) 3 ∧
    sets (withCycle State.reset (some (.write 0x21C .word 3)) false) 4 :=
  ⟨⟨eq_next_of_isNext (by decide +kernel), by decide +kernel⟩, ⟨eq_next_of_isNext (by decide +kernel), by decide +kernel⟩,
    ⟨eq_next_of_isNext (by decide +kernel), by decide +kernel⟩, ⟨eq_next_of_isNext (by decide +kernel), by decide +kernel⟩,
    ⟨eq_next_of_isNext (by decide +kernel), by decide +kernel⟩⟩

/-- RADIO_REQ by a packet in a window of Class A, by one in Class C, by TX_DONE in Class C, and by a class switch. -/
theorem witness_IrqBitsAreSticky_emit :
    let sets (s : State) : Prop :=
      step s = .next (nextOf (step s)) ∧ s.irqStatus.getLsbD 2 = false ∧ (nextOf (step s)).irqStatus.getLsbD 2 = true
    sets (withCycle (inSched .window2 .a 0 0 5) (some (.write 0x21C .word 2)) false) ∧
    sets (withCycle (inSched .wait1 .c 0 0 5) (some (.write 0x21C .word 2)) false) ∧
    sets (withCycle (inSched .continuous .c 0 0 5) (some (.write 0x21C .word 1)) false) ∧
    sets (withCycle (inSched .wait2 .a 0 0 5) (some (.write 0x200 .word 1)) false) :=
  ⟨⟨eq_next_of_isNext (by decide +kernel), by decide +kernel⟩, ⟨eq_next_of_isNext (by decide +kernel), by decide +kernel⟩,
    ⟨eq_next_of_isNext (by decide +kernel), by decide +kernel⟩, ⟨eq_next_of_isNext (by decide +kernel), by decide +kernel⟩⟩

/-- A host clears CMD_DONE in the cycle of a completion, and RADIO_REQ in the cycle of a timed transition. -/
theorem witness_IrqBitsAreSticky_set_wins :
    (let s := withCycle (busyWith State.reset 5 0) (some (.write 0x00C .word 1)) false
     step s = .next (nextOf (step s)) ∧ ¬Resets s ∧ Completes s { cur := 5, snap := s.op, left := 0 }) ∧
    (let s := withCycle (inSched .wait1 .a 0 0 999) (some (.write 0x00C .word 4)) true
     step s = .next (nextOf (step s)) ∧ WritesWord s 0x00C 4 ∧
     (nextOf (step s)).sched.schedState ≠ s.sched.schedState) := by
  refine ⟨⟨eq_next_of_isNext (by decide +kernel), ?_, rfl, rfl⟩,
    eq_next_of_isNext (by decide +kernel), ⟨rfl, rfl⟩, by decide +kernel⟩
  rintro (h | ⟨v, ⟨_, h⟩, _⟩)
  · cases h
  · simp [withCycle, State.nextInput] at h

/-! ## Commands in general -/

theorem witness_EveryCommandCompletes : isCommand .derive = true := rfl

theorem witness_FailedCommandWritesNothingElse :
    let s := onOp { Operands.reset with k1 := 1, k2 := 1, devAddr := 1 }
    isCommand .jreqEnc = true ∧ exec .jreqEnc s = .next (nextOf (exec .jreqEnc s)) ∧
    (nextOf (exec .jreqEnc s)).errCode ≠ .ok ∧
    completeRunning 0 s = .next (nextOf (completeRunning 0 s)) ∧ (nextOf (completeRunning 0 s)).errCode ≠ .ok :=
  ⟨rfl, eq_next_of_isNext (by decide +kernel), by decide +kernel, eq_next_of_isNext (by decide +kernel),
    by decide +kernel⟩

theorem witness_CommandsCheckInFixedOrder : decodeCmd 0x00000110 = .error .fieldMustBeZero := by decide

theorem witness_SchedulerAndEngineAreIndependent :
    (isCommand .sessRst = true ∧ exec .sessRst State.reset = .next (nextOf (exec .sessRst State.reset))) ∧
    (isSchedulerOp .tick = true ∧ exec .tick State.reset = .next (nextOf (exec .tick State.reset))) ∧
    (0x200 ≤ (Reg.offset .schedCtrl).toNat ∧ (Reg.offset .timeHi).toNat ≤ 0x234) :=
  ⟨⟨rfl, eq_next_of_isNext (by decide +kernel)⟩, ⟨rfl, eq_next_of_isNext (by decide +kernel)⟩, by decide⟩

/-! ## The crypto commands -/

/-- The longest payload; a whole last block; the empty string and a partial last block. -/
theorem witness_CmacTagsPayload :
    (256 : Len).toNat ≤ 256 ∧ (0 < (zeros 16).length ∧ (zeros 16).length % 16 = 0) ∧
    ¬(0 < (zeros 0).length ∧ (zeros 0).length % 16 = 0) ∧ ¬(0 < (zeros 17).length ∧ (zeros 17).length % 16 = 0) := by
  decide

/-- The last byte of the longest string. -/
theorem witness_CtrxIsItsOwnInverse : 255 < (zeros 256).length := by decide +kernel

theorem witness_CtrTransformsPayloadInPlace : (0 : Len).toNat ≤ 256 ∧ (256 : Len).toNat ≤ 256 := by decide

theorem witness_CtrTwiceRestoresPayload :
    let t := nextOf (exec (.ctr 1 4) (onOp e2))
    (4 : Len).toNat ≤ 256 ∧ (onOp e2).snapshot = (onOp e2).op ∧ exec (.ctr 1 4) (onOp e2) = .next t ∧
    exec (.ctr 1 4) t = .next (nextOf (exec (.ctr 1 4) t)) :=
  ⟨by decide, rfl, eq_next_of_isNext (by decide +kernel), eq_next_of_isNext (by decide +kernel)⟩

/-! ## The frame codec -/

theorem witness_JreqEncBuildsJoinRequest : State.reset.snapshot.joined = false := by decide

/-- V-A2's frame of 33 bytes. -/
def va2 : List Byte := [0x20, 0xDF, 0x5B, 0x0F, 0x95, 0x79, 0x66, 0xE9, 0xB1, 0x35, 0x45, 0x62, 0xD2, 0xCC, 0x39, 0x13,
  0xDF, 0xFD, 0x7C, 0x43, 0x68, 0x5E, 0x8D, 0x75, 0xB8, 0x6A, 0x76, 0x07, 0xED, 0xB6, 0x7A, 0xCB, 0x5C]

/-- The MIC hypothesis of the statement about JACC_DEC. -/
def jaccMicOk (len : Len) (n : Operands) : Bool :=
  let p := joinPlain n.k0 (n.fbuf len.toNat)
  tag4 n.k0 (sub p 0 (len.toNat - 4)) == sub p (len.toNat - 4) 4

/-- V-A1, of 17 bytes. -/
theorem witness_JaccDecCommitsTheSession_17 :
    (joining va1).snapshot.joined = false ∧ (17 : Len).toNat = 17 ∧ jaccMicOk 17 (joining va1).snapshot = true := by
  decide +kernel

/-- V-A2, of 33 bytes. -/
theorem witness_JaccDecCommitsTheSession_33 :
    (joining va2).snapshot.joined = false ∧ (33 : Len).toNat = 33 ∧ jaccMicOk 33 (joining va2).snapshot = true := by
  decide +kernel

/-- The shortest frame, and the longest of 256 bytes. -/
theorem witness_DataEncBuildsTheFrame :
    (onOp e2).snapshot.joined = true ∧
    (12 + (e2.txHdr.extractLsb' 8 4).toNat + (if (0 : Len).toNat > 0 then 1 + (0 : Len).toNat else 0)) = 12 ∧
    (12 + (e2.txHdr.extractLsb' 8 4).toNat + (if (243 : Len).toNat > 0 then 1 + (243 : Len).toNat else 0)) = 256 := by
  decide +kernel

/-- A core with E2's session and a frame in FBUF. -/
def receiving (f : List Byte) : Operands := (e2.storePbuf (zeros 4)).storeFbuf f

/-- The hypotheses of the statement about DATA_DEC. -/
def dataDecOk (len : Len) (n : Operands) : Bool :=
  let L := len.toNat
  let f := n.fbuf L
  let mt := ((byteOf f 0).extractLsb' 5 3).toNat
  let dir := decide (mt = 3 ∨ mt = 5)
  let fol := ((byteOf f 5).extractLsb' 0 4).toNat
  let fcnt16 : BitVec 16 := BitVec.ofNat 16 (fromLE (sub f 6 2))
  let fcnt32 : Word := if dir then fcnt16.setWidth 32 else n.fcntUp.extractLsb' 16 16 ++ fcnt16
  decide (n.joined = true ∧ 12 + fol ≤ L ∧ L ≤ 256 ∧ (mt = 2 ∨ mt = 3 ∨ mt = 4 ∨ mt = 5) ∧
    sub f 1 4 = leBytes 4 n.devAddr.toNat ∧
    tag4 n.k1 (b0Bytes dir n.devAddr fcnt32 (L - 4) ++ sub f 0 (L - 4)) = sub f (L - 4) 4)

/-- E2's uplink frame. -/
theorem witness_DataDecAcceptsTheFrame_uplink : dataDecOk 17 (onOp (receiving e2Frame)).snapshot = true := by
  decide +kernel

/-- The shortest frame, a downlink that DATA_ENC built. -/
theorem witness_DataDecAcceptsTheFrame_downlink :
    dataDecOk 12 (nextOf (exec (.dataEnc 0) (onOp { e2 with txHdr := 0x00300000 }))).op = true := by
  decide +kernel

theorem witness_DataDecInvertsDataEnc :
    let t := nextOf (exec (.dataEnc 4) (onOp e2))
    (onOp e2).snapshot = (onOp e2).op ∧ exec (.dataEnc 4) (onOp e2) = .next t ∧ t.errCode = .ok :=
  ⟨rfl, eq_next_of_isNext (by decide +kernel), by decide +kernel⟩

/-! ## The scheduler -/

theorem witness_TickOutsideAnUplinkOnlyCounts :
    (inSched .idle .a 0 0 5).sched.schedState = .idle ∧
    (inSched .continuous .c 0 0 5).sched.schedState = .continuous := ⟨rfl, rfl⟩

/-- Each state, in the tick whose rule acts. -/
theorem witness_TickRunsTheTimedRule :
    (inSched .wait1 .a 0 0 999).sched.schedState = .wait1 ∧
    (inSched .window1 .c 0 1000 1499).sched.schedState = .window1 ∧
    (inSched .wait2 .a 0 1000 1999).sched.schedState = .wait2 ∧
    (inSched .window2 .c 0 2000 2499).sched.schedState = .window2 := ⟨rfl, rfl, rfl, rfl⟩

theorem witness_SetClassSwitchesTheClass :
    (inSched .idle .a 0 0 0).sched.cls = .a ∧ (inSched .continuous .c 0 0 0).sched.cls = .c := ⟨rfl, rfl⟩

theorem witness_SchedStateChangesOnlyByItsRules :
    let s := withCycle State.reset (some (.write 0x21C .word 1)) false
    step s = .next (nextOf (step s)) ∧ (nextOf (step s)).sched.schedState ≠ s.sched.schedState :=
  ⟨eq_next_of_isNext (by decide +kernel), by decide +kernel⟩

theorem witness_TimeCountsTicks :
    let s := withCycle State.reset none true
    step s = .next (nextOf (step s)) :=
  eq_next_of_isNext (by decide +kernel)

/-- The last TIME before the one that could wrap. -/
theorem witness_TimestampsStayInThePast :
    let s := withCycle (inSched .wait1 .a 7 7 0xFFFFFFFFFFFFFFFE) none true
    (s.sched.txEndTs.toNat ≤ s.sched.time.toNat ∧ s.sched.winOpenTs.toNat ≤ s.sched.time.toNat) ∧
    s.sched.time.toNat + 1 < 2 ^ 64 ∧ step s = .next (nextOf (step s)) :=
  ⟨by decide +kernel, by decide +kernel, eq_next_of_isNext (by decide +kernel)⟩

/-- Just after TX_DONE at TIME 7, with this timing. -/
def justSent (d w : Word) : State :=
  let s := inSched .wait1 .a 7 0 7
  { s with sched := { s.sched with rxDelay1 := d, windowMs := w } }

/-- The hypotheses of the statement about an uplink's windows. -/
def uplinkOk (s : State) : Bool :=
  decide (s.sched.schedState = .wait1 ∧ s.sched.txEndTs = s.sched.time ∧ 1 ≤ s.sched.rxDelay1.toNat ∧
    1 ≤ s.sched.windowMs.toNat ∧ s.sched.windowMs.toNat < 1000 ∧
    s.sched.time.toNat + s.sched.rxDelay1.toNat + 1000 + s.sched.windowMs.toNat < 2 ^ 64)

/-- The reset timing, and the limits D1 = 1, W = 1 and W = 999. -/
theorem witness_UplinkWindowsOpenOnTime :
    uplinkOk (justSent 1000 500) = true ∧ uplinkOk (justSent 1 1) = true ∧ uplinkOk (justSent 1 999) = true := by
  decide +kernel

/-! ## Whole machine -/

theorem witness_OnlyTheHostWritesAppKeyAndScratch :
    let s := withCycle State.reset (some (.write 0x13C .word 1)) false
    step s = .next (nextOf (step s)) ∧ (nextOf (step s)).op.key 3 ≠ s.op.key 3 :=
  ⟨eq_next_of_isNext (by decide +kernel), by decide +kernel⟩

/-- By SESSRST, and by the host. -/
theorem witness_FcntUpIsNeverIncremented :
    (let s := busyWith (onOp e2) 0x005 0
     step s = .next (nextOf (step s)) ∧ (nextOf (step s)).op.fcntUp ≠ s.op.fcntUp) ∧
    (let s := withCycle State.reset (some (.write 0x020 .word 8)) false
     step s = .next (nextOf (step s)) ∧ (nextOf (step s)).op.fcntUp ≠ s.op.fcntUp) :=
  ⟨⟨eq_next_of_isNext (by decide +kernel), by decide +kernel⟩,
    ⟨eq_next_of_isNext (by decide +kernel), by decide +kernel⟩⟩

theorem witness_HardResetGivesResetValues : (withReset (onOp e2)).nextInput.rst = true := rfl

theorem witness_SoftResetKeepsTime : (onOp e2).running = none := rfl

theorem witness_EveryStepKeepsInvariant :
    let s := withCycle State.reset (some (.write 0x400 .word 1)) true
    s.Inv ∧ step s = .next (nextOf (step s)) := by
  refine ⟨⟨⟨rfl, rfl, by decide⟩, ⟨by decide, by decide, by decide⟩, ⟨by decide, by decide, by decide⟩, rfl, by decide⟩,
    eq_next_of_isNext (by decide +kernel)⟩

end Sys2Proof.Machine.Test
end

section
/-! PROOFS. The invariant of every step (00_scope R12): each part of a cycle keeps it, said of the resets and of the
three phases that `step_phases` takes a step apart into. -/

namespace Sys2Proof.Machine

/-! ## How the invariant is put together -/

/-- A change of the scheduler keeps its invariant if it keeps R261's and RX1_CFG. -/
theorem Sched.Inv.of_classOk {c c' : Sched} (hc : c.Inv) (hclass : c.classOk → c'.classOk)
    (hcfg : c'.rx1Cfg = c.rx1Cfg) : c'.Inv := by
  obtain ⟨hnotCont, hnotIdle, hreserved⟩ := hc
  obtain ⟨hnotCont', hnotIdle'⟩ := hclass ⟨hnotCont, hnotIdle⟩
  exact ⟨hnotCont', hnotIdle', hcfg ▸ hreserved⟩

theorem and_mask_reserved (v mask : Word) : v &&& mask &&& ~~~mask = 0 := by
  rw [BitVec.and_assoc]
  ext i
  simp

/-- A change that leaves the operand and result registers alone keeps the invariant if the scheduler's own part of it
still holds, the snapshot is still the live operands and no free value's number comes back. -/
theorem State.Inv.of_same_registers {s t : State} (hs : s.Inv) (hop : t.op = s.op) (hres : t.res = s.res)
    (hsched : t.sched.Inv) (hsnap : t.snapshot = s.op) (hdraws : s.draws ≤ t.draws) : t.Inv := by
  obtain ⟨hopInv, hresInv, -, -, hepoch⟩ := hs
  exact ⟨hop ▸ hopInv, hres ▸ hresInv, hsched, hsnap.trans hop.symm, hop ▸ Nat.lt_of_lt_of_le hepoch hdraws⟩

/-! ## The resets (70_reset_and_hazards R330, R331) -/

theorem Operands.reset_txHdr_reserved : Operands.reset.txHdr &&& ~~~txHdrMask = 0 := by decide

theorem Results.reset_inv : Results.reset.Inv := by
  refine ⟨?_, ?_, ?_⟩ <;> decide

theorem Sched.reset_inv : Sched.reset.Inv := by
  refine ⟨?_, ?_, ?_⟩ <;> decide

theorem State.hardReset_inv (s : State) : s.hardReset.Inv :=
  ⟨⟨rfl, rfl, Operands.reset_txHdr_reserved⟩, Results.reset_inv, Sched.reset_inv, rfl, Nat.lt_succ_self _⟩

/-- A soft reset that aborts a command empties the written bytes and draws a new number for their contents; any other
keeps both. -/
theorem State.softReset_inv {s : State} (hs : s.Inv) : s.softReset.Inv := by
  obtain ⟨⟨hwf, hbuf, -⟩, -, -, -, hepoch⟩ := hs
  have hop : s.softReset.op.Inv ∧ s.softReset.op.bufEpoch < s.softReset.draws := by
    simp only [State.softReset_op, State.softReset_draws]
    cases s.busy with
    | true => exact ⟨⟨rfl, rfl, Operands.reset_txHdr_reserved⟩, Nat.lt_succ_self _⟩
    | false => exact ⟨⟨hwf, hbuf, Operands.reset_txHdr_reserved⟩, hepoch⟩
  exact ⟨hop.1, Results.reset_inv, Sched.reset_inv, rfl, hop.2⟩

/-! ## Plain writes (20_memory R86) -/

/-- A word written into a buffer stays inside the 0x400 to 0x5FF that both buffers fill. -/
theorem Operands.setBufWord_inv {o : Operands} (base j : Nat) (v : Word) (ho : o.Inv) (hbase : 0x400 ≤ base)
    (hend : base + 4 * j + 4 ≤ 0x600) : (o.setBufWord base j v).Inv :=
  o.store_inv _ _ ho (by omega) (by simpa using hend)

theorem State.writeReg_op_inv {s : State} (r : Reg) (v : Word) (ho : s.op.Inv) : (s.writeReg r v).op.Inv := by
  cases r with
  | txHdr =>
    obtain ⟨hwf, hbuf, -⟩ := ho
    exact ⟨hwf, hbuf, and_mask_reserved v txHdrMask⟩
  | key ks j => exact s.op.setKey_inv ks _ ho
  | pbuf j => exact Operands.setBufWord_inv _ _ v ho (by decide) (by have := j.isLt; simp only [Config.pbufBase]; omega)
  | fbuf j => exact Operands.setBufWord_inv _ _ v ho (by decide) (by have := j.isLt; simp only [Config.fbufBase]; omega)
  | _ => exact ho

theorem State.writeReg_sched_inv {s : State} (r : Reg) (v : Word) (hc : s.sched.Inv) : (s.writeReg r v).sched.Inv := by
  cases r with
  | rx1Cfg =>
    obtain ⟨hnotCont, hnotIdle, -⟩ := hc
    exact ⟨hnotCont, hnotIdle, and_mask_reserved v rx1CfgMask⟩
  | _ => exact hc

/-- Every register that a command reads lies in the locked range (30_encoding R115), so a plain write elsewhere leaves
the operands alone. -/
theorem State.writeReg_op_of_unlocked (s : State) (r : Reg) (v : Word) (hr : r.locked = false) :
    (s.writeReg r v).op = s.op := by
  cases r with
  | devNonce | devAddr | fcntUp | fcntDown | txHdr | appEuiLo | appEuiHi | devEuiLo | devEuiHi | jaAppNonce | jaNetId =>
    exact absurd hr (by decide)
  | txFopts j | blockIn j => exact absurd hr (by revert j; decide)
  | pbuf j | fbuf j => exact absurd hr (by revert j; decide)
  | key ks j => exact absurd hr (by revert ks j; decide)
  | _ => rfl

theorem State.writeReg_inv {s : State} (r : Reg) (v : Word) (hs : s.Inv)
    (hlock : ¬(s.busy = true ∧ r.locked = true)) : (s.writeReg r v).Inv := by
  obtain ⟨hop, hres, hsched, hsnap, hepoch⟩ := hs
  obtain ⟨-, -, hrun, hres', -, hdraws, -, -, -, -, -, -, -, hepoch'⟩ := writeReg_effect s r v
  refine ⟨State.writeReg_op_inv r v hop, hres' ▸ hres, State.writeReg_sched_inv r v hsched, ?_,
    by rwa [hepoch', hdraws]⟩
  cases hidle : s.running with
  | none => exact State.snapshot_of_idle _ (hrun.trans hidle)
  | some w =>
    have hunlocked : r.locked = false := by
      simpa using fun hl => hlock ⟨(State.busy_iff s).mpr ⟨w, hidle⟩, hl⟩
    rw [State.writeReg_op_of_unlocked s r v hunlocked, ← hsnap, State.snapshot, State.snapshot, hrun, hidle]

/-! ## The phases of a cycle (70_reset_and_hazards R343) -/

/-- The bus access: the lock holds the operands of a running command fixed, and a command is accepted with the live
operands as its snapshot. -/
theorem busPhase_inv {bus : Option BusOp} {s a : State} (hs : s.Inv) (h : busPhase bus s = .next a) : a.Inv := by
  have ⟨_, _, hsched, hsnap, _⟩ := hs
  have hdone : ({ s with resp := some .done } : State).Inv := hs
  rcases busPhase_effect bus s a h with ⟨v, _, _, rfl⟩ | ⟨off, v, r, _, _, hlock, _, rfl⟩ | ⟨v, _, rfl⟩ |
    ⟨v, i, _, hi, ht, he⟩ | ⟨off, v, _, _, _, rfl⟩ | ⟨e, _, hdraws⟩
  · exact State.softReset_inv hdone
  · exact State.writeReg_inv r v hdone hlock
  · exact hs
  · obtain ⟨e, _, _, _, _, hcfg, hclass⟩ := event_effect i hi ht _ a he
    have hsched' : a.sched.Inv := hsched.of_classOk hclass hcfg
    rw [e]
    exact hs.of_same_registers rfl rfl hsched' hsnap (Nat.le_refl _)
  · exact hs.of_same_registers rfl rfl hsched rfl (Nat.le_succ _)
  · rw [e]
    exact hs.of_same_registers rfl rfl hsched hsnap hdraws

/-- The engine: a cycle less to go, or a completion, which writes what `WritesKeep` allows or nothing. -/
theorem enginePhase_inv {s t : State} (hs : s.Inv) (h : enginePhase s = .next t) : t.Inv := by
  have ⟨hop, hres, hsched, hsnap, hepoch⟩ := hs
  rcases enginePhase_effect s t h with ⟨_, rfl⟩ | ⟨r, n, hrun, _, rfl⟩ |
    ⟨_, _, _, _, ⟨e, rfl⟩ | ⟨_, o, w, _, _, rfl, hkeep⟩⟩
  · exact hs
  · have hr : r.snap = s.op := by simpa only [State.snapshot, hrun] using hsnap
    exact hs.of_same_registers rfl rfl hsched hr (Nat.le_refl _)
  · exact hs.of_same_registers rfl rfl hsched rfl (Nat.le_refl _)
  · exact ⟨hkeep.opInv hop, hkeep.resInv hres, hsched, rfl, hkeep.bufEpoch.trans_lt hepoch⟩

/-- The tick: only the scheduler and IRQ_STATUS change, and R261 holds on. -/
theorem tickPhase_inv {b : Bool} {s t : State} (hs : s.Inv) (h : tickPhase b s = .next t) : t.Inv := by
  have ⟨_, _, hsched, hsnap, _⟩ := hs
  obtain ⟨e, _, _, _, _, _, hclass, hcfg⟩ := tickPhase_effect b s t h
  have hsched' : t.sched.Inv := hsched.of_classOk hclass hcfg
  rw [e]
  exact hs.of_same_registers rfl rfl hsched' hsnap (Nat.le_refl _)

/-- Settles O60: a hard reset gives the invariant, and the three phases of any other cycle each keep it. -/
theorem everyStepKeepsInvariant : Obligations.EveryStepKeepsInvariant := by
  intro s t hs h
  rcases step_phases h with ⟨_, rfl⟩ | ⟨_, a, b, hbus, hengine, htick⟩
  · exact State.hardReset_inv _
  · have hstart : ({ s.popInput with resp := none } : State).Inv := hs
    exact tickPhase_inv (enginePhase_inv (busPhase_inv hstart hbus) hengine) htick

end Sys2Proof.Machine
end

section
/-! PROOFS. The address map (20_memory R89, 30_encoding R115): an access reaches the one register of its offset, which is
no bus error, and the lock is a range of offsets. -/

namespace Sys2Proof.Machine

open Sys2Proof.Claim

/-- The offsets are those of R89's list. -/
theorem Reg.offset_toNat (r : Reg) : r.offset.toNat = mappedAt r := by
  cases r with
  | txFopts j | rxFopts j | blockIn j | blockOut j | macOut j | pbuf j | fbuf j =>
    simp [Reg.offset, wordOffset, mappedAt]
    omega
  | key ks j =>
    simp [Reg.offset, wordOffset, mappedAt]
    omega
  | _ => rfl

theorem Reg.offset_of_single {a : Nat} {r : Reg} (h : Reg.single a = some r) : r.offset.toNat = a := by
  unfold Reg.single at h
  split at h <;> cases h <;> rfl

/-- The eight families' index bits give back their word's offset; the other words are single registers. -/
theorem Reg.offset_of_ofOffset {off : Offset} {r : Reg} (h : Reg.ofOffset off = some r) : r.offset = off := by
  apply BitVec.eq_of_toNat_eq
  dsimp only [Reg.ofOffset] at h
  split at h
  · cases h
  iterate 8
    split at h
    · cases h; simp [Reg.offset, wordOffset]; omega
  exact Reg.offset_of_single h

theorem offset_of_accessReg {off : Offset} {size : AccessSize} {r : Reg} (h : accessReg off size = some r) :
    off = r.offset := by
  cases size_of_accessReg h
  exact (Reg.offset_of_ofOffset h).symm

/-- No mapped register lies at one of the offsets that R87 to R89 list as bus errors. -/
theorem not_busError_of_accessReg {off : Offset} {size : AccessSize} {r : Reg} (h : accessReg off size = some r) :
    ¬BusError off size := by
  cases size_of_accessReg h
  cases offset_of_accessReg h
  unfold BusError
  rw [Reg.offset_toNat]
  cases r with
  | txFopts j | rxFopts j | blockIn j | blockOut j | macOut j | pbuf j | fbuf j =>
    have := j.isLt
    simp [mappedAt]
    omega
  | key ks j =>
    have := j.isLt
    have := ks.isLt
    simp [mappedAt]
    omega
  | _ => decide

theorem Reg.locked_iff (r : Reg) : r.locked = true ↔ LockedOffset r.offset := by
  simp only [Reg.locked, LockedOffset, decide_eq_true_eq]
  omega

/-- The key file lies in the locked range. -/
theorem Reg.locked_key (ks : KeySlot) (j : BitVec 2) : (Reg.key ks j).locked = true := by
  rw [Reg.locked_iff, LockedOffset, Reg.offset_toNat]
  have := j.isLt
  have := ks.isLt
  simp only [mappedAt]
  omega

end Sys2Proof.Machine
end

section
/-! PROOFS. Reading (20_memory R85, 30_encoding R117): the value each register shows, STATUS, and what a read changes. -/

namespace Sys2Proof.Machine

open Sys2Proof.Claim

/-! ## The values shown (10_state) -/

/-- A short register's value on the bus has zeros above it. -/
theorem setWidth_eq_zeros_append {w : Nat} (n : Nat) (x : BitVec w) : x.setWidth (n + w) = 0#n ++ x := by
  ext i hi
  simp only [BitVec.getElem_setWidth, BitVec.getElem_append]
  split
  · rename_i h
    exact BitVec.getLsbD_eq_getElem h
  · simpa using BitVec.getLsbD_of_ge x i (by omega)

theorem SchedState.code_shown (q : SchedState) : q.code.setWidth 32 = stateNumber q := by
  cases q <;> rfl

theorem RadioAction.code_shown (a : RadioAction) : a.code.setWidth 32 = actionNumber a := by
  cases a <;> rfl

theorem ErrCode.code_eq_errNumber (e : ErrCode) : e.code = errNumber e := by
  cases e <;> rfl

theorem State.readReg_of_shown (s : State) (r : Reg) (w : Word) (h : shown s r = some w) : s.readReg r = w := by
  cases r with
  | irqStatus | irqEnable => cases h; exact setWidth_eq_zeros_append 27 _
  | devNonce | fcntDown | rxFcnt => cases h; exact setWidth_eq_zeros_append 16 _
  | resLen => cases h; exact setWidth_eq_zeros_append 23 _
  | jaAppNonce | jaNetId => cases h; exact setWidth_eq_zeros_append 8 _
  | rx1Dr => cases h; exact setWidth_eq_zeros_append 28 _
  | schedCtrl => cases h; simp only [State.readReg]; cases s.sched.cls <;> rfl
  | schedState => cases h; exact SchedState.code_shown _
  | radioAction => cases h; exact RadioAction.code_shown _
  | status | txFopts | rxFopts | blockIn | blockOut | macOut | key | pbuf | fbuf => cases h
  | _ => cases h; rfl

/-! ## STATUS (10_state R34, R40) -/

theorem Operands.joined_iff (o : Operands) : o.joined = true ↔ o.devAddr ≠ 0 ∧ o.k1 ≠ 0 ∧ o.k2 ≠ 0 := by
  simp [Operands.joined, and_assoc]

/-- Settles O21: BUSY, JOINED and ERRCODE lie in fields of STATUS that do not overlap, whatever their values are. -/
theorem statusShowsBusyJoinedErrcode : Obligations.StatusShowsBusyJoinedErrcode := by
  refine ⟨Operands.joined_iff, fun s => ?_⟩
  rw [← Operands.joined_iff, ← ErrCode.code_eq_errNumber]
  simp only [State.readReg, State.statusWord, State.busy]
  generalize s.running.isSome = busy, s.op.joined = joined, s.errCode.code = e
  refine ⟨by simp, by simp, ?_, ?_, ?_⟩
  · ext i hi
    simp
    omega
  · ext i hi
    simp [show 8 + i < 32 by omega, BitVec.getLsbD_eq_getElem hi]
  · ext i hi
    simpa using fun _ _ _ => BitVec.getLsbD_of_ge e (12 + i - 8) (by omega)

/-! ## Bus reads (20_memory R85, 30_encoding R117) -/

theorem State.busRead_of_locked {s : State} {off : Offset} {r : Reg} (h : accessReg off .word = some r)
    (hbusy : s.busy = true) (hlock : r.locked = true) :
    s.busRead off .word = { s with resp := some (.data (Config.busyReadData s.draws)), draws := s.draws + 1 } := by
  simp [State.busRead, h, hbusy, hlock]

theorem State.busRead_of_open {s : State} {off : Offset} {r : Reg} (h : accessReg off .word = some r)
    (hopen : ¬(s.busy = true ∧ r.locked = true)) :
    s.busRead off .word = { s.readEffect r with resp := some (.data (s.readReg r)) } := by
  simp [State.busRead, h, hopen]

/-- Settles O16: a read is open (locked register while BUSY) or answers the register's value, and TIME_LO, which is never
locked, is the only register whose read has an effect. -/
theorem readAnswersAndChangesNothing : Obligations.ReadAnswersAndChangesNothing := by
  refine ⟨State.readReg_of_shown, fun s off r h => ?_⟩
  cases offset_of_accessReg h
  rw [← Reg.locked_iff]
  refine ⟨fun hopen hr => ?_, fun hr => ?_, fun ⟨hbusy, hlock⟩ => ⟨_, State.busRead_of_locked h hbusy hlock⟩⟩
  · rw [State.busRead_of_open h hopen, State.readEffect, if_neg hr]
  · subst hr
    have hunlocked : Reg.locked .timeLo = false := by decide
    rw [State.busRead_of_open h (by simp [hunlocked]), State.readEffect, if_pos rfl]
    rfl

end Sys2Proof.Machine
end

section
/-! PROOFS. Who may change a register in a cycle: TIME, ERRCODE, the host's two keys and FCNTUP, each followed through the
three phases of a cycle that no reset cuts short (70_reset_and_hazards R343). -/

namespace Sys2Proof.Machine

open Sys2Proof.Claim

/-! ## A cycle without a reset -/

/-- This bus access is a soft reset: a write of 1 to CTRL.SRST (30_encoding R121). -/
def SoftResets (bus : Option BusOp) : Prop :=
  ∃ v : Word, bus = some (.write Config.ctrlOffset .word v) ∧ v.getLsbD 0 = true

theorem resets_of_softResets {s : State} (hrst : s.nextInput.rst = false) (h : SoftResets s.nextInput.bus) :
    Resets s := by
  obtain ⟨v, hbus, hv⟩ := h
  exact .inr ⟨v, ⟨hrst, hbus⟩, hv⟩

/-- A step that resets nothing is the three phases in order, and its bus access is no soft reset. -/
theorem step_phases_of_not_resets {s t : State} (h : step s = .next t) (hr : ¬Resets s) :
    s.nextInput.rst = false ∧ ¬SoftResets s.nextInput.bus ∧
    ∃ a b, busPhase s.nextInput.bus { s.popInput with resp := none } = .next a ∧ enginePhase a = .next b ∧
      tickPhase s.nextInput.tick b = .next t := by
  rcases step_phases h with ⟨hrst, -⟩ | ⟨hrst, hphases⟩
  · exact absurd (.inl hrst) hr
  · exact ⟨hrst, fun hs => hr (resets_of_softResets hrst hs), hphases⟩

/-- A command that stands at its completion after the bus access stood there before it: a command accepted in this cycle
has its whole latency, at least 1, to go (30_encoding R116). -/
theorem busPhase_completing {bus : Option BusOp} {s a : State} (h : busPhase bus s = .next a) {r : Running}
    (ha : a.running = some r) (hleft : r.left = 0) : s.running = some r := by
  rcases busPhase_running bus s a h with e | ⟨_, _, _, e⟩ | ⟨w, e, hw, _⟩
  · exact e ▸ ha
  · rw [e] at ha
    cases ha
  · rw [e] at ha
    cases ha
    omega

theorem busPhase_running_of_busy {bus : Option BusOp} {s a : State} (h : busPhase bus s = .next a)
    (hs : ¬SoftResets bus) {r : Running} (hr : s.running = some r) : a.running = some r := by
  rcases busPhase_running bus s a h with e | ⟨v, hbus, hv, _⟩ | ⟨_, _, _, hnone⟩
  · exact e ▸ hr
  · exact absurd ⟨v, hbus, hv⟩ hs
  · rw [hnone] at hr
    cases hr

/-! ## TIME (42_scheduler R240, 10_state R71) -/

/-- No bus access moves TIME: a soft reset keeps it, and no register of it can be written. -/
theorem busPhase_time {bus : Option BusOp} {s a : State} (h : busPhase bus s = .next a) :
    a.sched.time = s.sched.time := by
  rcases busPhase_effect bus s a h with ⟨_, _, _, e⟩ | ⟨_, v, r, _, _, _, _, e⟩ | ⟨_, _, e⟩ |
    ⟨_, i, _, hi, ht, he⟩ | ⟨_, _, _, _, _, e⟩ | ⟨e, _, _⟩
  · rw [e]; rfl
  · obtain ⟨-, -, -, -, -, -, -, -, htime, -⟩ := writeReg_effect { s with resp := some .done } r v
    rw [e, htime]
  · rw [e]
  · obtain ⟨-, -, htime, -⟩ := event_effect i hi ht _ a he
    exact htime
  · rw [e]; rfl
  · rw [e]

/-- Settles O52: only the tick's phase and a hard reset move TIME. -/
theorem timeCountsTicks : Obligations.TimeCountsTicks := by
  intro s t h
  rcases step_phases h with ⟨hrst, rfl⟩ | ⟨hrst, a, b, hbus, hengine, htick⟩
  · rw [hrst]; rfl
  · obtain ⟨-, -, -, htime, -⟩ := tickPhase_effect _ b t htick
    obtain ⟨hsched, -⟩ := enginePhase_keeps a b hengine
    rw [htime, hsched, busPhase_time hbus, hrst]
    rfl

/-! ## ERRCODE (10_state R34) -/

theorem busPhase_errCode {bus : Option BusOp} {s a : State} (h : busPhase bus s = .next a) (hs : ¬SoftResets bus) :
    a.errCode = s.errCode := by
  rcases busPhase_effect bus s a h with ⟨v, hbus, hv, _⟩ | ⟨_, v, r, _, _, _, _, e⟩ | ⟨_, _, e⟩ |
    ⟨_, i, _, hi, ht, he⟩ | ⟨_, _, _, _, _, e⟩ | ⟨e, _, _⟩
  · exact absurd ⟨v, hbus, hv⟩ hs
  · obtain ⟨herr, -⟩ := writeReg_effect { s with resp := some .done } r v
    rw [e, herr]
  · rw [e]
  · rw [(event_effect i hi ht _ a he).1]
  · rw [e]; rfl
  · rw [e]

theorem enginePhase_errCode {s t : State} (h : enginePhase s = .next t) :
    t.errCode = s.errCode ∨ ∃ r, s.running = some r ∧ r.left = 0 := by
  rcases enginePhase_effect s t h with ⟨_, rfl⟩ | ⟨_, _, _, _, rfl⟩ | ⟨r, hr, hleft, _⟩
  · exact .inl rfl
  · exact .inl rfl
  · exact .inr ⟨r, hr, hleft⟩

theorem tickPhase_errCode {b : Bool} {s t : State} (h : tickPhase b s = .next t) : t.errCode = s.errCode := by
  rw [(tickPhase_effect b s t h).1]

/-- Settles O22: without a reset, only the engine's completion writes ERRCODE. -/
theorem errcodeChangesOnlyAtCompletionOrReset : Obligations.ErrcodeChangesOnlyAtCompletionOrReset := by
  intro s t h hne
  by_cases hr : Resets s
  · exact .inl hr
  obtain ⟨-, hsoft, a, b, hbus, hengine, htick⟩ := step_phases_of_not_resets h hr
  rcases enginePhase_errCode hengine with e | ⟨r, hrun, hleft⟩
  · exact absurd ((tickPhase_errCode htick).trans (e.trans (busPhase_errCode hbus hsoft))) hne
  · exact .inr ⟨r, busPhase_completing hbus hrun hleft, hleft⟩

/-! ## The operands: who writes them in which phase -/

/-- Without a soft reset, a bus access changes the operands by a plain write only. -/
theorem busPhase_op {bus : Option BusOp} {s a : State} (h : busPhase bus s = .next a) (hs : ¬SoftResets bus) :
    a.op = s.op ∨ ∃ (r : Reg) (v : Word), bus = some (.write r.offset .word v) ∧ ¬(s.busy = true ∧ r.locked = true) ∧
      a = State.writeReg { s with resp := some .done } r v := by
  rcases busPhase_effect bus s a h with ⟨v, hbus, hv, _⟩ | ⟨off, v, r, hbus, hacc, hlock, _, e⟩ | ⟨_, _, e⟩ |
    ⟨_, i, _, hi, ht, he⟩ | ⟨_, _, _, _, _, e⟩ | ⟨e, _, _⟩
  · exact absurd ⟨v, hbus, hv⟩ hs
  · cases offset_of_accessReg hacc
    exact .inr ⟨r, v, hbus, hlock, e⟩
  · exact .inl (by rw [e])
  · exact .inl (by rw [(event_effect i hi ht _ a he).1])
  · exact .inl (by rw [e]; rfl)
  · exact .inl (by rw [e])

theorem tickPhase_op {b : Bool} {s t : State} (h : tickPhase b s = .next t) : t.op = s.op := by
  rw [(tickPhase_effect b s t h).1]

/-! ## K[0] and K[3] (10_state R38) -/

theorem keySlot_cases : ∀ ks : KeySlot, ks = 0 ∨ ks = 1 ∨ ks = 2 ∨ ks = 3 := by decide

theorem Operands.key_setKey_of_ne (o : Operands) {ks ks' : KeySlot} (v : Block) (hne : ks' ≠ ks) :
    (o.setKey ks' v).key ks = o.key ks := by
  revert hne
  rcases keySlot_cases ks' with rfl | rfl | rfl | rfl <;> rcases keySlot_cases ks with rfl | rfl | rfl | rfl <;>
    simp [Operands.key, Operands.setKey]

theorem State.writeReg_key (s : State) (r : Reg) (v : Word) (ks : KeySlot) :
    (s.writeReg r v).op.key ks = s.op.key ks ∨ ∃ j, r = .key ks j := by
  cases r with
  | key ks' j =>
    by_cases hks : ks' = ks
    · exact .inr ⟨j, by rw [hks]⟩
    · exact .inl (s.op.key_setKey_of_ne _ hks)
  | _ => exact .inl rfl

/-- A bus access that changes a key slot is a host write of one of its words, with no command running, since the key file
is locked while BUSY (30_encoding R115). -/
theorem busPhase_key {bus : Option BusOp} {s a : State} (h : busPhase bus s = .next a) (hs : ¬SoftResets bus)
    (ks : KeySlot) :
    a.op.key ks = s.op.key ks ∨
    ∃ (j : BitVec 2) (v : Word), bus = some (.write (Reg.key ks j).offset .word v) ∧ s.busy = false := by
  rcases busPhase_op h hs with e | ⟨r, v, hbus, hlock, rfl⟩
  · exact .inl (by rw [e])
  · rcases State.writeReg_key { s with resp := some .done } r v ks with e | ⟨j, rfl⟩
    · exact .inl e
    · exact .inr ⟨j, v, hbus, by simpa [Reg.locked_key] using hlock⟩

/-- No command writes the host's two slots. -/
theorem enginePhase_hostKeys {s t : State} (h : enginePhase s = .next t) {ks : KeySlot} (hks : ks = 0 ∨ ks = 3) :
    t.op.key ks = s.op.key ks := by
  rcases enginePhase_effect s t h with ⟨_, rfl⟩ | ⟨_, _, _, _, rfl⟩ | ⟨_, _, _, _, ⟨e, rfl⟩ | ⟨_, o, w, _, _, rfl, hkeep⟩⟩
  · rfl
  · rfl
  · rfl
  · rcases hks with rfl | rfl
    · exact hkeep.k0
    · exact hkeep.k3

/-- Settles O55: in a cycle without a reset only the bus access can write these slots. -/
theorem onlyTheHostWritesAppKeyAndScratch : Obligations.OnlyTheHostWritesAppKeyAndScratch := by
  intro s t ks hks h hne
  by_cases hr : Resets s
  · exact .inl hr
  obtain ⟨hrst, hsoft, a, b, hbus, hengine, htick⟩ := step_phases_of_not_resets h hr
  rw [tickPhase_op htick, enginePhase_hostKeys hengine hks] at hne
  rcases busPhase_key hbus hsoft ks with e | ⟨j, v, hwrite, hidle⟩
  · exact absurd e hne
  · exact .inr ⟨j, v, ⟨hrst, hwrite⟩, hidle⟩

/-! ## FCNTUP (10_state R43) -/

theorem Operands.setKey_fcntUp (o : Operands) (ks : KeySlot) (v : Block) : (o.setKey ks v).fcntUp = o.fcntUp := by
  rcases keySlot_cases ks with rfl | rfl | rfl | rfl <;> rfl

theorem State.writeReg_fcntUp (s : State) (r : Reg) (v : Word) :
    (s.writeReg r v).op.fcntUp = s.op.fcntUp ∨ (r = .fcntUp ∧ (s.writeReg r v).op.fcntUp = v) := by
  cases r with
  | fcntUp => exact .inr ⟨rfl, rfl⟩
  | key ks j => exact .inl (s.op.setKey_fcntUp ks _)
  | _ => exact .inl rfl

/-- A bus access that changes FCNTUP writes the new value to it, and leaves no command running, since FCNTUP is locked while
BUSY (30_encoding R115). -/
theorem busPhase_fcntUp {bus : Option BusOp} {s a : State} (h : busPhase bus s = .next a) (hs : ¬SoftResets bus) :
    a.op.fcntUp = s.op.fcntUp ∨ (bus = some (.write 0x020 .word a.op.fcntUp) ∧ a.running = none) := by
  rcases busPhase_op h hs with e | ⟨r, v, hbus, hlock, rfl⟩
  · exact .inl (by rw [e])
  · rcases State.writeReg_fcntUp { s with resp := some .done } r v with e | ⟨rfl, e⟩
    · exact .inl e
    · have hlocked : Reg.locked .fcntUp = true := by decide
      have hidle : s.running = none := by simpa [hlocked, State.busy] using hlock
      exact .inr ⟨by rw [e]; exact hbus, hidle⟩

theorem Operands.storeFbuf_fcntUp (o : Operands) (bs : List Byte) : (o.storeFbuf bs).fcntUp = o.fcntUp := rfl

theorem ctrResult_fcntUp {ks : KeySlot} {len : Len} {n o o' : Operands} {r r' : Results}
    (h : ctrResult ks len n o r = .ok (o', r')) : o'.fcntUp = o.fcntUp := by
  obtain ⟨-, h⟩ := checkLen_ok h
  cases h
  rfl

theorem jreqResult_fcntUp {n o o' : Operands} {r r' : Results} (h : jreqResult n o r = .ok (o', r')) :
    o'.fcntUp = o.fcntUp := by
  unfold jreqResult at h
  split at h
  · cases h
  · cases h
    exact o.storeFbuf_fcntUp _

theorem jaccCommit_fcntUp (p : List Byte) (n o : Operands) (r : Results) : (jaccCommit p n o r).1.fcntUp = 0 := by
  unfold jaccCommit
  split <;> rfl

theorem jaccResult_fcntUp {len : Len} {n o o' : Operands} {r r' : Results} (h : jaccResult len n o r = .ok (o', r')) :
    o'.fcntUp = 0 := by
  obtain ⟨-, h⟩ := checkLen_ok h
  split at h
  · cases h
  · split at h
    · cases h
    · dsimp only at h
      split at h
      · cases h
      · have hc := jaccCommit_fcntUp (jaccPlain n.k0 (n.fbuf len.toNat)) n o r
        rwa [Except.ok.inj h] at hc

theorem dataEncResult_fcntUp {len : Len} {n o o' : Operands} {r r' : Results}
    (h : dataEncResult len n o r = .ok (o', r')) : o'.fcntUp = o.fcntUp := by
  obtain ⟨-, h⟩ := checkLen_ok h
  dsimp only at h
  repeat' split at h
  all_goals cases h
  rfl

theorem dataDecResult_fcntUp {len : Len} {n o o' : Operands} {r r' : Results}
    (h : dataDecResult len n o r = .ok (o', r')) : o'.fcntUp = o.fcntUp := by
  obtain ⟨-, h⟩ := checkLen_ok h
  dsimp only at h
  repeat' split at h
  all_goals cases h
  rfl

/-- Only JACC_DEC and SESSRST write FCNTUP, and they write 0. -/
theorem command_fcntUp (i : Instr) (hi : isCommand i = true) (s t : State) (h : exec i s = .next t) :
    t.op.fcntUp = s.op.fcntUp ∨ (t.op.fcntUp = 0 ∧ (i = .sessRst ∨ ∃ len, i = .jaccDec len)) := by
  have keep (x : CmdResult) (hx : ∀ o r, x = .ok (o, r) → o.fcntUp = s.op.fcntUp)
      (ht : (.next (s.complete x) : StepOutcome) = .next t) : t.op.fcntUp = s.op.fcntUp := by
    cases x with
    | ok p => cases ht; exact hx _ _ rfl
    | error e => cases ht; rfl
  cases i with
  | ecb ks => exact .inl (keep _ (fun o r h => by cases h; rfl) h)
  | cmac ks len => exact .inl (keep _ (fun o r h => by obtain ⟨-, h⟩ := checkLen_ok h; cases h; rfl) h)
  | ctr ks len => exact .inl (keep _ (fun o r h => ctrResult_fcntUp h) h)
  | derive => exact .inl (keep _ (fun o r h => by cases h; rfl) h)
  | sessRst => cases h; exact .inr ⟨rfl, .inl rfl⟩
  | jreqEnc => exact .inl (keep _ (fun o r h => jreqResult_fcntUp h) h)
  | jaccDec len =>
    cases h
    rcases s.complete_cases (jaccResult len s.snapshot s.op s.res) with ⟨o, r, hx, e⟩ | ⟨er, _, e⟩
    · exact .inr ⟨by rw [e]; exact jaccResult_fcntUp hx, .inr ⟨len, rfl⟩⟩
    · exact .inl (by rw [e]; rfl)
  | dataEnc len => exact .inl (keep _ (fun o r h => dataEncResult_fcntUp h) h)
  | dataDec len => exact .inl (keep _ (fun o r h => dataDecResult_fcntUp h) h)
  | _ => cases hi

/-- A decoded command word is what the row of its OPC makes of its KS and LEN (30_encoding R112). -/
theorem decodeCmd_row {w : Word} {i : Instr} (h : decodeCmd w = .ok i) :
    ∃ row ∈ opcodeMap, row.opc = cmdOpc w ∧ i = row.make (cmdKs w) (cmdLen w) := by
  unfold decodeCmd at h
  split at h
  · cases h
  · rename_i row hrow
    refine ⟨row, List.mem_of_find?_eq_some hrow, by simpa using List.find?_some hrow, ?_⟩
    split at h
    · cases h
    · split at h <;> cases h
      rfl

theorem opcodeMap_sessRst :
    ∀ row ∈ opcodeMap, ∀ ks len, row.make ks len = .sessRst → row.opc = 0x05 := by
  simp [opcodeMap]

theorem opcodeMap_jaccDec :
    ∀ row ∈ opcodeMap, ∀ ks len len', row.make ks len = .jaccDec len' → row.opc = 0x11 := by
  simp [opcodeMap]

theorem cmdOpc_of_decodeCmd_sessRst {w : Word} (h : decodeCmd w = .ok .sessRst) : cmdOpc w = 0x05 := by
  obtain ⟨row, hmem, hopc, hmake⟩ := decodeCmd_row h
  exact hopc.symm.trans (opcodeMap_sessRst row hmem _ _ hmake.symm)

theorem cmdOpc_of_decodeCmd_jaccDec {w : Word} {len : Len} (h : decodeCmd w = .ok (.jaccDec len)) :
    cmdOpc w = 0x11 := by
  obtain ⟨row, hmem, hopc, hmake⟩ := decodeCmd_row h
  exact hopc.symm.trans (opcodeMap_jaccDec row hmem _ _ _ hmake.symm)

theorem enginePhase_fcntUp {s t : State} (h : enginePhase s = .next t) :
    t.op.fcntUp = s.op.fcntUp ∨
    (t.op.fcntUp = 0 ∧ ∃ r, s.running = some r ∧ r.left = 0 ∧ (cmdOpc r.cur = 0x05 ∨ cmdOpc r.cur = 0x11)) := by
  rcases enginePhase_effect s t h with ⟨_, rfl⟩ | ⟨_, _, _, _, rfl⟩ |
    ⟨r, hr, hleft, _, ⟨e, rfl⟩ | ⟨i, o, w, hdec, hexec, _, _⟩⟩
  · exact .inl rfl
  · exact .inl rfl
  · exact .inl rfl
  · rcases command_fcntUp i (isCommand_of_decodeCmd hdec) s t hexec with e | ⟨e, rfl | ⟨len, rfl⟩⟩
    · exact .inl e
    · exact .inr ⟨e, r, hr, hleft, .inl (cmdOpc_of_decodeCmd_sessRst hdec)⟩
    · exact .inr ⟨e, r, hr, hleft, .inr (cmdOpc_of_decodeCmd_jaccDec hdec)⟩

/-- Settles O56: the engine writes FCNTUP only in those two completions, and in a cycle in which the host writes it no
command runs. -/
theorem fcntUpIsNeverIncremented : Obligations.FcntUpIsNeverIncremented := by
  intro s t h hne
  by_cases hr : Resets s
  · exact .inl hr
  obtain ⟨hrst, hsoft, a, b, hbus, hengine, htick⟩ := step_phases_of_not_resets h hr
  rw [tickPhase_op htick] at hne ⊢
  rcases enginePhase_fcntUp hengine with e | ⟨e, r, hrun, hleft, hopc⟩
  · rw [e] at hne ⊢
    rcases busPhase_fcntUp hbus hsoft with e' | ⟨hwrite, -⟩
    · exact absurd e' hne
    · exact .inr (.inl ⟨hrst, hwrite⟩)
  · exact .inr (.inr ⟨e, r, ⟨busPhase_completing hbus hrun hleft, hleft⟩, hopc⟩)

end Sys2Proof.Machine
end

section
/-! PROOFS. IRQ_STATUS (10_state R35, 60_exceptions R298 to R302): which part of a cycle clears a bit, which sets one, and
that a reset sets none. -/

namespace Sys2Proof.Machine

open Sys2Proof.Claim

/-! ## The bits (10_state R35) -/

theorem getLsbD_of_eq_twoPow {w n : Nat} {m : BitVec w} (hm : m = BitVec.twoPow w n) (hn : n < w) (i : Nat) :
    m.getLsbD i = decide (i = n) := by
  simp [hm, BitVec.getLsbD_twoPow, hn, eq_comm]

theorem Irq.getLsbD_cmdDone (i : Nat) : Irq.cmdDone.getLsbD i = decide (i = 0) :=
  getLsbD_of_eq_twoPow (m := Irq.cmdDone) rfl (by decide) i

theorem Irq.getLsbD_cmdErr (i : Nat) : Irq.cmdErr.getLsbD i = decide (i = 1) :=
  getLsbD_of_eq_twoPow (m := Irq.cmdErr) rfl (by decide) i

theorem Irq.getLsbD_radioReq (i : Nat) : Irq.radioReq.getLsbD i = decide (i = 2) :=
  getLsbD_of_eq_twoPow (m := Irq.radioReq) rfl (by decide) i

theorem Irq.getLsbD_overrun (i : Nat) : Irq.overrun.getLsbD i = decide (i = 3) :=
  getLsbD_of_eq_twoPow (m := Irq.overrun) rfl (by decide) i

theorem Irq.getLsbD_schedErr (i : Nat) : Irq.schedErr.getLsbD i = decide (i = 4) :=
  getLsbD_of_eq_twoPow (m := Irq.schedErr) rfl (by decide) i

/-- `x ||| y = y` says that no bit falls from `x` to `y`. -/
theorem getLsbD_of_or_eq {w : Nat} {x y : BitVec w} (h : x ||| y = y) {i : Nat} (hx : x.getLsbD i = true) :
    y.getLsbD i = true := by
  rw [← h, BitVec.getLsbD_or, hx, Bool.true_or]

/-- A bit that appears when a mask is raised is one of the mask. -/
theorem getLsbD_of_raised {w : Nat} {x y m : BitVec w} (h : y = x ||| m) {i : Nat} (hx : x.getLsbD i = false)
    (hy : y.getLsbD i = true) : m.getLsbD i = true := by
  rw [h, BitVec.getLsbD_or, hx, Bool.false_or] at hy
  exact hy

/-! ## What clears a bit (30_encoding R122) -/

/-- Without a soft reset, a bit that falls in the bus access is written as 1 to IRQ_STATUS. -/
theorem busPhase_irq_clear {bus : Option BusOp} {s a : State} (h : busPhase bus s = .next a) (hs : ¬SoftResets bus)
    {i : Nat} (hset : s.irqStatus.getLsbD i = true) (hclear : a.irqStatus.getLsbD i = false) :
    ∃ v : Word, bus = some (.write Config.irqStatusOffset .word v) ∧ v.getLsbD i = true := by
  have absurd_of_or (e : s.irqStatus ||| a.irqStatus = a.irqStatus) : False :=
    Bool.false_ne_true (hclear.symm.trans (getLsbD_of_or_eq e hset))
  rcases busPhase_effect bus s a h with ⟨v, hbus, hv, _⟩ | ⟨_, v, r, _, _, _, _, e⟩ | ⟨v, hbus, e⟩ |
    ⟨_, j, _, hj, ht, he⟩ | ⟨_, _, _, _, _, e⟩ | ⟨_, e, _⟩
  · exact absurd ⟨v, hbus, hv⟩ hs
  · obtain ⟨-, hirq, -⟩ := writeReg_effect { s with resp := some .done } r v
    exact (absurd_of_or (by rw [e, hirq]; exact BitVec.or_self)).elim
  · rw [e] at hclear
    have hi : i < 5 := BitVec.lt_of_getLsbD hset
    exact ⟨v, hbus, by simpa [hset, hi] using hclear⟩
  · obtain ⟨-, hor, -⟩ := event_effect j hj ht _ a he
    exact (absurd_of_or hor).elim
  · exact (absurd_of_or (by rw [e]; exact BitVec.or_self)).elim
  · exact (absurd_of_or e).elim

/-! ## A reset sets none (60_exceptions R301) -/

/-- A write to an unlocked port other than CMD runs the instruction it decodes to, BUSY or not. -/
theorem busPhase_port {s : State} {off : Offset} {v : Word} {r : Reg} {i : Instr}
    (hacc : accessReg off .word = some r) (hunlocked : r.locked = false) (hcmd : r ≠ .cmd)
    (hdec : decode (.busWrite off v) = .ok i) :
    busPhase (some (.write off .word v)) s = exec i { s with resp := some .done } := by
  simp only [busPhase, busWrite, hacc, hunlocked, hcmd, hdec, Bool.and_false, Bool.false_eq_true, if_false]

theorem busPhase_softReset (s : State) {v : Word} (hv : v.getLsbD 0 = true) :
    busPhase (some (.write 0x004 .word v)) s = .next (State.softReset { s with resp := some .done }) := by
  have hdec : decode (.busWrite 0x004 v) = .ok .srst := by
    simp [decode, hv, Config.cmdOffset, Config.eventOffset, Config.schedCtrlOffset, Config.ctrlOffset]
  exact busPhase_port (r := .ctrl) (by decide) (by decide) (by decide) hdec

theorem busPhase_irqAck (s : State) (v : Word) :
    busPhase (some (.write 0x00C .word v)) s =
      .next (State.clearIrq { s with resp := some .done } (v.extractLsb' 0 5)) := by
  have hdec : decode (.busWrite 0x00C v) = .ok (.irqAck (v.extractLsb' 0 5)) := by
    simp [decode, Config.cmdOffset, Config.eventOffset, Config.schedCtrlOffset, Config.ctrlOffset,
      Config.irqStatusOffset]
  exact busPhase_port (r := .irqStatus) (by decide) (by decide) (by decide) hdec

theorem enginePhase_of_idle {s : State} (h : s.running = none) : enginePhase s = .next s := by
  simp [enginePhase, h]

/-- In Idle a tick raises nothing. -/
theorem tickPhase_irq_of_idle {b : Bool} {s t : State} (h : tickPhase b s = .next t)
    (hidle : s.sched.schedState = .idle) : t.irqStatus = s.irqStatus := by
  rw [tickPhase_eq] at h
  cases b with
  | false => cases h; rfl
  | true =>
    simp only [if_true, exec, execTick, Host.Outcome.next.injEq] at h
    simp [← h, State.schedStep, hidle]

/-- After a soft reset no command runs and the scheduler is Idle, so the rest of the cycle raises nothing either. -/
theorem irqStatus_of_resets {s t : State} (h : step s = .next t) (hr : Resets s) : t.irqStatus = 0 := by
  rcases step_phases h with ⟨_, rfl⟩ | ⟨hrst, a, b, hbus, hengine, htick⟩
  · rfl
  · rcases hr with hrst' | ⟨v, ⟨_, hwrite⟩, hv⟩
    · rw [hrst] at hrst'
      cases hrst'
    · rw [hwrite, busPhase_softReset _ hv] at hbus
      cases hbus
      rw [enginePhase_of_idle rfl] at hengine
      cases hengine
      exact tickPhase_irq_of_idle htick rfl

/-! ## What the events set (42_scheduler R245, R255 to R257, R262) -/

theorem exec_evTxDone_irq {s t : State} (h : exec .evTxDone s = .next t) :
    t.irqStatus = s.irqStatus ||| ((if s.sched.schedState.serving = true then Irq.schedErr else 0) |||
      (if s.sched.cls = .c then Irq.radioReq else 0)) := by
  simp only [exec, execEvTxDone, Host.Outcome.next.injEq] at h
  subst h
  by_cases hserving : s.sched.schedState.serving = true <;> by_cases hc : s.sched.cls = .c <;>
    simp [hserving, hc, BitVec.or_assoc]

theorem exec_evRxOk_irq {s t : State} (h : exec .evRxOk s = .next t) :
    t.irqStatus = s.irqStatus ∨ (t.irqStatus = s.irqStatus ||| Irq.radioReq ∧
      ((s.sched.cls = .a ∧ (s.sched.schedState = .window1 ∨ s.sched.schedState = .window2)) ∨
        (s.sched.cls = .c ∧ s.sched.schedState ≠ .continuous))) := by
  simp only [exec, execEvRxOk] at h
  cases hc : s.sched.cls with
  | a =>
    by_cases hw : s.sched.schedState = .window1 ∨ s.sched.schedState = .window2 <;>
      simp only [hc, hw, if_true, if_false, Host.Outcome.next.injEq] at h <;> subst h
    · exact .inr ⟨rfl, .inl ⟨rfl, hw⟩⟩
    · exact .inl rfl
  | c =>
    by_cases hq : s.sched.schedState = .continuous <;>
      simp only [hc, hq, reduceCtorEq, if_true, if_false, ne_eq, not_true, not_false_iff,
        Host.Outcome.next.injEq] at h <;> subst h
    · exact .inl rfl
    · exact .inr ⟨rfl, .inr ⟨rfl, hq⟩⟩

theorem exec_setClass_irq {cls : DevClass} {s t : State} (h : exec (.setClass cls) s = .next t) :
    t.irqStatus = s.irqStatus ∨ (t.irqStatus = s.irqStatus ||| Irq.radioReq ∧ s.sched.cls ≠ cls ∧
      s.sched.schedState ≠ .window1 ∧ s.sched.schedState ≠ .window2) := by
  simp only [exec, execSetClass, Host.Outcome.next.injEq] at h
  subst h
  by_cases hcls : s.sched.cls = cls
  · exact .inl (by rw [if_pos hcls])
  · rw [if_neg hcls]
    cases cls <;> cases hq : s.sched.schedState <;> simp [hcls]

theorem SchedState.serving_iff {q : SchedState} : q.serving = true ↔ q ≠ .idle ∧ q ≠ .continuous := by
  cases q <;> decide

/-- What the three bits of EVENT name (42_scheduler R245). -/
theorem decodeEvent_cases (v : Word) :
    (v.extractLsb' 0 2 = 0b11 ∧ decodeEvent v = .evBoth) ∨
    (v.extractLsb' 0 2 = 0b01 ∧ decodeEvent v = .evTxDone) ∨
    (v.extractLsb' 0 3 = 0b010 ∧ decodeEvent v = .evRxOk) ∨
    (v.extractLsb' 0 3 = 0b110 ∧ decodeEvent v = .evRxCrcErr) ∨
    (v.extractLsb' 0 2 = 0b00 ∧ decodeEvent v = .evNone) := by
  have h0 : v.getLsbD 0 = (v.extractLsb' 0 3).getLsbD 0 := by simp
  have h1 : v.getLsbD 1 = (v.extractLsb' 0 3).getLsbD 1 := by simp
  have h2 : v.getLsbD 2 = (v.extractLsb' 0 3).getLsbD 2 := by simp
  have hlow : v.extractLsb' 0 2 = (v.extractLsb' 0 3).extractLsb' 0 2 := by
    ext i hi
    simp
  unfold decodeEvent
  rw [h0, h1, h2, hlow]
  generalize v.extractLsb' 0 3 = w
  revert w
  decide

/-! ## What sets a bit (60_exceptions R298, R301) -/

/-- CLASS is set to v[0] (30_encoding R120), so a class switch writes the other class's bit. -/
theorem getLsbD_ne_class {cls : DevClass} {v : Word} (h : cls ≠ decodeClass v) :
    v.getLsbD 0 ≠ decide (cls = .c) := by
  unfold decodeClass at h
  cases hv : v.getLsbD 0 <;> rw [hv] at h <;> cases cls
  · exact absurd rfl h
  · decide
  · decide
  · exact absurd rfl h

/-- A bit that an event raises is RADIO_REQ or SCHED_ERR, under the conditions of 42_scheduler R245 and R255 to R257. -/
theorem setsIrqBit_of_event {s t a : State} {i : Nat} {v : Word} {resp : Option BusResp} (hw : WritesWord s 0x21C v)
    (h : exec (decodeEvent v) { s.popInput with resp := resp } = .next a)
    (hclear : s.irqStatus.getLsbD i = false) (hset : a.irqStatus.getLsbD i = true) : SetsIrqBit s t i := by
  have hchanged : a.irqStatus ≠ s.irqStatus := fun e => by
    rw [e, hclear] at hset
    cases hset
  rcases decodeEvent_cases v with ⟨hv, hd⟩ | ⟨hv, hd⟩ | ⟨hv, hd⟩ | ⟨-, hd⟩ | ⟨-, hd⟩ <;> rw [hd] at h
  · cases h
    have hi : i = 4 := by simpa [Irq.getLsbD_schedErr] using getLsbD_of_raised rfl hclear hset
    subst hi
    exact ⟨v, hw, .inl hv⟩
  · have hbit := getLsbD_of_raised (exec_evTxDone_irq h) hclear hset
    rw [BitVec.getLsbD_or, Bool.or_eq_true] at hbit
    rcases hbit with hbit | hbit
    · split at hbit
      · rename_i hserving
        have hi : i = 4 := by simpa [Irq.getLsbD_schedErr] using hbit
        subst hi
        exact ⟨v, hw, .inr ⟨hv, SchedState.serving_iff.mp hserving⟩⟩
      · simp at hbit
    · split at hbit
      · rename_i hc
        have hi : i = 2 := by simpa [Irq.getLsbD_radioReq] using hbit
        subst hi
        exact .inr ⟨v, .inl ⟨hw, hv, hc⟩⟩
      · simp at hbit
  · rcases exec_evRxOk_irq h with e | ⟨e, hcond⟩
    · exact absurd e hchanged
    · have hi : i = 2 := by simpa [Irq.getLsbD_radioReq] using getLsbD_of_raised e hclear hset
      subst hi
      rcases hcond with ⟨hc, hq⟩ | ⟨hc, hq⟩
      · exact .inr ⟨v, .inr (.inl ⟨hw, hv, hc, hq⟩)⟩
      · exact .inr ⟨v, .inr (.inr (.inl ⟨hw, hv, hc, hq⟩))⟩
  · cases h
    exact absurd rfl hchanged
  · cases h
    exact absurd rfl hchanged

/-- A bit that appears in the bus access is OVERRUN of a dropped write, or a bit that the event or the class switch
raises. -/
theorem setsIrqBit_of_busPhase {s t a : State} {i : Nat} (hrst : s.nextInput.rst = false)
    (h : busPhase s.nextInput.bus { s.popInput with resp := none } = .next a)
    (hclear : s.irqStatus.getLsbD i = false) (hset : a.irqStatus.getLsbD i = true) : SetsIrqBit s t i := by
  rcases busPhase_irq _ _ a h with hfall | ⟨off, v, r, hbus, hacc, hbusy, hlock, e⟩ |
    ⟨v, _, ⟨hbus, rfl⟩ | ⟨hbus, rfl⟩, hexec⟩
  · exact (Bool.false_ne_true (hclear.symm.trans (hfall i hset))).elim
  · have hi : i = 3 := by simpa [Irq.getLsbD_overrun] using getLsbD_of_raised e hclear hset
    subst hi
    rw [Reg.locked_iff, ← offset_of_accessReg hacc] at hlock
    exact ⟨off, v, ⟨hrst, hbus⟩, hbusy, hlock, not_busError_of_accessReg hacc⟩
  · exact setsIrqBit_of_event ⟨hrst, hbus⟩ hexec hclear hset
  · rcases exec_setClass_irq hexec with e | ⟨e, hcls, hwindow1, hwindow2⟩
    · exact (Bool.false_ne_true (hclear.symm.trans (e ▸ hset))).elim
    · have hi : i = 2 := by simpa [Irq.getLsbD_radioReq] using getLsbD_of_raised e hclear hset
      subst hi
      exact .inr ⟨v, .inr (.inr (.inr ⟨⟨hrst, hbus⟩, getLsbD_ne_class hcls, hwindow1, hwindow2⟩))⟩

theorem setsIrqBit_of_enginePhase {s t a b : State} {i : Nat} {bus : Option BusOp}
    (hbus : busPhase bus { s.popInput with resp := none } = .next a) (h : enginePhase a = .next b)
    (herr : t.errCode = b.errCode) (hclear : a.irqStatus.getLsbD i = false) (hset : b.irqStatus.getLsbD i = true) :
    SetsIrqBit s t i := by
  rcases enginePhase_irq a b h with ⟨e, -⟩ | ⟨r, hrun, hleft, e⟩
  · rw [e, hclear] at hset
    cases hset
  · have hcompletes : Completes s r := ⟨busPhase_completing hbus hrun hleft, hleft⟩
    rw [BitVec.or_assoc] at e
    have hbit := getLsbD_of_raised e hclear hset
    rw [BitVec.getLsbD_or, Irq.getLsbD_cmdDone] at hbit
    by_cases hok : b.errCode = .ok
    · have hi : i = 0 := by simpa [hok] using hbit
      subst hi
      exact ⟨r, hcompletes⟩
    · have hi : i = 0 ∨ i = 1 := by simpa [hok, Irq.getLsbD_cmdErr] using hbit
      rcases hi with rfl | rfl
      · exact ⟨r, hcompletes⟩
      · exact ⟨⟨r, hcompletes⟩, by rwa [herr]⟩

theorem setsIrqBit_of_tickPhase {s t b : State} {i : Nat} (h : tickPhase s.nextInput.tick b = .next t)
    (hclear : b.irqStatus.getLsbD i = false) (hset : t.irqStatus.getLsbD i = true) : SetsIrqBit s t i := by
  rcases tickPhase_irq _ b t h with ⟨e, -⟩ | ⟨htick, e⟩
  · rw [e, hclear] at hset
    cases hset
  · have hi : i = 2 := by simpa [Irq.getLsbD_radioReq] using getLsbD_of_raised e hclear hset
    subst hi
    exact .inl htick

/-! ## The four clauses -/

theorem irq_clear_only_by_ack {s t : State} {i : Nat} (h : step s = .next t) (hset : s.irqStatus.getLsbD i = true)
    (hclear : t.irqStatus.getLsbD i = false) : Resets s ∨ ∃ v, WritesWord s 0x00C v ∧ v.getLsbD i = true := by
  by_cases hr : Resets s
  · exact .inl hr
  obtain ⟨hrst, hsoft, a, b, hbus, hengine, htick⟩ := step_phases_of_not_resets h hr
  obtain ⟨-, -, -, -, -, -, hengineOr⟩ := enginePhase_keeps a b hengine
  obtain ⟨-, htickOr, -⟩ := tickPhase_effect _ b t htick
  have hclear' : a.irqStatus.getLsbD i = false := by
    rw [← Bool.not_eq_true] at hclear ⊢
    exact fun ha => hclear (getLsbD_of_or_eq htickOr (getLsbD_of_or_eq hengineOr ha))
  obtain ⟨v, hwrite, hv⟩ := busPhase_irq_clear hbus hsoft hset hclear'
  exact .inr ⟨v, ⟨hrst, hwrite⟩, hv⟩

theorem irq_set_by_own_condition {s t : State} {i : Nat} (h : step s = .next t)
    (hclear : s.irqStatus.getLsbD i = false) (hset : t.irqStatus.getLsbD i = true) : ¬Resets s ∧ SetsIrqBit s t i := by
  have hr : ¬Resets s := fun hr => by
    rw [irqStatus_of_resets h hr] at hset
    simp at hset
  obtain ⟨hrst, hsoft, a, b, hbus, hengine, htick⟩ := step_phases_of_not_resets h hr
  refine ⟨hr, ?_⟩
  cases ha : a.irqStatus.getLsbD i with
  | true => exact setsIrqBit_of_busPhase hrst hbus hclear ha
  | false =>
    cases hb : b.irqStatus.getLsbD i with
    | true => exact setsIrqBit_of_enginePhase hbus hengine (tickPhase_errCode htick) ha hb
    | false => exact setsIrqBit_of_tickPhase htick hb hset

theorem irq_set_by_completion {s t : State} {r : Running} (h : step s = .next t) (hr : ¬Resets s)
    (hc : Completes s r) :
    t.irqStatus.getLsbD 0 = true ∧ (t.errCode ≠ .ok → t.irqStatus.getLsbD 1 = true) := by
  obtain ⟨hrst, hsoft, a, b, hbus, hengine, htick⟩ := step_phases_of_not_resets h hr
  obtain ⟨hrun, hleft⟩ := hc
  obtain ⟨-, htickOr, -⟩ := tickPhase_effect _ b t htick
  rw [tickPhase_errCode htick]
  rcases enginePhase_irq a b hengine with ⟨-, hnot⟩ | ⟨_, _, _, e⟩
  · exact absurd hleft (hnot r (busPhase_running_of_busy hbus hsoft hrun))
  · refine ⟨getLsbD_of_or_eq htickOr ?_, fun hne => getLsbD_of_or_eq htickOr ?_⟩
    · simp [e, Irq.getLsbD_cmdDone]
    · simp [e, hne, Irq.getLsbD_cmdErr]

/-- An acknowledgement moves no scheduler state, and the engine none either, so the tick moved it. -/
theorem radioReq_set_by_timed_transition {s t : State} {v : Word} (h : step s = .next t) (hw : WritesWord s 0x00C v)
    (hne : t.sched.schedState ≠ s.sched.schedState) : t.irqStatus.getLsbD 2 = true := by
  obtain ⟨hrst, hbusOp⟩ := hw
  rcases step_phases h with ⟨hrst', -⟩ | ⟨-, a, b, hbus, hengine, htick⟩
  · rw [hrst] at hrst'
    cases hrst'
  · rw [hbusOp, busPhase_irqAck] at hbus
    cases hbus
    obtain ⟨hsched, -⟩ := enginePhase_keeps _ b hengine
    rcases tickPhase_irq _ b t htick with ⟨-, e⟩ | ⟨-, e⟩
    · exact absurd (by rw [e, hsched]; rfl) hne
    · simp [e, Irq.getLsbD_radioReq]

/-- Settles O23, clause by clause. -/
theorem irqBitsAreSticky : Obligations.IrqBitsAreSticky :=
  ⟨fun _ _ _ h hset hclear => irq_clear_only_by_ack h hset hclear,
    fun _ _ _ h hclear hset => irq_set_by_own_condition h hclear hset,
    fun _ _ _ h hr hc => irq_set_by_completion h hr hc,
    fun _ _ _ h hw hne => radioReq_set_by_timed_transition h hw hne⟩

end Sys2Proof.Machine
end

section
/-! PROOFS. The address map, second part (20_memory R89): a whole-word access at a register's own offset reaches it, so no
two registers share an offset, and every offset that is no bus error has a register. -/

namespace Sys2Proof.Machine

open Sys2Proof.Claim

/-- Every aligned offset of the two blocks of single-word registers has its register. -/
theorem Reg.exists_single {a : Nat} (haligned : a % 4 = 0) (ha : a < 0x05C ∨ (0x200 ≤ a ∧ a < 0x238)) :
    ∃ r, Reg.single a = some r := by
  have low : ∀ k < 23, (Reg.single (4 * k)).isSome = true := by decide
  have high : ∀ k < 14, (Reg.single (0x200 + 4 * k)).isSome = true := by decide
  rw [← Option.isSome_iff_exists]
  rcases ha with ha | ⟨hge, hlt⟩
  · rw [show a = 4 * (a / 4) by omega]
    exact low _ (by omega)
  · rw [show a = 0x200 + 4 * ((a - 0x200) / 4) by omega]
    exact high _ (by omega)

theorem Reg.exists_ofOffset {off : Offset} (h : ¬BusError off .word) : ∃ r, Reg.ofOffset off = some r := by
  simp only [BusError, ne_eq, not_true, false_or, not_or, not_and] at h
  obtain ⟨haligned, h05C, h0B0, h140, h238, h600⟩ := h
  dsimp only [Reg.ofOffset]
  split
  · contradiction
  iterate 8
    split
    · exact ⟨_, rfl⟩
  exact Reg.exists_single (by omega) (by omega)

theorem accessReg_eq_none_iff (off : Offset) (size : AccessSize) : accessReg off size = none ↔ BusError off size := by
  constructor
  · intro hnone
    by_contra hok
    have hword : size = .word := by simpa using fun hsize => hok (.inl hsize)
    subst hword
    obtain ⟨r, hr⟩ := Reg.exists_ofOffset hok
    exact Option.some_ne_none r (hr.symm.trans hnone)
  · intro herr
    by_contra hsome
    obtain ⟨r, hr⟩ := Option.ne_none_iff_exists'.mp hsome
    exact not_busError_of_accessReg hr herr

theorem accessReg_offset (r : Reg) : accessReg r.offset .word = some r := by
  cases r with
  | txFopts j | rxFopts j | blockIn j | blockOut j | macOut j => revert j; decide
  | key ks j => revert ks j; decide
  | pbuf j | fbuf j => revert j; decide
  | _ => rfl

theorem Reg.offset_injective : Function.Injective Reg.offset := fun r q h =>
  Option.some.inj ((accessReg_offset r).symm.trans (h ▸ accessReg_offset q))

/-- Settles O6: the map from registers to offsets is R89's list, `accessReg` undoes it, and what it leaves out is R296's
list of bus errors. -/
theorem addressMapIsOneToOne : Obligations.AddressMapIsOneToOne :=
  ⟨Reg.offset_toNat, accessReg_offset, fun _ _ _ h => (offset_of_accessReg h).symm, accessReg_eq_none_iff⟩

end Sys2Proof.Machine
end

section
/-! PROOFS. Byte strings on the bus (20_memory R81): the bytes of a word of a 16-byte string and of a buffer. -/

namespace Sys2Proof.Machine

open Sys2Proof.Claim

/-- Byte i of a block is byte i mod 4 of its word ⌊i/4⌋. -/
theorem extractLsb'_blockWord (b : Block) (i : Fin 16) :
    (blockWord b (BitVec.ofNat 2 (i.val / 4))).extractLsb' (8 * (i.val % 4)) 8 = blockByte b i.val := by
  have hi := i.isLt
  ext k hk
  have hin : 8 * (i.val % 4) + k < 32 := by omega
  have hbit : 32 * (i.val / 4 % 2 ^ 2) + (8 * (i.val % 4) + k) = 8 * i.val + k := by omega
  simp only [blockWord, blockByte, BitVec.getElem_extractLsb', BitVec.getLsbD_extractLsb', BitVec.toNat_ofNat, hin, hbit,
    decide_true, Bool.true_and]

theorem packs_of_readReg_eq_blockWord {s : State} {word : BitVec 2 → Reg} {b : Block}
    (h : ∀ j, s.readReg (word j) = blockWord b j) : Packs s word b := fun i => by
  rw [h, extractLsb'_blockWord]

/-- Byte k of the bus word that four bytes make, byte 0 in the lowest bits. -/
theorem extractLsb'_ofNat_fromLE {bs : List Byte} (hlen : bs.length = 4) {k : Nat} (hk : k < bs.length) :
    (BitVec.ofNat 32 (fromLE bs)).extractLsb' (8 * k) 8 = bs[k] := by
  have hlt : fromLE bs < 2 ^ 32 := by simpa [hlen] using fromLE_lt bs
  have hbytes : leBytes 4 (fromLE bs) = bs := leBytes_fromLE_of_length hlen
  have hget : (leBytes 4 (fromLE bs))[k]'(by simpa [hlen] using hk) = bs[k] := by simp only [hbytes]
  rw [← hget]
  apply BitVec.eq_of_toNat_eq
  simp only [leBytes, List.getElem_map, List.getElem_range, BitVec.extractLsb'_toNat, BitVec.toNat_ofNat,
    Nat.mod_eq_of_lt hlt]

/-- Byte k of word j of a buffer is the buffer's byte 4j + k. -/
theorem Operands.extractLsb'_bufWord (o : Operands) (base j : Nat) {k : Nat} (hk : k < 4) :
    (o.bufWord base j).extractLsb' (8 * k) 8 = o.byteAt (base + 4 * j + k) := by
  rw [Operands.bufWord, extractLsb'_ofNat_fromLE (by simp) (by simpa using hk)]
  simp [Operands.load]

/-- Byte i of a buffer lies in its word ⌊i/4⌋, whose number has 6 bits. -/
theorem Operands.extractLsb'_bufWord_div (o : Operands) (base : Nat) (i : Fin 256) :
    (o.bufWord base (BitVec.ofNat 6 (i.val / 4)).toNat).extractLsb' (8 * (i.val % 4)) 8 = o.byteAt (base + i.val) := by
  have hi := i.isLt
  rw [Operands.extractLsb'_bufWord o base _ (Nat.mod_lt _ (by decide)), BitVec.toNat_ofNat]
  congr 1
  omega

/-- Settles O20: the strings show their words and the buffers their four bytes at a time, at R89's offsets. -/
theorem byteStringsArePackedLittleEndian : Obligations.ByteStringsArePackedLittleEndian := by
  intro s
  refine ⟨fun ks => ?_, ?_, ?_, ?_, ?_, ?_, fun i => ⟨?_, ?_⟩, fun j => ?_, fun j => ?_⟩
  iterate 6 exact packs_of_readReg_eq_blockWord fun _ => rfl
  · exact s.op.extractLsb'_bufWord_div Config.pbufBase i
  · exact s.op.extractLsb'_bufWord_div Config.fbufBase i
  · exact ⟨Reg.offset_toNat _, Reg.offset_toNat _, Reg.offset_toNat _, Reg.offset_toNat _, Reg.offset_toNat _,
      fun _ => Reg.offset_toNat _⟩
  · exact ⟨Reg.offset_toNat _, Reg.offset_toNat _⟩

end Sys2Proof.Machine
end

section
/-! PROOFS. Plain writes (20_memory R86): what a register reads after a write of itself and of another one, and the host
writes that are plain. -/

namespace Sys2Proof.Machine

open Sys2Proof.Claim

/-! ## Fields of words -/

/-- A field of the low n bits shows exactly those bits of what was written. -/
theorem setWidth_extractLsb'_low (n : Nat) (v : Word) :
    (v.extractLsb' 0 n).setWidth 32 = v &&& (BitVec.allOnes n).setWidth 32 := by
  ext i hi
  simp [BitVec.getLsbD_extractLsb', BitVec.getLsbD_eq_getElem hi, Bool.and_comm]

theorem getLsbD_blockWord (b : Block) (j : BitVec 2) {i : Nat} (hi : i < 32) :
    (blockWord b j).getLsbD i = b.getLsbD (32 * j.toNat + i) := by
  simp [blockWord, hi]

theorem getLsbD_setBlockWord (b : Block) (j : BitVec 2) (v : Word) {n : Nat} (hn : n < 128) :
    (setBlockWord b j v).getLsbD n =
      if 32 * j.toNat ≤ n ∧ n < 32 * j.toNat + 32 then v.getLsbD (n - 32 * j.toNat) else b.getLsbD n := by
  have hmask : (0xFFFFFFFF#128 : Block) = (BitVec.allOnes 32).setWidth 128 := by decide
  have hin : n - 32 * j.toNat < 128 := by omega
  simp only [setBlockWord, hmask, BitVec.getLsbD_or, BitVec.getLsbD_and, BitVec.getLsbD_not, BitVec.getLsbD_shiftLeft,
    BitVec.getLsbD_setWidth, BitVec.getLsbD_allOnes, hn, hin, decide_true, Bool.true_and]
  by_cases hlow : n < 32 * j.toNat
  · simp [hlow, Nat.not_le_of_lt hlow]
  · by_cases hhigh : n - 32 * j.toNat < 32
    · simp [hlow, hhigh, show 32 * j.toNat ≤ n ∧ n < 32 * j.toNat + 32 by omega]
    · simp [hlow, hhigh, show ¬(32 * j.toNat ≤ n ∧ n < 32 * j.toNat + 32) by omega,
        BitVec.getLsbD_of_ge v _ (Nat.le_of_not_lt hhigh)]

theorem blockWord_setBlockWord_same (b : Block) (j : BitVec 2) (v : Word) : blockWord (setBlockWord b j v) j = v := by
  apply BitVec.eq_of_getLsbD_eq
  intro i hi
  have hj := j.isLt
  rw [getLsbD_blockWord _ _ hi, getLsbD_setBlockWord _ _ _ (by omega), if_pos (by omega), Nat.add_sub_cancel_left]

theorem blockWord_setBlockWord_of_ne (b : Block) {j k : BitVec 2} (v : Word) (hne : k ≠ j) :
    blockWord (setBlockWord b j v) k = blockWord b k := by
  have hne' : k.toNat ≠ j.toNat := fun h => hne (BitVec.eq_of_toNat_eq h)
  apply BitVec.eq_of_getLsbD_eq
  intro i hi
  have hk := k.isLt
  rw [getLsbD_blockWord _ _ hi, getLsbD_blockWord _ _ hi, getLsbD_setBlockWord _ _ _ (by omega), if_neg (by omega)]

theorem loWord_append (hi lo : Word) : loWord (hi ++ lo) = lo :=
  (BitVec.extractLsb'_append_of_lt (w := 32) (k := 1) (i := 0) Nat.one_pos).trans BitVec.extractLsb'_eq_self

theorem hiWord_append (hi lo : Word) : hiWord (hi ++ lo) = hi :=
  BitVec.extractLsb'_append_of_eq (w := 32) (k := 1) (i := 1) rfl

theorem loWord_setLoWord (d : DWord) (v : Word) : loWord (setLoWord d v) = v := loWord_append _ v
theorem hiWord_setLoWord (d : DWord) (v : Word) : hiWord (setLoWord d v) = hiWord d := hiWord_append _ v
theorem loWord_setHiWord (d : DWord) (v : Word) : loWord (setHiWord d v) = loWord d := loWord_append v _
theorem hiWord_setHiWord (d : DWord) (v : Word) : hiWord (setHiWord d v) = v := hiWord_append v _

/-! ## Key slots and buffer words -/

theorem Operands.key_setKey_same (o : Operands) (ks : KeySlot) (v : Block) : (o.setKey ks v).key ks = v := by
  rcases keySlot_cases ks with rfl | rfl | rfl | rfl <;> rfl

theorem Operands.bufWord_setBufWord_same (o : Operands) (base j : Nat) (v : Word) :
    (o.setBufWord base j v).bufWord base j = v := by
  have hload : (o.store (base + 4 * j) (leBytes 4 v.toNat)).load (base + 4 * j) 4 = leBytes 4 v.toNat := by
    simpa using o.load_store_same (base + 4 * j) (leBytes 4 v.toNat)
  rw [Operands.bufWord, Operands.setBufWord, hload, fromLE_leBytes]
  exact BitVec.eq_of_toNat_eq (by simpa using v.isLt)

/-- A write leaves every buffer word that shares no byte with it. -/
theorem Operands.bufWord_setBufWord_of_apart (o : Operands) {base j base' j' : Nat} (v : Word)
    (h : base' + 4 * j' + 4 ≤ base + 4 * j ∨ base + 4 * j + 4 ≤ base' + 4 * j') :
    (o.setBufWord base j v).bufWord base' j' = o.bufWord base' j' := by
  rw [Operands.bufWord, Operands.setBufWord, o.load_store_outside _ _ _ _ (by simpa using h), Operands.bufWord]

/-! ## The two sides of a plain write -/

theorem State.readReg_writeReg_same (s : State) {r : Reg} (v : Word) (hrw : rwMask r ≠ 0) :
    (s.writeReg r v).readReg r = v &&& rwMask r := by
  have hall : v = v &&& 0xFFFFFFFF := BitVec.and_allOnes.symm
  cases r with
  | irqEnable | devNonce | fcntDown | jaAppNonce | jaNetId => exact setWidth_extractLsb'_low _ v
  | txHdr | rx1Cfg => rfl
  | devAddr | fcntUp | rxDelay1 | windowMs => exact hall
  | appEuiLo | devEuiLo => exact (loWord_setLoWord _ v).trans hall
  | appEuiHi | devEuiHi => exact (hiWord_setHiWord _ v).trans hall
  | txFopts j | blockIn j => exact (blockWord_setBlockWord_same _ j v).trans hall
  | key ks j =>
    calc blockWord ((s.op.setKey ks (setBlockWord (s.op.key ks) j v)).key ks) j
      _ = blockWord (setBlockWord (s.op.key ks) j v) j := by rw [Operands.key_setKey_same]
      _ = v := blockWord_setBlockWord_same _ j v
      _ = v &&& 0xFFFFFFFF := hall
  | pbuf j | fbuf j => exact (s.op.bufWord_setBufWord_same _ _ v).trans hall
  | _ => exact absurd rfl hrw

theorem State.writeReg_of_not_rw (s : State) {r : Reg} (v : Word) (hro : rwMask r = 0) : s.writeReg r v = s := by
  cases r with
  | irqEnable | devNonce | devAddr | fcntUp | fcntDown | txHdr | appEuiLo | appEuiHi | devEuiLo | devEuiHi
  | jaAppNonce | jaNetId | txFopts | blockIn | key | rxDelay1 | windowMs | rx1Cfg | pbuf | fbuf =>
    simp [rwMask] at hro
  | _ => rfl

/-- Settles O17: the two kinds of registers, by their RW bits. -/
theorem plainWriteReadsBack : Obligations.PlainWriteReadsBack :=
  fun s _ v => ⟨s.readReg_writeReg_same v, s.writeReg_of_not_rw v⟩

/-- A write into a key slot changes at most the four keys. -/
theorem State.writeReg_key_eq (s : State) (ks : KeySlot) (j : BitVec 2) (v : Word) : ∃ k0 k1 k2 k3,
    s.writeReg (.key ks j) v = { s with op := { s.op with k0 := k0, k1 := k1, k2 := k2, k3 := k3 } } := by
  rcases keySlot_cases ks with rfl | rfl | rfl | rfl <;> exact ⟨_, _, _, _, rfl⟩

theorem State.readReg_writeReg_key_of_ne (s : State) {ks : KeySlot} {j : BitVec 2} {q : Reg} (v : Word)
    (hne : q ≠ .key ks j) (hq : q ≠ .status) : (s.writeReg (.key ks j) v).readReg q = s.readReg q := by
  cases q with
  | key ks' k =>
    by_cases hks : ks = ks'
    · subst hks
      have hkj : k ≠ j := fun h => hne (h ▸ rfl)
      exact (congrArg (blockWord · k) (s.op.key_setKey_same ks _)).trans (blockWord_setBlockWord_of_ne _ v hkj)
    · exact congrArg (blockWord · k) (s.op.key_setKey_of_ne _ hks)
  | status => contradiction
  | _ =>
    obtain ⟨_, _, _, _, e⟩ := s.writeReg_key_eq ks j v
    rw [e]
    rfl

theorem State.readReg_writeReg_pbuf_of_ne (s : State) {j : BitVec 6} {q : Reg} (v : Word) (hne : q ≠ .pbuf j)
    (hq : q ≠ .status) : (s.writeReg (.pbuf j) v).readReg q = s.readReg q := by
  have hj := j.isLt
  cases q with
  | pbuf k =>
    have hkj : k.toNat ≠ j.toNat := fun h => hne (congrArg Reg.pbuf (BitVec.eq_of_toNat_eq h))
    exact s.op.bufWord_setBufWord_of_apart v (by omega)
  | fbuf k => exact s.op.bufWord_setBufWord_of_apart v (.inr (by simp only [Config.pbufBase, Config.fbufBase]; omega))
  | status => contradiction
  | _ => rfl

theorem State.readReg_writeReg_fbuf_of_ne (s : State) {j : BitVec 6} {q : Reg} (v : Word) (hne : q ≠ .fbuf j)
    (hq : q ≠ .status) : (s.writeReg (.fbuf j) v).readReg q = s.readReg q := by
  cases q with
  | fbuf k =>
    have hkj : k.toNat ≠ j.toNat := fun h => hne (congrArg Reg.fbuf (BitVec.eq_of_toNat_eq h))
    exact s.op.bufWord_setBufWord_of_apart v (by omega)
  | pbuf k =>
    have hk := k.isLt
    exact s.op.bufWord_setBufWord_of_apart v (.inl (by simp only [Config.pbufBase, Config.fbufBase]; omega))
  | status => contradiction
  | _ => rfl

/-- Settles O18: the registers that share storage are the words of a key slot, a string, an EUI or a buffer; any other
pair lies in fields of its own. -/
theorem plainWriteLeavesOtherRegisters : Obligations.PlainWriteLeavesOtherRegisters := by
  intro s r q v hne hq
  cases r with
  | key ks j => exact s.readReg_writeReg_key_of_ne v hne hq
  | pbuf j => exact s.readReg_writeReg_pbuf_of_ne v hne hq
  | fbuf j => exact s.readReg_writeReg_fbuf_of_ne v hne hq
  | txFopts j =>
    cases q with
    | txFopts k => exact blockWord_setBlockWord_of_ne _ v fun h => hne (congrArg Reg.txFopts h)
    | status => contradiction
    | _ => rfl
  | blockIn j =>
    cases q with
    | blockIn k => exact blockWord_setBlockWord_of_ne _ v fun h => hne (congrArg Reg.blockIn h)
    | status => contradiction
    | _ => rfl
  | appEuiLo =>
    cases q with
    | appEuiHi => exact hiWord_setLoWord _ v
    | appEuiLo | status => contradiction
    | _ => rfl
  | appEuiHi =>
    cases q with
    | appEuiLo => exact loWord_setHiWord _ v
    | appEuiHi | status => contradiction
    | _ => rfl
  | devEuiLo =>
    cases q with
    | devEuiHi => exact hiWord_setLoWord _ v
    | devEuiLo | status => contradiction
    | _ => rfl
  | devEuiHi =>
    cases q with
    | devEuiLo => exact loWord_setHiWord _ v
    | devEuiHi | status => contradiction
    | _ => rfl
  | irqEnable | devNonce | devAddr | fcntUp | fcntDown | txHdr | jaAppNonce | jaNetId | rxDelay1 | windowMs | rx1Cfg =>
    -- `q` is the written register, which `hne` excludes, or shows another field.
    cases q <;> first | contradiction | rfl
  | _ => rfl

/-! ## Host writes (20_memory R86, 30_encoding R121) -/

/-- A write that decodes to no instruction of a port is a plain write, where the lock lets it through. -/
theorem busWrite_of_decode_error {s : State} {off : Offset} {r : Reg} {v : Word} {e : Reject}
    (hacc : accessReg off .word = some r) (hopen : ¬(s.busy = true ∧ r.locked = true)) (hcmd : r ≠ .cmd)
    (hdec : decode (.busWrite off v) = .error e) :
    busWrite s off .word v = .next (State.writeReg { s with resp := some .done } r v) := by
  have hopen' : (State.busy { s with resp := some .done } && r.locked) = false :=
    Bool.eq_false_iff.mpr fun h => hopen (Bool.and_eq_true_iff.mp h)
  simp only [busWrite, hacc, hopen', hcmd, hdec, Bool.false_eq_true, if_false]

theorem State.writeReg_with_resp (s : State) (r : Reg) (v : Word) (a : Option BusResp) :
    State.writeReg { s with resp := a } r v = { s.writeReg r v with resp := a } := by
  cases r <;> rfl

theorem Reg.offset_ne_port {r p : Reg} (hr : startsSomething r = false) (hp : startsSomething p = true) :
    r.offset ≠ p.offset := by
  intro h
  rw [Reg.offset_injective h, hp] at hr
  cases hr

theorem decode_plainWrite {r : Reg} (hr : startsSomething r = false) (v : Word) :
    decode (.busWrite r.offset v) = .error .plainWrite := by
  have hcmd : r.offset ≠ Config.cmdOffset := Reg.offset_ne_port (p := .cmd) hr rfl
  have hevent : r.offset ≠ Config.eventOffset := Reg.offset_ne_port (p := .event) hr rfl
  have hsched : r.offset ≠ Config.schedCtrlOffset := Reg.offset_ne_port (p := .schedCtrl) hr rfl
  have hctrl : r.offset ≠ Config.ctrlOffset := Reg.offset_ne_port (p := .ctrl) hr rfl
  have hirq : r.offset ≠ Config.irqStatusOffset := Reg.offset_ne_port (p := .irqStatus) hr rfl
  simp only [decode, hcmd, hevent, hsched, hctrl, hirq, if_false]

theorem busWrite_plain {s : State} {r : Reg} (v : Word) (hr : startsSomething r = false)
    (hopen : ¬(s.busy = true ∧ LockedOffset r.offset)) :
    busWrite s r.offset .word v = .next { s.writeReg r v with resp := some .done } := by
  have hcmd : r ≠ .cmd := by
    rintro rfl
    cases hr
  rw [← Reg.locked_iff] at hopen
  rw [busWrite_of_decode_error (accessReg_offset r) hopen hcmd (decode_plainWrite hr v), State.writeReg_with_resp]

theorem busWrite_ctrl_without_srst (s : State) {v : Word} (hv : v.getLsbD 0 = false) :
    busWrite s 0x004 .word v = .next { s with resp := some .done } := by
  have hdec : decode (.busWrite 0x004 v) = .error .ctrlWithoutSrst := by
    simpa [decode, Config.cmdOffset, Config.eventOffset, Config.schedCtrlOffset, Config.ctrlOffset] using hv
  have hunlocked : Reg.locked .ctrl = false := by decide
  exact busWrite_of_decode_error (r := .ctrl) (by decide) (by simp [hunlocked]) (by decide) hdec

/-- A cycle with a bus access only is the access, then the engine's part. -/
theorem step_of_onlyInput_bus {s : State} {bus : Option BusOp} (h : OnlyInput s bus false) :
    step s = andThen (busPhase bus { s.popInput with resp := none }) enginePhase := by
  rw [step, cycle, h, cycleWith]
  simp only [Bool.false_eq_true, if_false]
  cases andThen (busPhase bus { s.popInput with resp := none }) enginePhase <;> rfl

/-- Settles O19: neither a plain register's offset nor CTRL with bit 0 = 0 decodes to an instruction, and CTRL has no RW
bits. -/
theorem hostWriteReachesItsRegister : Obligations.HostWriteReachesItsRegister := by
  refine ⟨fun s r v hr hopen => busWrite_plain v hr hopen, fun s v hv => ⟨busWrite_ctrl_without_srst s hv, fun h => ?_⟩⟩
  rw [step_of_onlyInput_bus h, busPhase, busWrite_ctrl_without_srst _ hv, andThen_next]

end Sys2Proof.Machine
end

section
/-! PROOFS. The command word (30_encoding R110 to R113, R124): the encoder's fields are the decoder's, so encoding and
decoding undo each other, and exactly R113's words are illegal. -/

namespace Sys2Proof

open Sys2Proof.Machine Sys2Proof.Claim

/-! ## The fields of a word (30_encoding R110) -/

/-- The fields of R110 do not overlap, so a bit of an encoded word is a bit of one field, or a reserved 0. -/
theorem getLsbD_cmdWord (opc : Byte) (ks : KeySlot) (len : Len) (i : Nat) : (cmdWord opc ks len).getLsbD i =
    if i < 8 then opc.getLsbD i
    else if i < 10 then ks.getLsbD (i - 8)
    else if 16 ≤ i ∧ i < 25 then len.getLsbD (i - 16)
    else false := by
  have hopc : 8 ≤ i → opc.getLsbD i = false := opc.getLsbD_of_ge i
  have hks : 2 ≤ i - 8 → ks.getLsbD (i - 8) = false := ks.getLsbD_of_ge (i - 8)
  have hlen : 9 ≤ i - 16 → len.getLsbD (i - 16) = false := len.getLsbD_of_ge (i - 16)
  simp only [cmdWord, BitVec.getLsbD_or, BitVec.getLsbD_shiftLeft, BitVec.getLsbD_setWidth]
  grind

/-! The decoder's fields of an encoded word are the encoder's. -/

theorem cmdOpc_cmdWord (opc : Byte) (ks : KeySlot) (len : Len) : cmdOpc (cmdWord opc ks len) = opc := by
  ext i hi
  simp [cmdOpc, getLsbD_cmdWord, hi, BitVec.getLsbD_eq_getElem]

theorem cmdKs_cmdWord (opc : Byte) (ks : KeySlot) (len : Len) : cmdKs (cmdWord opc ks len) = ks := by
  ext i hi
  simp [cmdKs, getLsbD_cmdWord, hi, show 8 + i < 10 by omega, BitVec.getLsbD_eq_getElem]

theorem cmdLen_cmdWord (opc : Byte) (ks : KeySlot) (len : Len) : cmdLen (cmdWord opc ks len) = len := by
  ext i hi
  simp [cmdLen, getLsbD_cmdWord, hi, show ¬16 + i < 8 by omega, show ¬16 + i < 10 by omega, show 16 + i < 25 by omega,
    BitVec.getLsbD_eq_getElem]

/-- A field is 0 when the bits it spans are. -/
theorem extractLsb'_eq_zero_iff {w : Word} {a n : Nat} :
    w.extractLsb' a n = 0 ↔ ∀ i, a ≤ i → i < a + n → w.getLsbD i = false := by
  constructor
  · intro h i hge hlt
    have hbit : (w.extractLsb' a n).getLsbD (i - a) = false := by rw [h]; exact BitVec.getLsbD_zero
    rwa [BitVec.getLsbD_extractLsb', decide_eq_true (by omega), Bool.true_and, Nat.add_sub_cancel' hge] at hbit
  · intro h
    ext i hi
    rw [BitVec.getElem_extractLsb', h (a + i) (by omega) (by omega)]
    simp

theorem cmdReservedZero_iff (w : Word) : cmdReservedZero w = true ↔
    ∀ i, (10 ≤ i ∧ i < 16) ∨ (25 ≤ i ∧ i < 32) → w.getLsbD i = false := by
  simp only [cmdReservedZero, Bool.and_eq_true, beq_iff_eq, extractLsb'_eq_zero_iff, or_imp, forall_and, and_imp]

theorem cmdReservedZero_cmdWord (opc : Byte) (ks : KeySlot) (len : Len) :
    cmdReservedZero (cmdWord opc ks len) = true := by
  rw [cmdReservedZero_iff]
  intro i hi
  rw [getLsbD_cmdWord, if_neg (by omega), if_neg (by omega), if_neg (by omega)]

/-- With its reserved bits 0, a word is its three fields. -/
theorem cmdWord_fields {w : Word} (h : cmdReservedZero w = true) : cmdWord (cmdOpc w) (cmdKs w) (cmdLen w) = w := by
  rw [cmdReservedZero_iff] at h
  apply BitVec.eq_of_getLsbD_eq
  intro i hi
  have hres := h i
  simp only [getLsbD_cmdWord, cmdOpc, cmdKs, cmdLen, BitVec.getLsbD_extractLsb']
  grind

/-! ## The opcode map (30_encoding R112, R113) -/

/-- The fields of a word that a row accepts: "must be 0" where it takes no KS or no LEN (30_encoding R112). -/
def OpcodeRow.Admits (row : OpcodeRow) (ks : KeySlot) (len : Len) : Prop :=
  (ks ≠ 0 → row.takesKs = true) ∧ (len ≠ 0 → row.takesLen = true)

/-- The decoder's check of the two fields is the row's admission of them. -/
theorem fieldCheck_eq_false_iff (row : OpcodeRow) (ks : KeySlot) (len : Len) :
    ((!row.takesKs && ks != 0) || (!row.takesLen && len != 0)) = false ↔ row.Admits ks len := by
  have hfield {n : Nat} (takes : Bool) (x : BitVec n) : (!takes && x != 0) = false ↔ (x ≠ 0 → takes = true) := by
    cases takes <;> simp
  rw [Bool.or_eq_false_iff, hfield, hfield, OpcodeRow.Admits]

/-- No two rows have the same OPC. -/
theorem opcodeMap_find (row : OpcodeRow) (h : row ∈ opcodeMap) :
    opcodeMap.find? (fun r => r.opc == row.opc) = some row := by
  fin_cases h <;> rfl

/-- The decoder accepts the words whose OPC has a row, with the reserved bits 0 and fields that the row admits. -/
theorem decodeCmd_eq_ok_iff (w : Word) (i : Instr) : decodeCmd w = .ok i ↔
    ∃ row ∈ opcodeMap, row.opc = cmdOpc w ∧ cmdReservedZero w = true ∧ row.Admits (cmdKs w) (cmdLen w) ∧
      i = row.make (cmdKs w) (cmdLen w) := by
  constructor
  · intro h
    unfold decodeCmd at h
    split at h
    · cases h
    · rename_i row hrow
      split at h
      · cases h
      · rename_i hreserved
        split at h
        · cases h
        · rename_i hbad
          cases h
          exact ⟨row, List.mem_of_find?_eq_some hrow, by simpa using List.find?_some hrow, by simpa using hreserved,
            (fieldCheck_eq_false_iff row _ _).mp (Bool.eq_false_iff.mpr hbad), rfl⟩
  · rintro ⟨row, hrow, hopc, hreserved, hadmits, rfl⟩
    simp only [decodeCmd, ← hopc, opcodeMap_find row hrow, hreserved, (fieldCheck_eq_false_iff row _ _).mpr hadmits,
      Bool.not_true, Bool.false_eq_true, if_false]

/-- The encoder writes a row's OPC and the two fields of the row's instruction (30_encoding R124). -/
theorem encode_row {row : OpcodeRow} (hrow : row ∈ opcodeMap) {ks : KeySlot} {len : Len} (h : row.Admits ks len) :
    encode (row.make ks len) = .busWrite Config.cmdOffset (cmdWord row.opc ks len) := by
  obtain ⟨hks, hlen⟩ := h
  fin_cases hrow <;> simp_all [encode]

/-- Every command is the instruction of a row. -/
theorem exists_row_of_isCommand {i : Instr} (hi : isCommand i = true) :
    ∃ row ∈ opcodeMap, ∃ ks len, row.Admits ks len ∧ i = row.make ks len := by
  cases i with
  | ecb ks => exact ⟨opcodeMap[0], List.getElem_mem _, ks, 0, ⟨fun _ => rfl, (absurd rfl ·)⟩, rfl⟩
  | cmac ks len => exact ⟨opcodeMap[1], List.getElem_mem _, ks, len, ⟨fun _ => rfl, fun _ => rfl⟩, rfl⟩
  | ctr ks len => exact ⟨opcodeMap[2], List.getElem_mem _, ks, len, ⟨fun _ => rfl, fun _ => rfl⟩, rfl⟩
  | derive => exact ⟨opcodeMap[3], List.getElem_mem _, 0, 0, ⟨(absurd rfl ·), (absurd rfl ·)⟩, rfl⟩
  | sessRst => exact ⟨opcodeMap[4], List.getElem_mem _, 0, 0, ⟨(absurd rfl ·), (absurd rfl ·)⟩, rfl⟩
  | jreqEnc => exact ⟨opcodeMap[5], List.getElem_mem _, 0, 0, ⟨(absurd rfl ·), (absurd rfl ·)⟩, rfl⟩
  | jaccDec len => exact ⟨opcodeMap[6], List.getElem_mem _, 0, len, ⟨(absurd rfl ·), fun _ => rfl⟩, rfl⟩
  | dataEnc len => exact ⟨opcodeMap[7], List.getElem_mem _, 0, len, ⟨(absurd rfl ·), fun _ => rfl⟩, rfl⟩
  | dataDec len => exact ⟨opcodeMap[8], List.getElem_mem _, 0, len, ⟨(absurd rfl ·), fun _ => rfl⟩, rfl⟩
  | _ => cases hi

theorem decode_cmdOffset (w : Word) : decode (.busWrite Config.cmdOffset w) = decodeCmd w := rfl

/-- A command's word decodes to it: the fields the encoder wrote are the fields the decoder reads. -/
theorem decode_encode_command {i : Instr} (hi : isCommand i = true) : decode (encode i) = .ok i := by
  obtain ⟨row, hrow, ks, len, hadmits, rfl⟩ := exists_row_of_isCommand hi
  rw [encode_row hrow hadmits, decode_cmdOffset, decodeCmd_eq_ok_iff]
  refine ⟨row, hrow, ?_⟩
  rw [cmdOpc_cmdWord, cmdKs_cmdWord, cmdLen_cmdWord]
  exact ⟨rfl, cmdReservedZero_cmdWord _ _ _, hadmits, rfl⟩

/-- Settles O1: a command through its row of the opcode map, an acknowledgement by its low five bits; the other words
are constants. -/
theorem decodeInvertsEncode : Obligations.DecodeInvertsEncode := by
  intro i
  cases i with
  | setClass cls => cases cls <;> rfl
  | irqAck mask =>
    have hmask : (mask.setWidth 32).extractLsb' 0 5 = mask := by
      ext i hi
      simp [hi, show i < 32 by omega, BitVec.getLsbD_eq_getElem]
    exact congrArg (fun m => Except.ok (Instr.irqAck m)) hmask
  | evTxDone | evRxOk | evRxCrcErr | evBoth | evNone | srst | tick => rfl
  | _ => exact decode_encode_command rfl

/-- Settles O2: a word that a row accepts is the encoding of its three fields. -/
theorem legalCommandWordHasOneMeaning : Obligations.LegalCommandWordHasOneMeaning := by
  intro w i h
  obtain ⟨row, hrow, hopc, hreserved, hadmits, rfl⟩ := (decodeCmd_eq_ok_iff w i).mp h
  rw [encode_row hrow hadmits, hopc, cmdWord_fields hreserved]
  rfl

/-! ## The illegal words (30_encoding R113) -/

theorem mem_opcodes_iff (opc : Byte) :
    opc ∈ ([0x01, 0x02, 0x03, 0x04, 0x05, 0x10, 0x11, 0x12, 0x13] : List Byte) ↔ ∃ row ∈ opcodeMap, row.opc = opc :=
  List.mem_map (l := opcodeMap) (f := OpcodeRow.opc)

theorem takesKs_iff {row : OpcodeRow} (h : row ∈ opcodeMap) :
    row.takesKs = true ↔ row.opc ∈ ([0x01, 0x02, 0x03] : List Byte) := by
  fin_cases h <;> decide

theorem takesLen_iff {row : OpcodeRow} (h : row ∈ opcodeMap) :
    row.takesLen = true ↔ row.opc ∈ ([0x02, 0x03, 0x11, 0x12, 0x13] : List Byte) := by
  fin_cases h <;> decide

theorem admits_iff {row : OpcodeRow} (h : row ∈ opcodeMap) (ks : KeySlot) (len : Len) : row.Admits ks len ↔
    (ks ≠ 0 → row.opc ∈ ([0x01, 0x02, 0x03] : List Byte)) ∧
    (len ≠ 0 → row.opc ∈ ([0x02, 0x03, 0x11, 0x12, 0x13] : List Byte)) := by
  rw [OpcodeRow.Admits, takesKs_iff h, takesLen_iff h]

/-- A word is legal exactly when it decodes: its OPC has a row, and R113's other clauses say that the row admits it. -/
theorem not_illegalWord_iff (w : Word) : ¬IllegalWord w ↔ ∃ i, decodeCmd w = .ok i := by
  have hreserved : cmdReservedZero w = true ↔ w.extractLsb' 10 6 = 0 ∧ w.extractLsb' 25 7 = 0 := by
    simp [cmdReservedZero]
  simp only [IllegalWord, not_or, not_and, not_not, ne_eq, mem_opcodes_iff, decodeCmd_eq_ok_iff, hreserved]
  constructor
  · rintro ⟨⟨row, hrow, hopc⟩, hlow, hhigh, hks, hlen⟩
    exact ⟨_, row, hrow, hopc, ⟨hlow, hhigh⟩, (admits_iff hrow _ _).mpr ⟨hopc ▸ hks, hopc ▸ hlen⟩, rfl⟩
  · rintro ⟨_, row, hrow, hopc, ⟨hlow, hhigh⟩, hadmits, -⟩
    obtain ⟨hks, hlen⟩ := (admits_iff hrow _ _).mp hadmits
    rw [hopc] at hks hlen
    exact ⟨⟨row, hrow, hopc⟩, hlow, hhigh, hks, hlen⟩

theorem illegalWord_iff (w : Word) : IllegalWord w ↔ ∃ e, decodeCmd w = .error e := by
  rw [← not_iff_not, not_illegalWord_iff]
  cases decodeCmd w <;> simp

end Sys2Proof
end

section
/-! PROOFS. The other bus forms (30_encoding R119 to R122): words of the spec written out, EVENT's kind bits, and what
an acknowledgement clears. -/

namespace Sys2Proof

open Sys2Proof.Machine Sys2Proof.Claim

/-- Settles O3: every word is a constant. -/
theorem specWordsDecode : Obligations.SpecWordsDecode := by
  refine ⟨?_, ?_, ?_, ?_, ?_, ?_⟩ <;> rfl

/-- Settles O5: the decoder reads bits 0 to 2 only, which are the bits of v[2:0]. -/
theorem eventKindIsLowThreeBits : Obligations.EventKindIsLowThreeBits := by
  intro v
  have h0 : v.getLsbD 0 = (v.extractLsb' 0 3).getLsbD 0 := by simp
  have h1 : v.getLsbD 1 = (v.extractLsb' 0 3).getLsbD 1 := by simp
  have h2 : v.getLsbD 2 = (v.extractLsb' 0 3).getLsbD 2 := by simp
  have hdec : decode (.busWrite 0x21C v) = .ok (decodeEvent v) := rfl
  rw [hdec, decodeEvent, h0, h1, h2]
  generalize v.extractLsb' 0 3 = w
  revert w
  decide

theorem decode_irqStatusOffset (v : Word) : decode (.busWrite 0x00C v) = .ok (.irqAck (v.extractLsb' 0 5)) := rfl

/-- Settles O24: an acknowledgement masks the five bits with the complement of what was written. -/
theorem irqAckClearsWrittenBits : Obligations.IrqAckClearsWrittenBits := by
  refine ⟨decode_irqStatusOffset, fun mask s => ⟨s.clearIrq mask, rfl, rfl, fun i => ?_⟩⟩
  rw [State.clearIrq_irqStatus, BitVec.getLsbD_and, BitVec.getLsbD_not]
  by_cases hi : i < 5
  · rw [decide_eq_true hi, Bool.true_and]
  · rw [BitVec.getLsbD_of_ge s.irqStatus i (Nat.le_of_not_lt hi), Bool.false_and, Bool.false_and]

end Sys2Proof
end

section
/-! PROOFS. A cycle runs its instruction (30_encoding R113, R116, 70_reset_and_hazards R343): the completion of a
command or of an illegal word, a port other than CMD, and the tick. -/

namespace Sys2Proof.Machine

open Sys2Proof.Claim

/-! ## Completion (30_encoding R116) -/

theorem or_cmdDone_or_cmdErr (irq : BitVec 5) : irq ||| Irq.cmdDone ||| Irq.cmdErr = irq ||| 0b00011 :=
  BitVec.or_assoc ..

/-- Settles O26: a completion commits, with ERRCODE OK, or fails with an error that is not OK. -/
theorem everyCommandCompletes : Obligations.EveryCommandCompletes := by
  intro i s hi
  obtain ⟨x, hexec, hx⟩ := exec_command_result i hi s
  refine ⟨s.complete x, hexec, ?_⟩
  cases x with
  | ok p => rfl
  | error e =>
    have he : e ≠ .ok := fun h => hx (by rw [h])
    simp only [State.complete_error, State.failWith, or_cmdDone_or_cmdErr, he, if_false]

/-! ## The engine's part of a cycle -/

/-- A cycle without reset is its three phases (70_reset_and_hazards R343). -/
theorem step_of_not_rst {s : State} (h : s.nextInput.rst = false) :
    step s = andThen (andThen (busPhase s.nextInput.bus { s.popInput with resp := none }) enginePhase)
      (tickPhase s.nextInput.tick) := by
  rw [step, cycle, cycleWith, h]
  rfl

theorem enginePhase_of_completing {s : State} {r : Running} (hr : s.running = some r) (hleft : r.left = 0) :
    enginePhase s = completeRunning r.cur s := by
  simp only [enginePhase, hr, hleft]

theorem enginePhase_of_counting {s : State} {r : Running} {n : Nat} (hr : s.running = some r) (hleft : r.left = n + 1) :
    enginePhase s = .next { s with running := some { r with left := n } } := by
  simp only [enginePhase, hr, hleft]

/-- A cycle without an access or a tick is the engine's part. -/
theorem step_of_quiet {s : State} (h : OnlyInput s none false) :
    step s = enginePhase { s.popInput with resp := none } := step_of_onlyInput_bus h

/-- Where the countdown ends in such a cycle, it is the completion. -/
theorem step_of_quiet_completing {s : State} {r : Running} (h : OnlyInput s none false) (hc : Completes s r) :
    step s = completeRunning r.cur { s.popInput with resp := none } := by
  obtain ⟨hr, hleft⟩ := hc
  rw [step_of_quiet h]
  exact enginePhase_of_completing hr hleft

/-- Settles O8: an access at CMD's offset decodes as a command word, which is what the completion decodes. -/
theorem stepRunsAcceptedCommand : Obligations.StepRunsAcceptedCommand := by
  intro s r i h hc hdec
  have hdec' : decodeCmd r.cur = .ok i := hdec
  rw [step_of_quiet_completing h hc, completeRunning, hdec']

/-- Settles O4: the words that do not decode are R113's, and one of them completes by failing. -/
theorem illegalCommandWordsComplete : Obligations.IllegalCommandWordsComplete := by
  refine fun w => ⟨illegalWord_iff w, fun hillegal s r h hc hcur => ?_⟩
  obtain ⟨e, hdec⟩ := (illegalWord_iff w).mp hillegal
  rw [step_of_quiet_completing h hc, completeRunning, hcur, hdec, ← or_cmdDone_or_cmdErr]
  rfl

/-! ## The tick and the other ports -/

/-- Settles O10: the tick's phase runs TICK on what the engine leaves, and the engine leaves an idle core as it is. -/
theorem stepRunsTick : Obligations.StepRunsTick := by
  intro s h
  have hstep : step s = andThen (enginePhase { s.popInput with resp := none }) (exec .tick) := by
    rw [step_of_not_rst (by rw [h]), h]
    rfl
  refine ⟨hstep, fun hidle => ?_⟩
  rw [hstep, enginePhase_of_idle (by exact hidle), andThen_next]

/-- The instruction of a port other than CMD accepts no command. -/
theorem exec_port_idle {off : Offset} {v : Word} {i : Instr} (hoff : off ≠ Config.cmdOffset)
    (hdec : decode (.busWrite off v) = .ok i) {s : State} (hidle : s.running = none) :
    ∃ t, exec i s = .next t ∧ t.running = none := by
  have hsched (hi : isSchedulerOp i = true) : ∃ t, exec i s = .next t ∧ t.running = none := by
    obtain ⟨c, q, -, h⟩ := exec_schedulerOp i hi s
    exact ⟨_, h, hidle⟩
  rcases decode_port hoff hdec with ⟨-, rfl⟩ | ⟨-, rfl⟩ | ⟨-, -, rfl⟩ | ⟨-, rfl⟩
  · exact hsched (isSchedulerOp_decodeEvent v)
  · exact hsched rfl
  · exact ⟨_, rfl, rfl⟩
  · exact ⟨_, rfl, hidle⟩

/-- The ports other than CMD that take an instruction are not locked. -/
theorem accessReg_port {off : Offset} {v : Word} {i : Instr} (hoff : off ≠ Config.cmdOffset)
    (hdec : decode (.busWrite off v) = .ok i) :
    ∃ r, accessReg off .word = some r ∧ r.locked = false ∧ r ≠ .cmd := by
  rcases decode_port hoff hdec with ⟨rfl, -⟩ | ⟨rfl, -⟩ | ⟨rfl, -⟩ | ⟨rfl, -⟩
  · exact ⟨.event, by decide⟩
  · exact ⟨.schedCtrl, by decide⟩
  · exact ⟨.ctrl, by decide⟩
  · exact ⟨.irqStatus, by decide⟩

/-- Settles O9: the lock lets the write through, and an idle core stays idle, so the engine adds nothing. -/
theorem stepRunsPortInstruction : Obligations.StepRunsPortInstruction := by
  intro s off v i h hoff hdec
  obtain ⟨r, hacc, hunlocked, hcmd⟩ := accessReg_port hoff hdec
  have hstep : step s = andThen (exec i { s.popInput with resp := some .done }) enginePhase := by
    rw [step_of_onlyInput_bus h, busPhase_port hacc hunlocked hcmd hdec]
  refine ⟨hstep, fun hidle => ?_⟩
  obtain ⟨t, hexec, ht⟩ := exec_port_idle hoff hdec (s := { s.popInput with resp := some .done }) hidle
  rw [hstep, hexec, andThen_next, enginePhase_of_idle ht]

end Sys2Proof.Machine
end

section
/-! PROOFS. Writes to CMD (30_encoding R114, R116): accepted when idle, dropped with OVERRUN when busy, and the cycles
from the acceptance to the completion. -/

namespace Sys2Proof.Machine

open Sys2Proof.Claim

/-! ## The write (30_encoding R114) -/

/-- A write to a locked register while BUSY is dropped and raises OVERRUN. -/
theorem busWrite_dropped {s : State} {off : Offset} {r : Reg} (v : Word) (hacc : accessReg off .word = some r)
    (hbusy : s.busy = true) (hlocked : r.locked = true) : busWrite s off .word v =
      .next { s with resp := some .done, irqStatus := s.irqStatus ||| Irq.overrun } := by
  have hdrop : (State.busy { s with resp := some .done } && r.locked) = true :=
    Bool.and_eq_true_iff.mpr ⟨hbusy, hlocked⟩
  simp only [busWrite, hacc, hdrop, if_true]
  rfl

theorem busWrite_cmd_of_idle {s : State} (v : Word) (hidle : s.running = none) :
    busWrite s 0x014 .word v = .next (State.accept { s with resp := some .done } v) := by
  have hacc : accessReg 0x014 .word = some .cmd := by decide
  have hopen : State.busy { s with resp := some .done } = false := by rw [State.busy, hidle]; rfl
  simp only [busWrite, hacc, hopen, Bool.false_and, Bool.false_eq_true, if_false, if_true]

theorem busWrite_cmd_of_busy {s : State} {r : Running} (v : Word) (hr : s.running = some r) :
    busWrite s 0x014 .word v = .next { s with resp := some .done, irqStatus := s.irqStatus ||| 0b01000 } :=
  busWrite_dropped (r := .cmd) v (by decide) ((State.busy_iff s).mpr ⟨r, hr⟩) (by decide)

/-- The cycle that accepts a command counts as the first of its latency. -/
theorem step_accept {s : State} {v : Word} (h : OnlyInput s (some (.write 0x014 .word v)) false)
    (hidle : s.running = none) : step s = .next { s.popInput with
      resp := some .done, cmd := v, draws := s.draws + 1
      running := some { cur := v, snap := s.op
                        left := Config.extraLatency (v.extractLsb' 0 8) (v.extractLsb' 16 9) s.draws } } := by
  rw [step_of_onlyInput_bus h, busPhase, busWrite_cmd_of_idle v (by exact hidle), andThen_next]
  exact enginePhase_of_counting (State.accept_running _ v) rfl

/-- Settles O11: an accepted command's countdown starts in its own cycle, and a dropped one leaves the running command's
countdown to the engine. -/
theorem cmdWriteIsAcceptedOrDropped : Obligations.CmdWriteIsAcceptedOrDropped := by
  refine fun s v h =>
    ⟨fun hidle => ⟨_, step_accept h hidle⟩, fun r n hr hleft => ?_, fun r hr => busWrite_cmd_of_busy v hr⟩
  have hrun : ({ s.popInput with resp := none } : State).running = some r := hr
  rw [step_of_onlyInput_bus h, busPhase, busWrite_cmd_of_busy v hrun, andThen_next]
  exact enginePhase_of_counting hr hleft

/-! ## The countdown (30_encoding R116) -/

/-! Past the end of the script the outside does nothing (log 1). -/

theorem onlyInput_of_script_end {s : State} (h : s.inputs = []) : OnlyInput s none false := by
  rw [OnlyInput, State.nextInput, h]
  rfl

theorem popInput_of_script_end {s : State} (h : s.inputs = []) : s.popInput = s := by
  rw [State.popInput, h, List.tail_nil, ← h]

theorem step_countdown {s : State} {r : Running} {n : Nat} (hend : s.inputs = []) (hr : s.running = some r)
    (hleft : r.left = n + 1) : step s = .next { s with resp := none, running := some { r with left := n } } := by
  rw [step_of_quiet (onlyInput_of_script_end hend), popInput_of_script_end hend]
  exact enginePhase_of_counting hr hleft

theorem step_countdown_end {s : State} {r : Running} (hend : s.inputs = []) (hr : s.running = some r)
    (hleft : r.left = 0) : step s = completeRunning r.cur { s with resp := none } := by
  rw [step_of_quiet_completing (onlyInput_of_script_end hend) ⟨hr, hleft⟩, popInput_of_script_end hend]

theorem runs_succ (k : Nat) (s : State) : runs (k + 1) s = andThen (step s) (runs k) := by
  have hstep : core.step s = step s := rfl
  simp only [runs, Host.Core.run, hstep]
  cases step s <;> rfl

theorem runs_succ_of_step {s t : State} (h : step s = .next t) (k : Nat) : runs (k + 1) s = runs k t := by
  rw [runs_succ, h, andThen_next]

theorem runs_one (s : State) : runs 1 s = step s := by
  rw [runs_succ]
  cases step s <;> rfl

/-- As long as the countdown lasts, BUSY holds and ERRCODE stays. -/
theorem runs_countdown_busy (k : Nat) {s : State} {r : Running} (hend : s.inputs = []) (hr : s.running = some r)
    (hk : k ≤ r.left) : ∃ t, runs k s = .next t ∧ t.busy = true ∧ t.errCode = s.errCode := by
  induction k generalizing s r with
  | zero => exact ⟨s, rfl, (State.busy_iff s).mpr ⟨r, hr⟩, rfl⟩
  | succ k ih =>
    obtain ⟨n, hn⟩ := Nat.exists_eq_add_of_le' hk
    rw [runs_succ_of_step (step_countdown hend hr (n := k + n) (by omega))]
    exact ih hend rfl (Nat.le_add_right k n)

/-- The cycle after the countdown completes the command. -/
theorem runs_countdown_completes (n : Nat) {s : State} {r : Running} (hend : s.inputs = []) (hr : s.running = some r)
    (hleft : r.left = n) :
    runs (n + 1) s = completeRunning r.cur { s with resp := none, running := some { r with left := 0 } } := by
  induction n generalizing s r with
  | zero => rw [runs_one, step_countdown_end hend hr hleft, ← hleft, ← hr]
  | succ n ih =>
    rw [runs_succ_of_step (step_countdown hend hr hleft)]
    exact ih (r := { r with left := n }) hend rfl rfl

/-- Settles O14: the accepting cycle counts down by one already, so the countdown left is the latency less 1. -/
theorem commandCompletesAfterItsLatency : Obligations.CommandCompletesAfterItsLatency := by
  intro s v hidle hscript latency
  have hfirst := step_accept (s := s) (v := v) (by rw [OnlyInput, State.nextInput, hscript]; rfl) hidle
  have hend : s.popInput.inputs = [] := by rw [State.popInput, hscript]; rfl
  refine ⟨Nat.succ_pos _, fun k hk hlatency => ?_, ?_⟩
  · obtain ⟨n, rfl⟩ := Nat.exists_eq_add_of_le' hk
    rw [runs_succ_of_step hfirst]
    exact runs_countdown_busy n hend rfl (Nat.le_of_succ_le_succ hlatency)
  · rw [runs_succ_of_step hfirst]
    refine (runs_countdown_completes (r := ⟨v, s.op, _⟩) _ ?_ rfl rfl).trans ?_
    · exact hend
    · rw [← hend]
      rfl

end Sys2Proof.Machine
end

section
/-! PROOFS. The lock (30_encoding R115): the rest of a cycle does not look at the bus response, so a dropped write is a
cycle without the access; and a write outside the lock does not look at the engine. -/

namespace Sys2Proof.Machine

open Sys2Proof.Claim

/-! ## The rest of the cycle and the bus response -/

theorem State.complete_with_resp (s : State) (a : Option BusResp) (x : CmdResult) :
    State.complete { s with resp := a } x = { s.complete x with resp := a } := by
  cases x <;> rfl

/-- A command reads registers only, and its completion keeps the response. -/
theorem exec_command_with_resp {i : Instr} (hi : isCommand i = true) (s : State) (a : Option BusResp) :
    ∃ t, exec i s = .next t ∧ exec i { s with resp := a } = .next { t with resp := a } := by
  have hcomplete (x : CmdResult) : ∃ t, (.next (s.complete x) : StepOutcome) = .next t ∧
      (.next (State.complete { s with resp := a } x) : StepOutcome) = .next { t with resp := a } :=
    ⟨_, rfl, congrArg _ (s.complete_with_resp a x)⟩
  cases i with
  | ecb | cmac | ctr | derive | sessRst | jreqEnc | jaccDec | dataEnc | dataDec => exact hcomplete _
  | _ => cases hi

theorem enginePhase_with_resp (s : State) (a : Option BusResp) :
    ∃ t, enginePhase s = .next t ∧ enginePhase { s with resp := a } = .next { t with resp := a } := by
  rcases enginePhase_cases s with ⟨hidle, e⟩ | ⟨r, n, hr, hleft, e⟩ | ⟨r, x, hr, hleft, e, -⟩
  · exact ⟨_, e, enginePhase_of_idle hidle⟩
  · exact ⟨_, e, enginePhase_of_counting hr hleft⟩
  · rw [e, enginePhase_of_completing (s := { s with resp := a }) hr hleft, completeRunning, completeRunning]
    cases hdec : decodeCmd r.cur with
    | ok i => exact exec_command_with_resp (isCommand_of_decodeCmd hdec) s a
    | error e => exact ⟨_, rfl, rfl⟩

theorem schedStep_with_resp (s : State) (a : Option BusResp) :
    State.schedStep { s with resp := a } = { s.schedStep with resp := a } := by
  cases hq : s.sched.schedState with
  | idle | continuous => simp only [State.schedStep, hq]
  | wait1 | wait2 =>
    simp only [State.schedStep, hq]
    split <;> rfl
  | window1 | window2 =>
    simp only [State.schedStep, hq]
    split
    · split <;> rfl
    · rfl

theorem tickPhase_with_resp (b : Bool) (s : State) (a : Option BusResp) :
    ∃ t, tickPhase b s = .next t ∧ tickPhase b { s with resp := a } = .next { t with resp := a } := by
  cases b with
  | false => exact ⟨s, rfl, rfl⟩
  | true =>
    have hstep := schedStep_with_resp { s with sched := { s.sched with time := s.sched.time + 1 } } a
    exact ⟨_, rfl, congrArg _ hstep⟩

/-- The engine and the tick do not look at the bus response, and keep it. -/
theorem engine_then_tick_with_resp (b : Bool) (s : State) (a : Option BusResp) :
    ∃ t, andThen (enginePhase s) (tickPhase b) = .next t ∧
      andThen (enginePhase { s with resp := a }) (tickPhase b) = .next { t with resp := a } := by
  obtain ⟨m, hengine, hengine'⟩ := enginePhase_with_resp s a
  rw [hengine, hengine', andThen_next, andThen_next]
  exact tickPhase_with_resp b m a

/-! ## Inside and outside the locked range -/

/-- After a dropped write the cycle is the one without the access, with OVERRUN set and the response given. -/
theorem step_locked_write {s : State} {off : Offset} {v : Word} {r : Reg} (hw : WritesWord s off v)
    (hbusy : s.busy = true) (hacc : accessReg off .word = some r) (hlocked : r.locked = true) :
    ∃ t, step s = .next { t with resp := some .done } ∧
      step { s with
        inputs := { s.nextInput with bus := none } :: s.inputs.tail
        irqStatus := s.irqStatus ||| 0b01000 } = .next t := by
  obtain ⟨hrst, hbus⟩ := hw
  obtain ⟨t, h, h'⟩ := engine_then_tick_with_resp s.nextInput.tick
    { s.popInput with resp := none, irqStatus := s.irqStatus ||| Irq.overrun } (some .done)
  refine ⟨t, ?_, ?_⟩
  · have hstart : ({ s.popInput with resp := none } : State).busy = true := hbusy
    rw [step_of_not_rst hrst, hbus, busPhase, busWrite_dropped v hacc hstart hlocked]
    exact h'
  · rw [step_of_not_rst (by exact hrst)]
    exact h

theorem State.writeReg_with_running (s : State) (r : Reg) (v : Word) (w : Option Running) :
    State.writeReg { s with running := w } r v = { s.writeReg r v with running := w } := by
  cases r <;> rfl

/-- A write to an unlocked register, a soft reset apart, does the same whatever the engine holds. -/
theorem busWrite_unlocked {s : State} {off : Offset} {v : Word} {r : Reg}
    (hacc : accessReg off .word = some r) (hunlocked : r.locked = false)
    (hsrst : ¬(off = 0x004 ∧ v.getLsbD 0 = true)) : ∃ t, busWrite s off .word v = .next t ∧
    busWrite { s with running := none } off .word v = .next { t with running := none } := by
  have hcmd : r ≠ .cmd := by
    rintro rfl
    exact absurd hunlocked (by decide)
  have hopen (s : State) : ¬(s.busy = true ∧ r.locked = true) := by simp [hunlocked]
  cases hdec : decode (.busWrite off v) with
  | error e =>
    rw [busWrite_of_decode_error hacc (hopen _) hcmd hdec, busWrite_of_decode_error hacc (hopen _) hcmd hdec]
    exact ⟨_, rfl, congrArg _ (State.writeReg_with_running { s with resp := some .done } r v none)⟩
  | ok i =>
    have hport (s : State) : busWrite s off .word v = exec i { s with resp := some .done } :=
      busPhase_port hacc hunlocked hcmd hdec
    have hsched (hi : isSchedulerOp i = true) : ∃ t, busWrite s off .word v = .next t ∧
        busWrite { s with running := none } off .word v = .next { t with running := none } := by
      obtain ⟨c, q, hfree, h⟩ := exec_schedulerOp i hi { s with resp := some .done }
      exact ⟨_, (hport s).trans h, (hport _).trans (hfree none)⟩
    have hoff : off ≠ Config.cmdOffset := by
      rintro rfl
      exact hcmd (Option.some.inj (hacc.symm.trans (by decide)))
    rcases decode_port hoff hdec with ⟨-, rfl⟩ | ⟨-, rfl⟩ | ⟨hctrl, hv, -⟩ | ⟨-, rfl⟩
    · exact hsched (isSchedulerOp_decodeEvent v)
    · exact hsched rfl
    · exact absurd ⟨hctrl, hv⟩ hsrst
    · exact ⟨_, hport s, hport _⟩

/-- Settles O12: a mapped offset has a register, which the lock holds or not. -/
theorem lockedWriteIsDropped : Obligations.LockedWriteIsDropped := by
  intro s off v hw hbusy hmapped
  obtain ⟨r, hacc⟩ := Reg.exists_ofOffset hmapped
  have hoff : off = r.offset := offset_of_accessReg (size := .word) hacc
  rw [hoff, ← Reg.locked_iff, ← hoff]
  exact ⟨step_locked_write hw hbusy hacc, fun hunlocked => busWrite_unlocked hacc (by simpa using hunlocked)⟩

end Sys2Proof.Machine
end

section
/-! PROOFS. The cipher (40_crypto R140 to R149, R160): the S-box from the field's inverse, the cipher over bytes and
over 16-byte strings, and ECB. -/

namespace Sys2Proof.Machine

open Sys2Proof.Claim

/-! ## The S-box (40_crypto R142) -/

/-- The affine map of R142, undone. -/
def affineInverse (b : Byte) : Byte := b.rotateLeft 1 ^^^ b.rotateLeft 3 ^^^ b.rotateLeft 6 ^^^ 0x05

theorem affine_affineInverse : ∀ b : Byte, affine (affineInverse b) = b := by decide +kernel

/-- The table's 255 entries but the first, one by one: with the affine map undone, each is an inverse. -/
theorem gfMul_affineInverse_sbox : ∀ x : Byte, x ≠ 0 → gfMul x (affineInverse (sbox x)) = 1 := by decide +kernel

/-- Settles O37: the inverse of x is the table's entry with the affine map undone. -/
theorem sboxIsInverseThenAffine : Obligations.SboxIsInverseThenAffine :=
  ⟨by decide, fun x hx => ⟨_, gfMul_affineInverse_sbox x hx, (affine_affineInverse (sbox x)).symm⟩⟩

/-! ## The cipher over bytes and over strings (40_crypto R148, R149) -/

theorem blockBytes_aes (k b : Block) : blockBytes (aes k b) = aesBytes (blockBytes k) (blockBytes b) := by
  unfold aes
  exact blockBytes_blockOf (length_aesBytes (length_blockBytes k) _)

/-- Settles O36: a ciphertext has 16 bytes, so packing loses none; the check value is FIPS-197 C.1. -/
theorem aesMeetsFips197Vector : Obligations.AesMeetsFips197Vector :=
  ⟨blockBytes_aes, by decide +kernel⟩

/-! ## ECB (40_crypto R160) -/

/-- Settles O30: ECB has no check, so it commits. -/
theorem ecbEncryptsOneBlock : Obligations.EcbEncryptsOneBlock := fun _ _ => rfl

end Sys2Proof.Machine
end

section
/-! PROOFS. CMAC, the keystream and the session keys (40_crypto R150 to R155): the tag as a chain over blocks, CTRX
undone by itself, and the commands CMAC, CTR and DERIVE on the registers and the buffers. -/

namespace Sys2Proof.Machine

open Sys2Proof.Claim

/-! ## CMAC (40_crypto R150, R151, R161) -/

theorem be128_eq_toNat_int128 (b : Block) : be128 b = (int128 b).toNat := (toNat_int128 b).symm

theorem doubled_dbl (x : Block) : Doubled x (dbl x) := by
  rw [Doubled, be128_eq_toNat_int128, be128_eq_toNat_int128, toNat_int128_dbl]

/-- The model folds over the block numbers what R151 says block after block. -/
theorem foldl_range_eq_macChain (k : Block) (m : List Byte) (n : Nat) :
    (List.range n).foldl (fun x i => aes k (x ^^^ blockOf (sub m (16 * i) 16))) 0 = macChain k m n := by
  induction n with
  | zero => rfl
  | succ n ih => rw [List.range_succ, List.foldl_append, ih]; rfl

theorem cmacChain_eq_macChain (k : Block) (m : List Byte) : cmacChain k m = macChain k m (cmacBlocks m - 1) :=
  foldl_range_eq_macChain k m _

/-- The tag of a string of whole blocks, at least one. -/
theorem cmac_of_whole_blocks (k : Block) {m : List Byte} (h : 0 < m.length ∧ m.length % 16 = 0) :
    cmac k m = aes k (macChain k m (m.length / 16 - 1) ^^^ (blockOf (sub m (m.length - 16) 16) ^^^ subkey1 k)) := by
  have hblocks : cmacBlocks m - 1 = m.length / 16 - 1 := by unfold cmacBlocks; omega
  have hlast : m.drop (16 * (m.length / 16 - 1)) = sub m (m.length - 16) 16 := by
    rw [sub, show 16 * (m.length / 16 - 1) = m.length - 16 by omega, List.take_of_length_le (by simp; omega)]
  rw [cmac, cmacChain_eq_macChain, cmacLast, if_pos h, hblocks, hlast]

/-- The tag of the empty string, or of one whose last block is not whole. -/
theorem cmac_of_padded (k : Block) {m : List Byte} (h : ¬(0 < m.length ∧ m.length % 16 = 0)) :
    cmac k m = aes k (macChain k m (m.length / 16) ^^^
      (blockOf (m.drop (16 * (m.length / 16)) ++ [0x80] ++ zeros (15 - m.length % 16)) ^^^ subkey2 k)) := by
  have hblocks : cmacBlocks m - 1 = m.length / 16 := by unfold cmacBlocks; omega
  have hrest : (m.drop (16 * (m.length / 16))).length = m.length % 16 := by rw [List.length_drop]; omega
  rw [cmac, cmacChain_eq_macChain, cmacLast, if_neg h, hblocks, hrest]

/-- Settles O31: the command commits the tag, and the subkeys are the zero block's encryption doubled once and twice. -/
theorem cmacTagsPayload : Obligations.CmacTagsPayload := by
  refine ⟨fun ks len s hlen => ?_, fun k m => ⟨subkey1 k, subkey2 k, doubled_dbl _, doubled_dbl _,
    cmac_of_whole_blocks k, cmac_of_padded k⟩⟩
  rw [exec, execCmac, cmacResult, checkLen_legal hlen]
  rfl

/-! ## CTRX (40_crypto R153, R154) -/

theorem ctrxFrom_ctrxFrom (k t : Block) (i : Nat) (m : List Byte) : ctrxFrom k t i (ctrxFrom k t i m) = m := by
  induction m generalizing i with
  | nil => rfl
  | cons b bs ih => rw [ctrxFrom, ctrxFrom, ih, BitVec.xor_assoc, BitVec.xor_self, BitVec.xor_zero]

@[simp] theorem ctrx_ctrx (k t : Block) (m : List Byte) : ctrx k t (ctrx k t m) = m := ctrxFrom_ctrxFrom k t 0 m

/-- Settles O33: each byte XORs with the keystream's byte, so doing it twice undoes it. -/
theorem ctrxIsItsOwnInverse : Obligations.CtrxIsItsOwnInverse :=
  fun k t m => ⟨ctrx_ctrx k t m, length_ctrx k t m, byteOf_ctrx k t m⟩

/-! ## What a store leaves (10_state R58) -/

/-- A read after a store gives the string's byte. -/
theorem Operands.byteAt_store_eq_byteOf (o : Operands) (a : Nat) (bs : List Byte) {i : Nat} (h : i < bs.length) :
    (o.store a bs).byteAt (a + i) = byteOf bs i := by
  rw [o.byteAt_store_inside a i bs h, byteOf, List.getD_eq_getElem _ _ h]

theorem sameBytesOutside_store (o : Operands) (a : Nat) (bs : List Byte) {n : Nat} (hn : bs.length = n) :
    SameBytesOutside a n o (o.store a bs) :=
  fun a' ha => o.byteAt_store_outside a a' bs (hn ▸ ha)

/-- Storing one string and then what the bytes were before restores every byte. -/
theorem sameBytes_store_store_load (o : Operands) (a : Nat) {bs : List Byte} {n : Nat} (hn : bs.length = n) :
    SameBytes o ((o.store a bs).store a (o.load a n)) := by
  intro a'
  by_cases hin : a ≤ a' ∧ a' < a + n
  · obtain ⟨i, rfl⟩ := Nat.exists_eq_add_of_le hin.1
    have hi : i < n := by omega
    rw [Operands.byteAt_store_eq_byteOf _ a _ (by simpa using hi), o.byteOf_load a n i hi]
  · have hout : a' < a ∨ a + n ≤ a' := by omega
    rw [Operands.byteAt_store_outside _ a a' _ (by simpa using hout), o.byteAt_store_outside a a' bs (hn ▸ hout)]

/-! ## CTR (40_crypto R162) -/

theorem exec_ctr (ks : KeySlot) {len : Len} (s : State) (hlen : len.toNat ≤ 256) : exec (.ctr ks len) s =
    .next (s.commit
      (s.op.storePbuf (ctrx (s.snapshot.key ks) s.snapshot.blockIn (s.snapshot.pbuf len.toNat))) s.res) := by
  rw [exec, execCtr, ctrResult, checkLen_legal hlen, State.complete_ok]

/-- Settles O32: the store holds CTRX's bytes, and leaves what is outside it. -/
theorem ctrTransformsPayloadInPlace : Obligations.CtrTransformsPayloadInPlace := by
  intro ks len s hlen
  refine ⟨_, exec_ctr ks s hlen, rfl, rfl, fun i hi => ?_, sameBytesOutside_store _ _ _ (by simp)⟩
  rw [State.commit_op, Operands.storePbuf, ← Operands.byteOf_load s.snapshot 0x400 len.toNat i hi]
  exact (s.op.byteAt_store_eq_byteOf 0x400 _ (by simpa using hi)).trans (byteOf_ctrx _ _ _ i (by simpa using hi))

/-- CTRX on the bytes in the buffer, run again on what it stored, restores every byte. -/
theorem sameBytes_ctrx_ctrx (o : Operands) (k t : Block) (n : Nat) : SameBytes o
    ((o.storePbuf (ctrx k t (o.pbuf n))).storePbuf (ctrx k t ((o.storePbuf (ctrx k t (o.pbuf n))).pbuf n))) := by
  have hlen : (ctrx k t (o.pbuf n)).length = n := by simp
  have hread : (o.storePbuf (ctrx k t (o.pbuf n))).pbuf n = ctrx k t (o.pbuf n) := by
    simpa only [hlen] using o.pbuf_storePbuf (ctrx k t (o.pbuf n))
  rw [hread, ctrx_ctrx]
  exact sameBytes_store_store_load o Config.pbufBase hlen

/-- Settles O34: the second run has the first one's key and template, and reads what it wrote. -/
theorem ctrTwiceRestoresPayload : Obligations.CtrTwiceRestoresPayload := by
  intro ks len s t u hlen hsnap ht hu
  rw [exec_ctr ks s hlen, hsnap] at ht
  cases ht
  rw [exec_ctr ks _ hlen, State.snapshot_of_idle _ (State.commit_running ..)] at hu
  cases hu
  exact sameBytes_ctrx_ctrx s.op (s.op.key ks) s.op.blockIn len.toNat

/-! ## DERIVE (40_crypto R155, R163) -/

/-- Settles O35: the model's key block is R155's, and DERIVE has no check, so it commits. -/
theorem deriveWritesSessionKeys : Obligations.DeriveWritesSessionKeys := fun _ => rfl

end Sys2Proof.Machine
end

section
/-! PROOFS. The data frame's parts (41_codec R182 to R186, 10_state R53, R56): blocks A and B0 byte by byte, the packed
header bytes, RX_INFO's fields and zero-filled blocks. -/

namespace Sys2Proof.Machine

open Sys2Proof.Claim

/-! ## Blocks A and B0 (41_codec R183, R184) -/

/-- The data MIC is the first four bytes of the tag over B0 and the frame (R184, R185). -/
theorem dataMic_eq_tag4 (n : Operands) (dir : Bool) (addr fcnt : Word) (msg : List Byte) :
    dataMic n dir addr fcnt msg = tag4 n.k1 (b0Bytes dir addr fcnt msg.length ++ msg) := rfl

theorem counterBlock_blockA (dir : Bool) (addr fcnt : Word) (bi : Nat) :
    counterBlock (blockA dir addr fcnt 0) bi = aBlock dir addr fcnt bi := by
  rw [counterBlock, blockA, blockBytes_blockOf (by simp)]
  rfl

/-- The payload cipher XORs byte i with R183's mask. -/
theorem byteOf_cryptPayload (n : Operands) (port : Byte) (dir : Bool) (addr fcnt : Word) {pay : List Byte} {i : Nat}
    (hi : i < pay.length) :
    byteOf (cryptPayload n port dir addr fcnt pay) i = byteOf pay i ^^^ payloadMask n port dir addr fcnt i := by
  rw [cryptPayload, byteOf_ctrx _ _ _ _ hi, keystream, counterBlock_blockA]
  rfl

/-! ## Packed header bytes (41_codec R182) -/

theorem extractLsb'_fctrlOf_flags (flags fol : BitVec 4) : (fctrlOf flags fol).extractLsb' 4 4 = flags := by
  ext i hi
  have hhigh : 4 + i < 8 := by omega
  simp [fctrlOf, hhigh, BitVec.getLsbD_eq_getElem hi]

theorem extractLsb'_fctrlOf_fol (flags fol : BitVec 4) : (fctrlOf flags fol).extractLsb' 0 4 = fol := by
  ext i hi
  have hlow : i < 8 := by omega
  simp [fctrlOf, hi, hlow]

theorem mhdrOf_eq_ite (dir conf : Bool) : mhdrOf dir conf =
    if dir then (if conf then 0xA0 else 0x60) else (if conf then 0x80 else 0x40) := by
  cases dir <;> cases conf <;> rfl

/-! ## RX_INFO (10_state R53) -/

section

variable (x : RxFrame)

theorem rxInfoOf_mhdr : (rxInfoOf x).extractLsb' 0 8 = x.mhdr := by
  ext i hi
  interval_cases i <;> simp [rxInfoOf]

theorem rxInfoOf_fctrl : (rxInfoOf x).extractLsb' 8 8 = x.fctrl := by
  ext i hi
  interval_cases i <;> simp [rxInfoOf]

theorem rxInfoOf_fol : (rxInfoOf x).extractLsb' 16 4 = folOf x.fctrl := by
  ext i hi
  interval_cases i <;> simp [rxInfoOf]

theorem rxInfoOf_port : (rxInfoOf x).extractLsb' 21 8 = x.port := by
  ext i hi
  interval_cases i <;> simp [rxInfoOf]

theorem rxInfoOf_fportPresent : (rxInfoOf x).getLsbD 20 = x.fportPresent := by simp [rxInfoOf]

theorem rxInfoOf_dir : (rxInfoOf x).getLsbD 29 = x.dir := by simp [rxInfoOf]

theorem rxInfoOf_conf : (rxInfoOf x).getLsbD 30 = x.conf := by simp [rxInfoOf]

end

/-! ## Zero-filled blocks (10_state R56) -/

theorem fromLE_zeros (n : Nat) : fromLE (zeros n) = 0 := by
  induction n with
  | zero => rfl
  | succ n ih =>
    rw [zeros, List.replicate_succ, fromLE, ← zeros, ih]
    rfl

theorem blockBytes_blockOf_of_le {bs : List Byte} (h : bs.length ≤ 16) :
    blockBytes (blockOf bs) = bs ++ zeros (16 - bs.length) := by
  have hfill : blockOf bs = blockOf (bs ++ zeros (16 - bs.length)) := by
    rw [blockOf, blockOf, fromLE_append, fromLE_zeros, Nat.mul_zero, Nat.add_zero]
  rw [hfill, blockBytes_blockOf (by simp; omega)]

end Sys2Proof.Machine
end

section
/-! PROOFS. DATA_ENC (41_codec R186, R203): the frame it builds, taken apart again field by field. -/

namespace Sys2Proof.Machine

open Sys2Proof.Claim

/-! ## The frame (41_codec R186) -/

/-- The frame DATA_ENC builds, its MIC included. -/
def dataFrame (n : Operands) (len : Nat) : List Byte :=
  dataMsg n len ++ dataMic n (txDir n.txHdr) n.devAddr (encFcnt n) (dataMsg n len)

section

variable (n : Operands) (len : Nat)

theorem length_dataFrame : (dataFrame n len).length = dataFrameLen (txFoptsLen n.txHdr).toNat len := by
  rw [dataFrame, List.length_append, length_dataMic, length_dataMsg]

theorem length_dataMsg_eq_sub :
    (dataMsg n len).length = dataFrameLen (txFoptsLen n.txHdr).toNat len - 4 := by
  have := length_dataMsg n len
  omega

/-! The eight header bytes lie before the FOpts, at fixed places. -/

theorem dataFrame_mhdr : byteOf (dataFrame n len) 0 = mhdrOf (txDir n.txHdr) (txConfirmed n.txHdr) := rfl

theorem dataFrame_devAddr : sub (dataFrame n len) 1 4 = leBytes 4 n.devAddr.toNat := rfl

theorem dataFrame_fctrl : byteOf (dataFrame n len) 5 = fctrlOf (txFlags n.txHdr) (txFoptsLen n.txHdr) := rfl

theorem dataFrame_fcnt : sub (dataFrame n len) 6 2 = leBytes 2 (encFcnt n).toNat := rfl

theorem dataFrame_fopts : sub (dataFrame n len) 8 (txFoptsLen n.txHdr).toNat =
    (blockBytes n.txFopts).take (txFoptsLen n.txHdr).toNat := by
  have hdrop : (dataFrame n len).drop 8 = (blockBytes n.txFopts).take (txFoptsLen n.txHdr).toNat ++
      dataBody n len ++ dataMic n (txDir n.txHdr) n.devAddr (encFcnt n) (dataMsg n len) := rfl
  have := (txFoptsLen n.txHdr).isLt
  rw [sub, hdrop, List.append_assoc, List.take_append_of_le_length (by simp; omega), List.take_take, Nat.min_self]

/-- Behind the FOpts come FPort and the payload. -/
theorem byteOf_dataFrame_body {i : Nat} (hi : i < (dataBody n len).length) :
    byteOf (dataFrame n len) (8 + (txFoptsLen n.txHdr).toNat + i) = byteOf (dataBody n len) i := by
  have hheader := length_dataHeader n
  rw [dataFrame, dataMsg, byteOf_append_left _ _ _ (by rw [List.length_append]; omega),
    byteOf_append_right _ _ _ (by omega), hheader, Nat.add_sub_cancel_left]

theorem dataFrame_fport (hlen : len > 0) :
    byteOf (dataFrame n len) (8 + (txFoptsLen n.txHdr).toNat) = txFport n.txHdr := by
  have hbody := byteOf_dataFrame_body n len (i := 0) (by rw [length_dataBody, if_pos hlen]; omega)
  rw [Nat.add_zero] at hbody
  rw [hbody, dataBody, if_pos hlen]
  rfl

theorem dataFrame_payload {i : Nat} (hi : i < len) :
    byteOf (dataFrame n len) (9 + (txFoptsLen n.txHdr).toNat + i) = n.byteAt (0x400 + i) ^^^
      payloadMask n (txFport n.txHdr) (txDir n.txHdr) n.devAddr (encFcnt n) i := by
  have hlen : len > 0 := by omega
  have hbody := byteOf_dataFrame_body n len (i := i + 1) (by rw [length_dataBody, if_pos hlen]; omega)
  have hpbuf : byteOf (n.pbuf len) i = n.byteAt (0x400 + i) := n.byteOf_load _ _ i hi
  rw [show 9 + (txFoptsLen n.txHdr).toNat + i = 8 + (txFoptsLen n.txHdr).toNat + (i + 1) by omega, hbody, dataBody,
    if_pos hlen, byteOf_append_right _ _ _ (by simp), List.length_singleton, Nat.add_sub_cancel,
    byteOf_cryptPayload _ _ _ _ _ (by simpa using hi), hpbuf]

theorem dataFrame_msg :
    sub (dataFrame n len) 0 (dataFrameLen (txFoptsLen n.txHdr).toNat len - 4) = dataMsg n len :=
  sub_append_left _ _ _ (length_dataMsg_eq_sub n len)

theorem dataFrame_mic : sub (dataFrame n len) (dataFrameLen (txFoptsLen n.txHdr).toNat len - 4) 4 =
    dataMic n (txDir n.txHdr) n.devAddr (encFcnt n) (dataMsg n len) :=
  sub_append_right _ _ _ _ (length_dataMsg_eq_sub n len) (length_dataMic ..)

theorem dataFrame_mic_eq_tag4 :
    let total := dataFrameLen (txFoptsLen n.txHdr).toNat len
    sub (dataFrame n len) (total - 4) 4 = tag4 n.k1
      (b0Bytes (txDir n.txHdr) n.devAddr (encFcnt n) (total - 4) ++ sub (dataFrame n len) 0 (total - 4)) := by
  intro total
  rw [dataFrame_mic, dataFrame_msg, dataMic_eq_tag4, length_dataMsg_eq_sub]

end

/-! ## The command (41_codec R203) -/

theorem exec_dataEnc {len : Len} {s : State} (hjoined : s.snapshot.joined = true)
    (hlen : dataFrameLen (txFoptsLen s.snapshot.txHdr).toNat len.toNat ≤ 256) :
    exec (.dataEnc len) s = .next (s.commit (s.op.storeFbuf (dataFrame s.snapshot len.toNat))
      { s.res with
        resLen := BitVec.ofNat 9 (dataFrameLen (txFoptsLen s.snapshot.txHdr).toNat len.toNat)
        mic := micWord (dataMic s.snapshot (txDir s.snapshot.txHdr) s.snapshot.devAddr (encFcnt s.snapshot)
          (dataMsg s.snapshot len.toNat)) }) := by
  have hlegal : len.toNat ≤ 256 := by
    unfold dataFrameLen at hlen
    split at hlen <;> omega
  rw [exec, execDataEnc, dataEncResult, checkLen_legal hlegal, hjoined, if_neg (by decide), if_neg (by omega)]
  rfl

/-- Settles O41: what FBUF then holds is the frame, and each field is a slice of it. -/
theorem dataEncBuildsTheFrame : Obligations.DataEncBuildsTheFrame := by
  intro len s hjoined n h fol p total htotal dir fcnt
  have hread : (s.op.storeFbuf (dataFrame n p)).fbuf total = dataFrame n p := by
    have := s.op.fbuf_storeFbuf (dataFrame n p)
    rwa [length_dataFrame] at this
  refine ⟨_, exec_dataEnc hjoined htotal, rfl, rfl, rfl,
    sameBytesOutside_store _ _ _ (length_dataFrame n p), ?_⟩
  intro f
  have hf : f = dataFrame n p := hread
  rw [hf, dataFrame_mhdr, dataFrame_fctrl]
  exact ⟨mhdrOf_eq_ite .., dataFrame_devAddr n p, extractLsb'_fctrlOf_flags .., extractLsb'_fctrlOf_fol ..,
    dataFrame_fcnt n p, dataFrame_fopts n p,
    fun hp => ⟨dataFrame_fport n p hp, fun i hi => dataFrame_payload n p hi⟩,
    dataFrame_mic_eq_tag4 n p, congrArg micWord (dataFrame_mic n p).symm⟩

end Sys2Proof.Machine
end

section
/-! PROOFS. DATA_DEC (41_codec R187, R204): the fields `parseFrame` takes from a frame that passes the checks, and what
the accepted frame writes. -/

namespace Sys2Proof.Machine

open Sys2Proof.Claim

/-! ## The fields of a frame (41_codec R186, R187, R190) -/

theorem parseFrame_addr {f : List Byte} {addr : Word} (h : sub f 1 4 = leBytes 4 addr.toNat) (fcntUp : Word) :
    (parseFrame f fcntUp).addr = addr := by
  have hlt := addr.isLt
  simp only [parseFrame, h, fromLE_leBytes]
  apply BitVec.eq_of_toNat_eq
  rw [BitVec.toNat_ofNat]
  omega

theorem parseFrame_port (f : List Byte) (fcntUp : Word) : (parseFrame f fcntUp).port =
    if f.length > 12 + rxFol f then byteOf f (8 + rxFol f) else 0 := by
  simp only [parseFrame, decide_eq_true_eq]

theorem parseFrame_pay {f : List Byte} (hfol : 12 + rxFol f ≤ f.length) (fcntUp : Word) :
    (parseFrame f fcntUp).pay = sub f (9 + rxFol f) (f.length - (13 + rxFol f)) := by
  simp only [parseFrame, decide_eq_true_eq]
  split
  · congr 1
    omega
  · rw [show f.length - (13 + rxFol f) = 0 by omega, sub, List.take_zero]

theorem length_parseFrame_pay {f : List Byte} (hfol : 12 + rxFol f ≤ f.length) (fcntUp : Word) :
    (parseFrame f fcntUp).pay.length = f.length - (13 + rxFol f) := by
  rw [parseFrame_pay hfol, length_sub]
  omega

/-- RX_FOPTS holds the options of the frame, filled up with zeros (10_state R56). -/
theorem blockBytes_parseFrame_fopts {f : List Byte} (hfol : 12 + rxFol f ≤ f.length) (fcntUp : Word) :
    blockBytes (blockOf (parseFrame f fcntUp).fopts) = sub f 8 (rxFol f) ++ zeros (16 - rxFol f) := by
  have hlen : (sub f 8 (rxFol f)).length = rxFol f := by rw [length_sub]; omega
  have hlt : rxFol f < 16 := (folOf (byteOf f 5)).isLt
  rw [show (parseFrame f fcntUp).fopts = sub f 8 (rxFol f) from rfl, blockBytes_blockOf_of_le (by omega), hlen]

/-- The payload cipher undone, byte by byte. -/
theorem byteOf_cryptPayload_parseFrame (n : Operands) {f : List Byte} (hfol : 12 + rxFol f ≤ f.length) (fcntUp : Word)
    {i : Nat} (hi : i < f.length - (13 + rxFol f)) :
    let x := parseFrame f fcntUp
    byteOf (cryptPayload n x.port x.dir x.addr x.fcnt32 x.pay) i =
      byteOf f (9 + rxFol f + i) ^^^ payloadMask n x.port x.dir x.addr x.fcnt32 i := by
  intro x
  have hlen : x.pay.length = f.length - (13 + rxFol f) := length_parseFrame_pay hfol fcntUp
  have hpay : byteOf x.pay i = byteOf f (9 + rxFol f + i) := by rw [parseFrame_pay hfol, byteOf_sub _ _ _ _ hi]
  rw [byteOf_cryptPayload _ _ _ _ _ (hlen ▸ hi), hpay]

/-! ## The command (41_codec R204) -/

theorem dataDecCommit_results (x : RxFrame) (n o : Operands) (r : Results) : (dataDecCommit x n o r).2 = { r with
    resLen := BitVec.ofNat 9 x.pay.length, rxInfo := rxInfoOf x, rxDevAddr := x.addr, rxFcnt := x.fcnt16
    rxFopts := blockOf x.fopts, mic := micWord x.mic } := by
  simp only [dataDecCommit, length_cryptPayload]

/-- A frame that passes R295's checks is committed. -/
theorem exec_dataDec {len : Len} {s : State} {f : List Byte} {x : RxFrame} (hf : s.snapshot.fbuf len.toNat = f)
    (hx : parseFrame f s.snapshot.fcntUp = x) (hjoined : s.snapshot.joined = true)
    (hfol : 12 + rxFol f ≤ len.toNat) (hlen : len.toNat ≤ 256)
    (hmtype : mtypeOf x.mhdr = 2 ∨ mtypeOf x.mhdr = 3 ∨ mtypeOf x.mhdr = 4 ∨ mtypeOf x.mhdr = 5)
    (haddr : x.addr = s.snapshot.devAddr)
    (hmic : dataMic s.snapshot x.dir x.addr x.fcnt32 (sub f 0 (len.toNat - 4)) = x.mic) :
    exec (.dataDec len) s = .next
      (s.commit (dataDecCommit x s.snapshot s.op s.res).1 (dataDecCommit x s.snapshot s.op s.res).2) := by
  have hlong : ¬len.toNat < 12 := by omega
  have hmhdr : ¬(mtypeOf x.mhdr < 2 ∨ mtypeOf x.mhdr > 5) := by omega
  rw [exec, execDataDec, dataDecResult, checkLen_legal hlen]
  simp only [hf, hx]
  rw [hjoined, if_neg (by decide), if_neg hlong, if_neg hmhdr, if_neg (not_not.mpr haddr), if_neg (by omega),
    if_neg (not_not.mpr hmic)]
  rfl

/-- Settles O42: the hypotheses are the model's checks, and each register shows a field of the frame. -/
theorem dataDecAcceptsTheFrame : Obligations.DataDecAcceptsTheFrame := by
  intro len s n L f mt dir fol fcnt16 fcnt32 port plen hjoined hfol hlen hmtype haddr hmic
  have hf : f.length = L := n.length_fbuf L
  have hfol' : 12 + rxFol f ≤ f.length := hf ▸ hfol
  have hplen : f.length - (13 + rxFol f) = plen := congrArg (· - (13 + fol)) hf
  let x := parseFrame f n.fcntUp
  have hxaddr : x.addr = n.devAddr := parseFrame_addr haddr n.fcntUp
  have hxport : x.port = port := (parseFrame_port f n.fcntUp).trans (by rw [hf]; rfl)
  have hxlen : x.pay.length = plen := (length_parseFrame_pay hfol' n.fcntUp).trans hplen
  have hxmic : x.mic = sub f (L - 4) 4 := congrArg (sub f · 4) (congrArg (· - 4) hf)
  have hmic' : dataMic n x.dir x.addr x.fcnt32 (sub f 0 (L - 4)) = x.mic := by
    have hmsg : (sub f 0 (L - 4)).length = L - 4 := by rw [length_sub]; omega
    rw [dataMic_eq_tag4, hmsg, hxaddr, hxmic]
    exact hmic
  have hplain : (cryptPayload n x.port x.dir x.addr x.fcnt32 x.pay).length = plen := by rw [length_cryptPayload, hxlen]
  refine ⟨_, exec_dataDec rfl rfl hjoined hfol hlen hmtype hxaddr hmic', rfl, rfl, fun i hi => ?_,
    sameBytesOutside_store s.op 0x400 _ hplain, ?_, blockBytes_parseFrame_fopts hfol' n.fcntUp, rxInfoOf_mhdr x,
    rxInfoOf_fctrl x, rxInfoOf_fol x, ?_, (rxInfoOf_port x).trans hxport, rxInfoOf_dir x, rxInfoOf_conf x,
    rxInfoOf_reserved x⟩
  · refine (s.op.byteAt_store_eq_byteOf 0x400 _ (hplain ▸ hi)).trans ?_
    rw [byteOf_cryptPayload_parseFrame n hfol' n.fcntUp (hplen ▸ hi), ← hxport, ← hxaddr]
    rfl
  · change (dataDecCommit x n s.op s.res).2 = _
    rw [dataDecCommit_results, hxlen, hxaddr, hxmic]
    rfl
  · rw [← hf]
    exact rxInfoOf_fportPresent x

end Sys2Proof.Machine
end

section
/-! PROOFS. The session commands (41_codec R188, R189, R200 to R202): SESSRST, the Join-Request, and what a Join-Accept
commits. -/

namespace Sys2Proof.Machine

open Sys2Proof.Claim

/-! ## Session reset (41_codec R200) -/

/-- Settles O38: SESSRST has no check, so it commits, and a zero DEVADDR alone ends JOINED. -/
theorem sessRstZeroesTheSession : Obligations.SessRstZeroesTheSession := fun _ => ⟨_, rfl, rfl, rfl⟩

/-! ## Join-Request (41_codec R188, R201) -/

/-- The Join-Request with its MIC. -/
def jreqFrame (n : Operands) : List Byte := jreqBody n ++ mic4 n.k0 (jreqBody n)

theorem length_jreqFrame (n : Operands) : (jreqFrame n).length = 23 := by
  rw [jreqFrame, List.length_append, length_jreqBody, length_mic4]

theorem exec_jreqEnc {s : State} (hjoined : s.snapshot.joined = false) :
    exec .jreqEnc s = .next (s.commit (s.op.storeFbuf (jreqFrame s.snapshot))
      { s.res with resLen := 23, mic := micWord (mic4 s.snapshot.k0 (jreqBody s.snapshot)) }) := by
  rw [exec, execJreqEnc, jreqResult, hjoined]
  rfl

/-- A store into FBUF changes the buffer memory only. -/
theorem Operands.storeFbuf_with_mem (o : Operands) (bs : List Byte) : { o.storeFbuf bs with mem := o.mem } = o := rfl

/-- Settles O39: on an unjoined core the only write to an operand or a buffer is the store of the frame into FBUF. -/
theorem jreqEncBuildsJoinRequest : Obligations.JreqEncBuildsJoinRequest := by
  intro s hjoined n body mic
  have hread := s.op.fbuf_storeFbuf (jreqFrame n)
  rw [length_jreqFrame] at hread
  exact ⟨_, exec_jreqEnc hjoined, rfl, s.op.storeFbuf_with_mem (jreqFrame n), hread,
    sameBytesOutside_store _ _ _ (length_jreqFrame n)⟩

/-! ## Join-Accept (41_codec R189, R202) -/

/-- JA_PARAMS is four bytes side by side (10_state R57). -/
theorem jaParamsOf_eq_append (p : List Byte) : jaParamsOf p =
    byteOf p 0 ++ (if p.length = 33 then 1 else 0 : Byte) ++ byteOf p 12 ++ byteOf p 11 := by
  have hflag : (if p.length = 33 then 1 else 0 : Word) = (if p.length = 33 then 1 else 0 : Byte).setWidth 32 := by
    split <;> rfl
  rw [jaParamsOf, hflag]
  generalize (if p.length = 33 then 1 else 0 : Byte) = cfList, byteOf p 0 = mhdr, byteOf p 11 = dl, byteOf p 12 = delay
  ext i hi
  simp only [BitVec.getElem_or, BitVec.getElem_setWidth, BitVec.getElem_shiftLeft]
  grind

/-- The session that a Join-Accept with plaintext `p` starts, in the operand registers. -/
def jaccSession (p : List Byte) (n o : Operands) : Operands :=
  let an := BitVec.ofNat 24 (fromLE (sub p 1 3))
  let nid := BitVec.ofNat 24 (fromLE (sub p 4 3))
  deriveInto n { o with
    jaAppNonce := an, jaNetId := nid, devAddr := BitVec.ofNat 32 (fromLE (sub p 7 4))
    fcntUp := 0, fcntDown := 0 } an nid

theorem jaccCommit_of_cfList {p : List Byte} (hp : p.length = 33) (n o : Operands) (r : Results) :
    jaccCommit p n o r = ((jaccSession p n o).storePbuf (sub p 13 16),
      { r with jaParams := jaParamsOf p, mic := micWord (sub p (p.length - 4) 4), resLen := 16 }) :=
  if_pos hp

theorem jaccCommit_of_no_cfList {p : List Byte} (hp : p.length ≠ 33) (n o : Operands) (r : Results) :
    jaccCommit p n o r = (jaccSession p n o,
      { r with jaParams := jaParamsOf p, mic := micWord (sub p (p.length - 4) 4), resLen := 0 }) :=
  if_neg hp

/-- A Join-Accept that passes R295's checks is committed. -/
theorem exec_jaccDec {len : Len} {s : State} {p : List Byte}
    (hp : jaccPlain s.snapshot.k0 (s.snapshot.fbuf len.toNat) = p) (hjoined : s.snapshot.joined = false)
    (hlen : len.toNat = 17 ∨ len.toNat = 33)
    (hmic : mic4 s.snapshot.k0 (sub p 0 (len.toNat - 4)) = sub p (len.toNat - 4) 4) :
    exec (.jaccDec len) s = .next
      (s.commit (jaccCommit p s.snapshot s.op s.res).1 (jaccCommit p s.snapshot s.op s.res).2) := by
  rw [exec, execJaccDec, jaccResult, checkLen_legal (by omega), hjoined, if_neg (by decide), if_neg (by omega)]
  simp only [hp]
  rw [if_neg (not_not.mpr hmic)]
  rfl

/-- Settles O40: the plaintext is as long as the frame, and only the form of 33 bytes has a CFList to store. -/
theorem jaccDecCommitsTheSession : Obligations.JaccDecCommitsTheSession := by
  intro len s hjoined hlen n p mic hmic an nid
  have hp : p.length = len.toNat :=
    (length_jaccPlain n.k0 _ ((n.length_fbuf len.toNat).symm ▸ hlen)).trans (n.length_fbuf len.toNat)
  have hparams := jaParamsOf_eq_append p
  have hexec := exec_jaccDec (p := p) rfl hjoined hlen hmic
  by_cases hcf : len.toNat = 33
  · rw [jaccCommit_of_cfList (hp.trans hcf), hparams, hp] at hexec
    have hcfList : (sub p 13 16).length = 16 := by rw [length_sub]; omega
    have hread := (jaccSession p n s.op).pbuf_storePbuf (sub p 13 16)
    rw [hcfList] at hread
    refine ⟨_, hexec, ?_, rfl,
      fun _ => ⟨hread, sameBytesOutside_store (jaccSession p n s.op) 0x400 _ hcfList⟩, by omega⟩
    simp only [if_pos hcf]
    rfl
  · rw [jaccCommit_of_no_cfList (hp.trans_ne hcf), hparams, hp] at hexec
    refine ⟨_, hexec, ?_, rfl, fun h => absurd h hcf, fun _ _ => rfl⟩
    simp only [if_neg hcf]
    rfl

end Sys2Proof.Machine
end

section
/-! PROOFS. DATA_DEC undoes DATA_ENC (41_codec R193): parsing the frame that DATA_ENC built gives back the fields it was
built from, the counter among them, and the payload cipher is its own inverse. -/

namespace Sys2Proof.Machine

open Sys2Proof.Claim

/-! ## Single fields (41_codec R180, R190) -/

theorem mtypeOf_mhdrOf (dir conf : Bool) :
    mtypeOf (mhdrOf dir conf) = if dir then (if conf then 5 else 3) else (if conf then 4 else 2) := by
  cases dir <;> cases conf <;> rfl

theorem decide_mtypeOf_mhdrOf_dir (dir conf : Bool) :
    decide (mtypeOf (mhdrOf dir conf) = 3 ∨ mtypeOf (mhdrOf dir conf) = 5) = dir := by
  rw [mtypeOf_mhdrOf]
  cases dir <;> cases conf <;> rfl

theorem decide_mtypeOf_mhdrOf_conf (dir conf : Bool) :
    decide (mtypeOf (mhdrOf dir conf) = 4 ∨ mtypeOf (mhdrOf dir conf) = 5) = conf := by
  rw [mtypeOf_mhdrOf]
  cases dir <;> cases conf <;> rfl

theorem mtypeOf_mhdrOf_legal (dir conf : Bool) : mtypeOf (mhdrOf dir conf) = 2 ∨ mtypeOf (mhdrOf dir conf) = 3 ∨
    mtypeOf (mhdrOf dir conf) = 4 ∨ mtypeOf (mhdrOf dir conf) = 5 := by
  rw [mtypeOf_mhdrOf]
  cases dir <;> cases conf <;> decide

theorem folOf_fctrlOf (flags fol : BitVec 4) : folOf (fctrlOf flags fol) = fol := extractLsb'_fctrlOf_fol flags fol

/-- The 16 counter bits in a frame are the counter's low ones. -/
theorem ofNat_fromLE_leBytes_two (v : Word) : BitVec.ofNat 16 (fromLE (leBytes 2 v.toNat)) = v.setWidth 16 := by
  rw [fromLE_leBytes]
  apply BitVec.eq_of_toNat_eq
  simp

theorem hi_append_low (v : Word) : v.extractLsb' 16 16 ++ v.setWidth 16 = v := by
  rw [BitVec.setWidth_eq_extractLsb' (by decide), BitVec.extractLsb'_append_extractLsb'_eq_extractLsb' (by decide),
    BitVec.extractLsb'_eq_self]

/-- The receiver completes an uplink's counter from FCNTUP, which the sender used, and a downlink's with zeros. -/
theorem encFcnt_completed (n : Operands) :
    (if txDir n.txHdr then ((encFcnt n).setWidth 16).setWidth 32
      else n.fcntUp.extractLsb' 16 16 ++ (encFcnt n).setWidth 16) = encFcnt n := by
  unfold encFcnt
  cases txDir n.txHdr with
  | true => simp
  | false => exact hi_append_low n.fcntUp

/-- The payload cipher is its own inverse (41_codec R183). -/
theorem cryptPayload_cryptPayload (n : Operands) (port : Byte) (dir : Bool) (addr fcnt : Word) (pay : List Byte) :
    cryptPayload n port dir addr fcnt (cryptPayload n port dir addr fcnt pay) = pay :=
  ctrx_ctrx ..

theorem sub_append_middle {a b : List Byte} (c : List Byte) {k n : Nat} (ha : a.length = k) (hb : b.length = n) :
    sub (a ++ b ++ c) k n = b := by
  rw [sub, List.append_assoc, List.drop_left' ha, List.take_left' hb]

/-! ## The fields of an encoded frame (41_codec R186, R187, R190) -/

/-- What a receiver should find in the frame that DATA_ENC builds from `n`. -/
def sentFrame (n : Operands) (len : Nat) : RxFrame where
  mhdr := mhdrOf (txDir n.txHdr) (txConfirmed n.txHdr)
  dir := txDir n.txHdr
  conf := txConfirmed n.txHdr
  addr := n.devAddr
  fctrl := fctrlOf (txFlags n.txHdr) (txFoptsLen n.txHdr)
  fcnt16 := (encFcnt n).setWidth 16
  fcnt32 := encFcnt n
  fopts := (blockBytes n.txFopts).take (txFoptsLen n.txHdr).toNat
  fportPresent := decide (len > 0)
  port := if len > 0 then txFport n.txHdr else 0
  pay := cryptPayload n (txFport n.txHdr) (txDir n.txHdr) n.devAddr (encFcnt n) (n.pbuf len)
  mic := dataMic n (txDir n.txHdr) n.devAddr (encFcnt n) (dataMsg n len)

section

variable (n : Operands) (len : Nat)

theorem rxFol_dataFrame : rxFol (dataFrame n len) = (txFoptsLen n.txHdr).toNat := by
  rw [rxFol, dataFrame_fctrl, folOf_fctrlOf]

/-- A frame is longer than its header and MIC exactly when it carries a payload (R187). -/
theorem fport_dataFrame_iff : (dataFrame n len).length > 12 + rxFol (dataFrame n len) ↔ len > 0 := by
  rw [length_dataFrame, rxFol_dataFrame, dataFrameLen]
  split <;> omega

theorem length_dataFrame_ge : 12 + rxFol (dataFrame n len) ≤ (dataFrame n len).length := by
  rw [length_dataFrame, rxFol_dataFrame, dataFrameLen]
  omega

theorem length_dataFrame_sub_fport :
    (dataFrame n len).length - (13 + rxFol (dataFrame n len)) = len := by
  rw [length_dataFrame, rxFol_dataFrame, dataFrameLen]
  split <;> omega

theorem dataFrame_pay : sub (dataFrame n len) (9 + (txFoptsLen n.txHdr).toNat) len =
    cryptPayload n (txFport n.txHdr) (txDir n.txHdr) n.devAddr (encFcnt n) (n.pbuf len) := by
  by_cases hlen : len > 0
  · have hheader : (dataHeader n ++ [txFport n.txHdr]).length = 9 + (txFoptsLen n.txHdr).toNat := by
      rw [List.length_append, length_dataHeader, List.length_singleton]
      omega
    rw [dataFrame, dataMsg, dataBody, if_pos hlen, ← List.append_assoc,
      sub_append_middle _ hheader (by simp)]
  · rw [Nat.eq_zero_of_not_pos hlen]
    rfl

/-- Parsing undoes building, field by field. -/
theorem parseFrame_dataFrame : parseFrame (dataFrame n len) n.fcntUp = sentFrame n len := by
  let x := parseFrame (dataFrame n len) n.fcntUp
  have hdir : x.dir = txDir n.txHdr := decide_mtypeOf_mhdrOf_dir _ _
  have hconf : x.conf = txConfirmed n.txHdr := decide_mtypeOf_mhdrOf_conf _ _
  have haddr : x.addr = n.devAddr := parseFrame_addr (dataFrame_devAddr n len) n.fcntUp
  have hfcnt16 : x.fcnt16 = (encFcnt n).setWidth 16 := ofNat_fromLE_leBytes_two (encFcnt n)
  have hfcnt32 : x.fcnt32 = encFcnt n := by
    rw [← encFcnt_completed n, ← hdir, ← hfcnt16]
    rfl
  have hfopts : x.fopts = (blockBytes n.txFopts).take (txFoptsLen n.txHdr).toNat := by
    rw [← dataFrame_fopts n len, ← rxFol_dataFrame n len]
    rfl
  have hpresent : x.fportPresent = decide (len > 0) := decide_eq_decide.mpr (fport_dataFrame_iff n len)
  have hport : x.port = if len > 0 then txFport n.txHdr else 0 := by
    by_cases hlen : len > 0
    · rw [parseFrame_port, if_pos ((fport_dataFrame_iff n len).mpr hlen), rxFol_dataFrame, dataFrame_fport n len hlen,
        if_pos hlen]
    · rw [parseFrame_port, if_neg (mt (fport_dataFrame_iff n len).mp hlen), if_neg hlen]
  have hpay : x.pay = cryptPayload n (txFport n.txHdr) (txDir n.txHdr) n.devAddr (encFcnt n) (n.pbuf len) := by
    rw [← dataFrame_pay, ← rxFol_dataFrame n len, parseFrame_pay (length_dataFrame_ge n len),
      length_dataFrame_sub_fport]
  have hmic : x.mic = dataMic n (txDir n.txHdr) n.devAddr (encFcnt n) (dataMsg n len) := by
    rw [← dataFrame_mic, ← length_dataFrame]
    rfl
  exact (RxFrame.mk.injEq ..).mpr
    ⟨dataFrame_mhdr n len, hdir, hconf, haddr, dataFrame_fctrl n len, hfcnt16, hfcnt32, hfopts, hpresent, hport, hpay,
      hmic⟩

end

/-! ## The two commands, one after the other (41_codec R193) -/

/-- DATA_ENC without an error ran on a joined core, on a frame that fits. -/
theorem dataEnc_fits_of_ok {len : Len} {s t : State} (h : exec (.dataEnc len) s = .next t) (hok : t.errCode = .ok) :
    s.snapshot.joined = true ∧ dataFrameLen (txFoptsLen s.snapshot.txHdr).toNat len.toNat ≤ 256 := by
  rw [exec, execDataEnc, dataEncResult, checkLen] at h
  split at h
  · cases h
    cases hok
  · split at h
    · cases h
      cases hok
    · split at h
      · cases h
        cases hok
      · rename_i hjoined hlen
        exact ⟨by simpa using hjoined, Nat.le_of_not_lt hlen⟩

/-- DATA_ENC without an error left the frame in FBUF, its length in RES_LEN and no command running. -/
theorem dataEnc_leaves_dataFrame {len : Len} {s t : State} (hsnap : s.snapshot = s.op)
    (h : exec (.dataEnc len) s = .next t) (hok : t.errCode = .ok) :
    t.running = none ∧ t.op = s.op.storeFbuf (dataFrame s.op len.toNat) ∧
      t.res.resLen.toNat = (dataFrame s.op len.toNat).length := by
  obtain ⟨hjoined, hfits⟩ := dataEnc_fits_of_ok h hok
  rw [exec_dataEnc hjoined hfits] at h
  cases h
  rw [hsnap] at hfits ⊢
  refine ⟨rfl, rfl, ?_⟩
  rw [State.commit_res, length_dataFrame, BitVec.toNat_ofNat, Nat.mod_eq_of_lt (by omega)]

/-- What the decoder writes for the encoder's frame: the payload, under the port that is 0 for no payload. -/
theorem cryptPayload_sentFrame (n : Operands) (len : Nat) :
    let x := sentFrame n len
    cryptPayload n x.port x.dir x.addr x.fcnt32 x.pay = n.pbuf len := by
  by_cases hlen : len > 0
  · simp only [sentFrame, if_pos hlen]
    exact cryptPayload_cryptPayload ..
  · rw [Nat.eq_zero_of_not_pos hlen]
    rfl

/-- DATA_DEC accepts the encoder's frame, with the operands it was built from but for the frame in FBUF. -/
theorem exec_dataDec_dataFrame {len : Nat} {rlen : Len} {t : State} {o : Operands} (hidle : t.running = none)
    (hop : t.op = o.storeFbuf (dataFrame o len)) (hjoined : o.joined = true)
    (hrlen : rlen.toNat = (dataFrame o len).length) (hfits : (dataFrame o len).length ≤ 256) :
    exec (.dataDec rlen) t = .next (t.commit (dataDecCommit (sentFrame o len) o t.op t.res).1
      (dataDecCommit (sentFrame o len) o t.op t.res).2) := by
  have hsnap : t.snapshot = o.storeFbuf (dataFrame o len) := (t.snapshot_of_idle hidle).trans hop
  have hframe : t.snapshot.fbuf rlen.toNat = dataFrame o len := by
    rw [hsnap, hrlen]
    exact o.fbuf_storeFbuf _
  have hparse : parseFrame (dataFrame o len) t.snapshot.fcntUp = sentFrame o len := by
    rw [hsnap]
    exact parseFrame_dataFrame o len
  have hmsg : sub (dataFrame o len) 0 (rlen.toNat - 4) = dataMsg o len := by
    rw [hrlen, length_dataFrame]
    exact dataFrame_msg o len
  have hexec := exec_dataDec hframe hparse (by rw [hsnap]; exact hjoined) (hrlen ▸ length_dataFrame_ge o len)
    (hrlen ▸ hfits) (mtypeOf_mhdrOf_legal _ _) (by rw [hsnap]; rfl) (by rw [hsnap, hmsg]; rfl)
  rw [hexec, hsnap]
  rfl

/-- The header's bytes as the host reads them. -/
theorem byteAt_storeFbuf_dataFrame (n : Operands) (len : Nat) {i : Nat} (hi : i < 12) :
    (n.storeFbuf (dataFrame n len)).byteAt (0x500 + i) = byteOf (dataFrame n len) i := by
  have hge := length_dataFrame_ge n len
  exact n.byteAt_store_eq_byteOf 0x500 _ (by omega)

/-- The accepted payload lies in PBUF. -/
theorem pbuf_dataDecCommit_sentFrame (n o : Operands) (r : Results) (len : Nat) :
    (dataDecCommit (sentFrame n len) n o r).1.pbuf len = n.pbuf len := by
  have hread := o.pbuf_storePbuf (n.pbuf len)
  rw [Operands.length_pbuf] at hread
  change (o.storePbuf (cryptPayload n _ _ _ _ _)).pbuf len = n.pbuf len
  rw [cryptPayload_sentFrame, hread]

theorem resLen_dataDecCommit_sentFrame (n o : Operands) (r : Results) (len : Nat) :
    (dataDecCommit (sentFrame n len) n o r).2.resLen = BitVec.ofNat 9 len := by
  simp only [dataDecCommit_results, sentFrame, length_cryptPayload, Operands.length_pbuf]

/-- RX_FOPTS begins with the options sent. -/
theorem take_blockBytes_fopts_sentFrame (n : Operands) (len : Nat) :
    (blockBytes (blockOf (sentFrame n len).fopts)).take (txFoptsLen n.txHdr).toNat =
      (blockBytes n.txFopts).take (txFoptsLen n.txHdr).toNat := by
  have hfol := (txFoptsLen n.txHdr).isLt
  have hlen : ((blockBytes n.txFopts).take (txFoptsLen n.txHdr).toNat).length = (txFoptsLen n.txHdr).toNat := by
    rw [List.length_take, length_blockBytes]
    omega
  simp only [sentFrame]
  rw [blockBytes_blockOf_of_le (by omega), List.take_left' hlen]

/-- Settles O43: DATA_ENC leaves the operands as they were but for the frame, so what DATA_DEC parses is `sentFrame`. -/
theorem dataDecInvertsDataEnc : Obligations.DataDecInvertsDataEnc := by
  intro len s t hsnap ht hok
  obtain ⟨hjoined, hfits⟩ := dataEnc_fits_of_ok ht hok
  obtain ⟨hidle, hop, hrlen⟩ := dataEnc_leaves_dataFrame hsnap ht hok
  rw [hsnap] at hjoined hfits
  rw [← length_dataFrame] at hfits
  refine ⟨_, exec_dataDec_dataFrame hidle hop hjoined hrlen hfits, rfl,
    pbuf_dataDecCommit_sentFrame s.op t.op t.res len.toNat, ?_, ?_, ?_,
    (rxInfoOf_fol _).trans (folOf_fctrlOf ..), rxInfoOf_fportPresent _, rxInfoOf_port _, rxInfoOf_dir _,
    rxInfoOf_conf _, take_blockBytes_fopts_sentFrame ..⟩
  · rw [State.commit_res, resLen_dataDecCommit_sentFrame, BitVec.toNat_ofNat, Nat.mod_eq_of_lt len.isLt]
  · rw [hop]
    exact (rxInfoOf_mhdr _).trans (byteAt_storeFbuf_dataFrame s.op len.toNat (i := 0) (by decide)).symm
  · rw [hop]
    exact (rxInfoOf_fctrl _).trans (byteAt_storeFbuf_dataFrame s.op len.toNat (i := 5) (by decide)).symm

end Sys2Proof.Machine
end

section
/-! PROOFS. The scheduler's rules, one by one (42_scheduler R240 to R262): the tick, the events and the class switch, each
from every state. -/

namespace Sys2Proof.Machine

/-! ## The timed rule of each state (R248 to R254, R259) -/

theorem schedStep_outside_uplink {s : State} (h : s.sched.schedState = .idle ∨ s.sched.schedState = .continuous) :
    s.schedStep = s := by
  rcases h with h | h <;> simp only [State.schedStep, h]

theorem schedStep_of_wait1 {s : State} (h : s.sched.schedState = .wait1) : s.schedStep =
    if s.sched.elapsed ≥ s.sched.delay1 then
      State.emit { (s.goto .window1).stampWindow with
        sched := { (s.goto .window1).stampWindow.sched with rx1Dr := rx1Dr s.sched.rx1Cfg } } .openRx1
    else s := by
  simp only [State.schedStep, h]
  rfl

theorem schedStep_of_window1 {s : State} (h : s.sched.schedState = .window1) : s.schedStep =
    if s.sched.windowElapsed ≥ s.sched.window ∧ s.sched.elapsed ≥ s.sched.delay2 then
      (s.goto .window2).stampWindow.emit .openRx2
    else if s.sched.windowElapsed ≥ s.sched.window then
      (s.goto .wait2).emit (if s.sched.cls = .c then .contRx2 else .close)
    else s := by
  simp only [State.schedStep, h]
  by_cases hends : s.sched.windowElapsed ≥ s.sched.window
  · simp only [hends, true_and, if_true]
  · simp only [hends, false_and, if_false]

theorem schedStep_of_wait2 {s : State} (h : s.sched.schedState = .wait2) : s.schedStep =
    if s.sched.elapsed ≥ s.sched.delay2 then (s.goto .window2).stampWindow.emit .openRx2 else s := by
  simp only [State.schedStep, h]

theorem schedStep_of_window2 {s : State} (h : s.sched.schedState = .window2) : s.schedStep =
    if s.sched.windowElapsed ≥ s.sched.window then
      if s.sched.cls = .c then (s.goto .continuous).emit .contRx2 else (s.goto .idle).emit .close
    else s := by
  simp only [State.schedStep, h]

/-! ## The tick (R240) -/

theorem exec_tick (s : State) :
    exec .tick s = .next (State.schedStep { s with sched := { s.sched with time := s.sched.time + 1 } }) := rfl

/-- Settles O44: in these two states there is no timed rule. -/
theorem tickOutsideAnUplinkOnlyCounts : Obligations.TickOutsideAnUplinkOnlyCounts := by
  intro s h
  rw [exec_tick, schedStep_outside_uplink (by exact h)]

/-- Settles O45: a tick is the timed rule of its state, at the TIME already counted. -/
theorem tickRunsTheTimedRule : Obligations.TickRunsTheTimedRule := by
  intro s
  refine ⟨fun h => ?_, fun h => ?_, fun h => ?_, fun h => ?_⟩
  · rw [exec_tick, schedStep_of_wait1 (by exact h), apply_ite Host.Outcome.next]
    rfl
  · rw [exec_tick, schedStep_of_window1 (by exact h), apply_ite Host.Outcome.next, apply_ite Host.Outcome.next]
    rfl
  · rw [exec_tick, schedStep_of_wait2 (by exact h), apply_ite Host.Outcome.next]
    rfl
  · rw [exec_tick, schedStep_of_window2 (by exact h), apply_ite Host.Outcome.next, apply_ite Host.Outcome.next]
    rfl

/-! ## The RX1 data rate (R251) -/

/-- Settles O46: DR_MIN is not negative, so a negative difference counts as 0; and both bounds have four bits. -/
theorem rx1DrClampsTheDifference : Obligations.Rx1DrClampsTheDifference := by
  intro cfg up off lo hi
  have hlo : lo < 16 := (cfg.extractLsb' 8 4).isLt
  have hhi : hi < 16 := (cfg.extractLsb' 12 4).isLt
  have hclamp : max (lo : Int) (min ((up : Int) - off) hi) = (max lo (min (up - off) hi) : Nat) := by omega
  change (BitVec.ofInt 4 (max (lo : Int) (min ((up : Int) - off) hi))).toNat = _
  rw [hclamp, BitVec.ofInt_natCast, BitVec.toNat_ofNat, Nat.mod_eq_of_lt (by omega)]

/-! ## The events (R245, R255 to R258) -/

theorem irq_or_none (q : BitVec 5) : q ||| 0 = q := BitVec.or_zero

/-- Settles O47: R256's states are all but Idle and Continuous. -/
theorem txDoneStartsWait1 : Obligations.TxDoneStartsWait1 := by
  intro s
  simp only [exec, execEvTxDone, SchedState.serving_iff]
  by_cases hserving : s.sched.schedState ≠ .idle ∧ s.sched.schedState ≠ .continuous
  · by_cases hc : s.sched.cls = .c
    · simp only [if_pos hserving, State.raiseIrq_sched, if_pos hc]
      rfl
    · simp only [if_pos hserving, State.raiseIrq_sched, if_neg hc, irq_or_none]
      rfl
  · by_cases hc : s.sched.cls = .c
    · simp only [if_neg hserving, if_pos hc, irq_or_none]
      rfl
    · simp only [if_neg hserving, if_neg hc, irq_or_none]

/-- Settles O48: by the class, and by whether the state it ends is one that emits. -/
theorem rxOkEndsTheWindows : Obligations.RxOkEndsTheWindows := by
  intro s
  simp only [exec, execEvRxOk]
  cases hc : s.sched.cls with
  | a =>
    by_cases hw : s.sched.schedState = .window1 ∨ s.sched.schedState = .window2
    · simp only [if_pos hw, if_true, State.emit, State.goto, hc]
      rfl
    · simp only [if_neg hw, if_true, irq_or_none, State.goto, hc]
  | c =>
    by_cases hq : s.sched.schedState = .continuous
    · simp only [hq, State.goto, ne_eq, not_true, if_false, if_true, irq_or_none, hc, reduceCtorEq]
    · simp only [hq, State.goto, State.emit, ne_eq, not_false_iff, if_false, if_true, hc, reduceCtorEq]
      rfl

/-- Settles O49: the first raises its bit, the other two answer the state as it was. -/
theorem otherEventsDoNothingElse : Obligations.OtherEventsDoNothingElse :=
  fun _ => ⟨rfl, rfl, rfl⟩

/-! ## The class switch (R262) -/

/-- Settles O50: no change, to Class C, to Class A. -/
theorem setClassSwitchesTheClass : Obligations.SetClassSwitchesTheClass := by
  intro cls s waits acts quiet
  simp only [exec, execSetClass]
  refine ⟨fun hsame => ?_, fun hold hnew => ?_, fun hold hnew => ?_⟩
  · subst hsame
    rw [if_pos rfl]
  · subst hnew
    rw [if_neg (by rw [hold]; decide), apply_ite Host.Outcome.next, apply_ite Host.Outcome.next]
    rfl
  · subst hnew
    rw [if_neg (by rw [hold]; decide), apply_ite Host.Outcome.next, apply_ite Host.Outcome.next]
    rfl

end Sys2Proof.Machine
end

section
/-! PROOFS. The scheduler in a cycle (42_scheduler R242 to R244, R263): independent of the engine, its event before its
tick, and what can move its state and its timestamps. -/

namespace Sys2Proof.Machine

open Sys2Proof.Claim

/-! ## Independence (R243) -/

theorem exec_command_sched {i : Instr} (hi : isCommand i = true) {s t : State} (h : exec i s = .next t) :
    t.sched = s.sched := by
  obtain ⟨x, hx⟩ := exec_command i hi s
  rw [hx] at h
  cases h
  exact State.complete_sched s x

theorem Reg.locked_scheduler {r : Reg} (hlow : 0x200 ≤ r.offset.toNat) (hhigh : r.offset.toNat ≤ 0x234) :
    r.locked = false := by
  rw [← Bool.not_eq_true, Reg.locked_iff, LockedOffset]
  omega

/-- Settles O29: commands write operands and results only, the scheduler's operations its own registers and IRQ_STATUS. -/
theorem schedulerAndEngineAreIndependent : Obligations.SchedulerAndEngineAreIndependent := by
  refine ⟨fun i s t h hi => exec_command_sched hi h, fun i s t h hi => ?_, fun r => Reg.locked_scheduler⟩
  obtain ⟨c, q, hfree, hexec⟩ := exec_schedulerOp i hi s
  rw [hexec] at h
  cases h
  exact ⟨rfl, hfree⟩

/-! ## The order inside a cycle (R242, 70_reset_and_hazards R343) -/

/-- Whatever state the bus access leaves, the engine and the tick answer a next one. -/
theorem step_after_bus {s a : State} (hrst : s.nextInput.rst = false)
    (hbus : busPhase s.nextInput.bus { s.popInput with resp := none } = .next a) :
    ∃ b t, enginePhase a = .next b ∧ tickPhase s.nextInput.tick b = .next t ∧ step s = .next t := by
  obtain ⟨b, hengine, -⟩ := enginePhase_with_resp a none
  obtain ⟨t, htick, -⟩ := tickPhase_with_resp s.nextInput.tick b none
  refine ⟨b, t, hengine, htick, ?_⟩
  rw [step_of_not_rst hrst, hbus, andThen_next, hengine, andThen_next, htick]

theorem enginePhase_completes {s t : State} {r : Running} (h : enginePhase s = .next t) (hr : s.running = some r)
    (hleft : r.left = 0) : t.running = none := by
  rcases enginePhase_cases s with ⟨hidle, -⟩ | ⟨r', n, hr', hleft', -⟩ | ⟨r', x, -, -, e, e'⟩
  · rw [hr] at hidle
    cases hidle
  · rw [hr] at hr'
    cases hr'
    omega
  · rw [e, e'] at h
    cases h
    exact s.complete_running x

theorem decodeEvent_txDone {v : Word} (h : v.extractLsb' 0 2 = 1) : decodeEvent v = .evTxDone := by
  have htx : v.getLsbD 0 = (v.extractLsb' 0 2).getLsbD 0 := by simp
  have hrx : v.getLsbD 1 = (v.extractLsb' 0 2).getLsbD 1 := by simp
  rw [decodeEvent, htx, hrx, h]
  rfl

/-- STATUS is not locked, so a read while BUSY answers its value, with BUSY in bit 0. -/
theorem busPhase_reads_status {s : State} (hbusy : s.running.isSome = true) :
    ∃ v, busPhase (some (.read 0x008 .word)) s = .next { s with resp := some (.data v) } ∧ v.getLsbD 0 = true := by
  have hunlocked : Reg.locked .status = false := by decide
  have hread : s.busRead 0x008 .word = { s with resp := some (.data (s.readReg .status)) } :=
    State.busRead_of_open (r := .status) (by decide) (by simp [hunlocked])
  obtain ⟨hbit, -⟩ := statusShowsBusyJoinedErrcode.2 s
  exact ⟨_, congrArg _ hread, hbit.trans hbusy⟩

/-- A read of STATUS in the completing cycle still sees BUSY. -/
theorem step_reads_status_completing {s : State} {r : Running} (hrst : s.nextInput.rst = false)
    (hbus : s.nextInput.bus = some (.read 0x008 .word)) (hc : Completes s r) :
    ∃ t v, step s = .next t ∧ t.resp = some (.data v) ∧ v.getLsbD 0 = true ∧ t.running = none := by
  obtain ⟨hr, hleft⟩ := hc
  obtain ⟨v, hread, hv⟩ := busPhase_reads_status (s := { s.popInput with resp := none }) (Option.isSome_of_eq_some hr)
  rw [← hbus] at hread
  obtain ⟨b, t, hengine, htick, hstep⟩ := step_after_bus hrst hread
  obtain ⟨-, -, hresp, -⟩ := enginePhase_keeps _ b hengine
  have hidle : b.running = none := enginePhase_completes hengine hr hleft
  refine ⟨t, v, hstep, ?_, hv, ?_⟩ <;> rw [(tickPhase_effect _ b t htick).1]
  · exact hresp
  · exact hidle

/-- A TX_DONE is stamped with the TIME before a tick of the same cycle. -/
theorem step_stamps_txDone_before_tick {s : State} {v : Word} (hw : WritesWord s 0x21C v)
    (htickPin : s.nextInput.tick = true) (hv : v.extractLsb' 0 2 = 1) :
    ∃ t, step s = .next t ∧ t.sched.txEndTs = s.sched.time ∧ t.sched.time = s.sched.time + 1 := by
  obtain ⟨hrst, hbus⟩ := hw
  have hdec : decode (.busWrite 0x21C v) = .ok .evTxDone := congrArg Except.ok (decodeEvent_txDone hv)
  have hphase := busPhase_port (s := { s.popInput with resp := none }) (r := .event) (by decide) (by decide) (by decide)
    hdec
  rw [← hbus, txDoneStartsWait1] at hphase
  obtain ⟨b, t, hengine, htick, hstep⟩ := step_after_bus hrst hphase
  obtain ⟨hsched, -⟩ := enginePhase_keeps _ b hengine
  obtain ⟨-, -, -, htime, htx, -⟩ := tickPhase_effect _ b t htick
  refine ⟨t, hstep, ?_, ?_⟩
  · rw [htx, hsched]
    rfl
  · rw [htime, hsched, htickPin]
    rfl

/-- Settles O13: the engine and the tick act on what the bus access left. -/
theorem hostAccessComesFirstInItsCycle : Obligations.HostAccessComesFirstInItsCycle :=
  ⟨fun _ _ hrst hbus hc => step_reads_status_completing hrst hbus hc,
    fun _ _ hw htick hv => step_stamps_txDone_before_tick hw htick hv⟩

/-! ## SCHED_STATE (R263) -/

/-- Without a soft reset, only EVENT and SCHED_CTRL writes move SCHED_STATE in the bus part of a cycle. -/
theorem busPhase_schedState {bus : Option BusOp} {s a : State} (h : busPhase bus s = .next a) (hs : ¬SoftResets bus) :
    a.sched.schedState = s.sched.schedState ∨
    ∃ v : Word, bus = some (.write 0x21C .word v) ∨ bus = some (.write 0x200 .word v) := by
  rcases busPhase_effect bus s a h with ⟨v, hbus, hv, _⟩ | ⟨_, v, r, _, _, _, _, e⟩ | ⟨_, _, e⟩ |
    ⟨v, _, ⟨hbus, _⟩ | ⟨hbus, _⟩, _, _, _⟩ | ⟨_, _, _, _, _, e⟩ | ⟨e, _, _⟩
  · exact absurd ⟨v, hbus, hv⟩ hs
  · obtain ⟨-, -, -, -, -, -, -, -, -, hstate, -⟩ := writeReg_effect { s with resp := some .done } r v
    exact .inl (by rw [e, hstate])
  · exact .inl (by rw [e])
  · exact .inr ⟨v, .inl hbus⟩
  · exact .inr ⟨v, .inr hbus⟩
  · exact .inl (by rw [e]; rfl)
  · exact .inl (by rw [e])

/-- Settles O51: the engine never moves the scheduler, and without a pulse the tick's part does nothing. -/
theorem schedStateChangesOnlyByItsRules : Obligations.SchedStateChangesOnlyByItsRules := by
  intro s t h hne
  by_cases hr : Resets s
  · exact .inl hr
  obtain ⟨hrst, hsoft, a, b, hbus, hengine, htick⟩ := step_phases_of_not_resets h hr
  refine .inr ?_
  cases hpin : s.nextInput.tick with
  | true => exact .inl ⟨hrst, rfl⟩
  | false =>
    rw [hpin] at htick
    cases htick
    obtain ⟨hsched, -⟩ := enginePhase_keeps a _ hengine
    rw [hsched] at hne
    rcases busPhase_schedState hbus hsoft with e | ⟨v, hwrite | hwrite⟩
    · exact absurd e hne
    · exact .inr ⟨v, .inl ⟨hrst, hwrite⟩⟩
    · exact .inr ⟨v, .inr ⟨hrst, hwrite⟩⟩

/-! ## The timestamps (R244) -/

/-- Timestamps that stay or take the present TIME stay in the past when TIME does not fall. -/
theorem Sched.stampsPast.advance {c c' : Sched} (hc : c.stampsPast) (htime : c.time.toNat ≤ c'.time.toNat)
    (htx : c'.txEndTs = c.txEndTs ∨ c'.txEndTs = c'.time)
    (hwin : c'.winOpenTs = c.winOpenTs ∨ c'.winOpenTs = c'.time) : c'.stampsPast := by
  obtain ⟨htxPast, hwinPast⟩ := hc
  constructor
  · rcases htx with e | e <;> rw [e]
    exact htxPast.trans htime
  · rcases hwin with e | e <;> rw [e]
    exact hwinPast.trans htime

theorem Sched.stampsPast_of_zero {c : Sched} (htx : c.txEndTs = 0) (hwin : c.winOpenTs = 0) : c.stampsPast := by
  rw [Sched.stampsPast, htx, hwin]
  exact ⟨Nat.zero_le _, Nat.zero_le _⟩

theorem busPhase_stampsPast {bus : Option BusOp} {s a : State} (h : busPhase bus s = .next a)
    (hs : s.sched.stampsPast) : a.sched.stampsPast := by
  rcases busPhase_effect bus s a h with ⟨_, _, _, rfl⟩ | ⟨_, v, r, _, _, _, _, rfl⟩ | ⟨_, _, rfl⟩ |
    ⟨_, i, _, hi, ht, he⟩ | ⟨_, _, _, _, _, rfl⟩ | ⟨e, _, _⟩
  · exact Sched.stampsPast_of_zero rfl rfl
  · obtain ⟨-, -, -, -, -, -, -, -, htime, -, -, htx, hwin, -⟩ := writeReg_effect { s with resp := some .done } r v
    exact hs.advance (by rw [htime]) (.inl htx) (.inl hwin)
  · exact hs
  · obtain ⟨-, -, htime, htx, hwin, -⟩ := event_effect i hi ht _ a he
    exact hs.advance (by rw [htime]) (by rwa [htime]) (.inl hwin)
  · exact hs
  · rw [e]
    exact hs

/-- A tick that does not wrap TIME does not lower it. -/
theorem toNat_le_of_counted {time : DWord} (h : time.toNat + 1 < 2 ^ 64) (tick : Bool) :
    time.toNat ≤ (time + (if tick then 1 else 0)).toNat := by
  cases tick with
  | false => exact le_of_eq (congrArg BitVec.toNat (BitVec.add_zero time).symm)
  | true =>
    rw [if_pos rfl, BitVec.toNat_add_of_lt h]
    exact Nat.le_succ _

/-- Settles O53: a reset zeroes the timestamps, and every other write to one copies TIME. -/
theorem timestampsStayInThePast : Obligations.TimestampsStayInThePast := by
  intro s t hs hwrap h
  rcases step_phases h with ⟨-, rfl⟩ | ⟨-, a, b, hbus, hengine, htick⟩
  · exact Sched.stampsPast_of_zero rfl rfl
  · obtain ⟨hsched, -⟩ := enginePhase_keeps a b hengine
    obtain ⟨-, -, -, htime, htx, hwin, -⟩ := tickPhase_effect _ b t htick
    have hpast : b.sched.stampsPast := hsched ▸ busPhase_stampsPast hbus hs
    rw [hsched, busPhase_time hbus] at htime
    refine hpast.advance ?_ (.inl htx) hwin
    rw [htime, hsched, busPhase_time hbus]
    exact toNat_le_of_counted hwrap _

end Sys2Proof.Machine
end

section
/-! PROOFS. An uplink that receives nothing (42_scheduler R265, 70_reset_and_hazards R351): the scheduler's registers as a
function of the ticks since TX_DONE, which every tick follows. -/

namespace Sys2Proof.Machine

open Sys2Proof.Claim

/-! ## The plan of the windows, with D1 = d and W = w -/

/-- TIME n ticks later. -/
def Sched.timeAfter (c : Sched) (n : Nat) : DWord := c.time + BitVec.ofNat 64 n

/-- What the radio does when a window has closed: Class C listens continuously, Class A stops (R250, R254). -/
def Sched.afterWindow (c : Sched) : RadioAction := if c.cls = .c then .contRx2 else .close

/-- Before RX1 opens. -/
def Sched.beforeRx1 (c : Sched) (n : Nat) : Sched := { c with time := c.timeAfter n }

/-- RX1 is open. -/
def Sched.inRx1 (c : Sched) (d n : Nat) : Sched :=
  { c with
    time := c.timeAfter n, schedState := .window1, radioAction := .openRx1, winOpenTs := c.timeAfter d
    rx1Dr := Machine.rx1Dr c.rx1Cfg }

/-- Between RX1 and RX2. -/
def Sched.beforeRx2 (c : Sched) (d n : Nat) : Sched :=
  { c.inRx1 d n with schedState := .wait2, radioAction := c.afterWindow }

/-- RX2 is open. -/
def Sched.inRx2 (c : Sched) (d n : Nat) : Sched :=
  { c.inRx1 d n with schedState := .window2, radioAction := .openRx2, winOpenTs := c.timeAfter (d + 1000) }

/-- RX2 has closed. -/
def Sched.afterRx2 (c : Sched) (d n : Nat) : Sched :=
  { c.inRx2 d n with
    schedState := if c.cls = .c then .continuous else .idle, radioAction := c.afterWindow }

/-- The scheduler n ticks after TX_DONE, up to the end of RX2. -/
def Sched.unanswered (c : Sched) (d w n : Nat) : Sched :=
  if n < d then c.beforeRx1 n
  else if n < d + w then c.inRx1 d n
  else if n < d + 1000 then c.beforeRx2 d n
  else if n < d + 1000 + w then c.inRx2 d n
  else c.afterRx2 d n

/-- Just after TX_DONE, with timing for which RX1 closes before RX2 opens, and no wrap of TIME ahead (R351). -/
structure Sched.JustSent (c : Sched) (d w : Nat) : Prop where
  state : c.schedState = .wait1
  sent : c.txEndTs = c.time
  delay : c.rxDelay1.toNat = d
  window : c.windowMs.toNat = w
  delayPos : 1 ≤ d
  windowPos : 1 ≤ w
  windowShort : w < 1000
  noWrap : c.time.toNat + d + 1000 + w < 2 ^ 64

section Plan

variable {c : Sched} {d w n : Nat}

theorem Sched.timeAfter_succ (c : Sched) (n : Nat) : c.timeAfter n + 1 = c.timeAfter (n + 1) := by
  rw [Sched.timeAfter, Sched.timeAfter, BitVec.ofNat_add, ← BitVec.add_assoc]
  rfl

theorem Sched.unanswered_beforeRx1 (h : n < d) : c.unanswered d w n = c.beforeRx1 n := if_pos h

theorem Sched.unanswered_inRx1 (hd : d ≤ n) (h : n < d + w) : c.unanswered d w n = c.inRx1 d n := by
  rw [Sched.unanswered, if_neg (by omega), if_pos h]

theorem Sched.unanswered_beforeRx2 (hw : d + w ≤ n) (h : n < d + 1000) : c.unanswered d w n = c.beforeRx2 d n := by
  rw [Sched.unanswered, if_neg (by omega), if_neg (by omega), if_pos h]

variable (hc : c.JustSent d w)
include hc

theorem Sched.JustSent.unanswered_inRx2 (hd : d + 1000 ≤ n) (h : n < d + 1000 + w) :
    c.unanswered d w n = c.inRx2 d n := by
  have := hc.windowShort
  rw [Sched.unanswered, if_neg (by omega), if_neg (by omega), if_neg (by omega), if_pos h]

theorem Sched.JustSent.unanswered_afterRx2 (hw : d + 1000 + w ≤ n) : c.unanswered d w n = c.afterRx2 d n := by
  have := hc.windowShort
  rw [Sched.unanswered, if_neg (by omega), if_neg (by omega), if_neg (by omega), if_neg (by omega)]

theorem Sched.JustSent.toNat_timeAfter (hn : n ≤ d + 1000 + w) : (c.timeAfter n).toNat = c.time.toNat + n := by
  have := hc.noWrap
  rw [Sched.timeAfter, BitVec.toNat_add, BitVec.toNat_ofNat]
  omega

/-- `el` of R241 counts the ticks since TX_DONE. -/
theorem Sched.JustSent.elapsed (hn : n ≤ d + 1000 + w) :
    ((c.timeAfter n).toNat : Int) - (c.txEndTs.toNat : Int) = n := by
  rw [hc.toNat_timeAfter hn, hc.sent]
  omega

/-- `wel` of R241 counts the ticks since the window opened. -/
theorem Sched.JustSent.windowElapsed {m : Nat} (hmn : m ≤ n) (hn : n ≤ d + 1000 + w) :
    ((c.timeAfter n).toNat : Int) - ((c.timeAfter m).toNat : Int) = (n : Int) - m := by
  rw [hc.toNat_timeAfter hn, hc.toNat_timeAfter (hmn.trans hn)]
  omega

/-! ## A tick follows the plan -/

variable {s : State}

theorem tick_beforeRx1 (hn : n < d) (hs : s.sched = c.beforeRx1 n) :
    ∃ t, exec .tick s = .next t ∧ t.sched = c.unanswered d w (n + 1) := by
  obtain ⟨hrule, -⟩ := tickRunsTheTimedRule s
  have hrule := hrule (by rw [hs]; exact hc.state)
  simp only [hs, Sched.beforeRx1, Sched.timeAfter_succ, hc.elapsed (n := n + 1) (by omega), hc.delay] at hrule
  by_cases hnext : n + 1 < d
  · rw [if_neg (by omega)] at hrule
    exact ⟨_, hrule, (Sched.unanswered_beforeRx1 hnext).symm⟩
  · have hopens : n + 1 = d := by omega
    have := hc.windowPos
    rw [if_pos (by omega)] at hrule
    refine ⟨_, hrule, ?_⟩
    rw [Sched.unanswered_inRx1 (by omega) (by omega), Sched.inRx1, hopens]

theorem tick_inRx1 (hd : d ≤ n) (hn : n < d + w) (hs : s.sched = c.inRx1 d n) :
    ∃ t, exec .tick s = .next t ∧ t.sched = c.unanswered d w (n + 1) := by
  have := hc.windowShort
  obtain ⟨-, hrule, -⟩ := tickRunsTheTimedRule s
  have hrule := hrule (by rw [hs]; rfl)
  simp only [hs, Sched.inRx1, Sched.timeAfter_succ, hc.elapsed (n := n + 1) (by omega),
    hc.windowElapsed (m := d) (n := n + 1) (by omega) (by omega), hc.delay, hc.window] at hrule
  rw [if_neg (by omega)] at hrule
  by_cases hnext : n + 1 < d + w
  · rw [if_neg (by omega)] at hrule
    exact ⟨_, hrule, (Sched.unanswered_inRx1 (by omega) hnext).symm⟩
  · rw [if_pos (by omega)] at hrule
    exact ⟨_, hrule, (Sched.unanswered_beforeRx2 (by omega) (by omega)).symm⟩

theorem tick_beforeRx2 (hw : d + w ≤ n) (hn : n < d + 1000) (hs : s.sched = c.beforeRx2 d n) :
    ∃ t, exec .tick s = .next t ∧ t.sched = c.unanswered d w (n + 1) := by
  obtain ⟨-, -, hrule, -⟩ := tickRunsTheTimedRule s
  have hrule := hrule (by rw [hs]; rfl)
  simp only [hs, Sched.beforeRx2, Sched.inRx1, Sched.timeAfter_succ, hc.elapsed (n := n + 1) (by omega),
    hc.delay] at hrule
  by_cases hnext : n + 1 < d + 1000
  · rw [if_neg (by omega)] at hrule
    exact ⟨_, hrule, (Sched.unanswered_beforeRx2 (by omega) hnext).symm⟩
  · have hopens : n + 1 = d + 1000 := by omega
    have := hc.windowPos
    rw [if_pos (by omega)] at hrule
    refine ⟨_, hrule, ?_⟩
    rw [hc.unanswered_inRx2 (by omega) (by omega), Sched.inRx2, hopens, Sched.inRx1]

theorem tick_inRx2 (hd : d + 1000 ≤ n) (hn : n < d + 1000 + w) (hs : s.sched = c.inRx2 d n) :
    ∃ t, exec .tick s = .next t ∧ t.sched = c.unanswered d w (n + 1) := by
  obtain ⟨-, -, -, hrule⟩ := tickRunsTheTimedRule s
  have hrule := hrule (by rw [hs]; rfl)
  simp only [hs, Sched.inRx2, Sched.inRx1, Sched.timeAfter_succ,
    hc.windowElapsed (m := d + 1000) (n := n + 1) (by omega) (by omega), hc.window] at hrule
  by_cases hnext : n + 1 < d + 1000 + w
  · rw [if_neg (by omega)] at hrule
    exact ⟨_, hrule, (hc.unanswered_inRx2 (by omega) hnext).symm⟩
  · rw [if_pos (by omega), ← apply_ite Host.Outcome.next] at hrule
    refine ⟨_, hrule, ?_⟩
    rw [hc.unanswered_afterRx2 (by omega), Sched.afterRx2, Sched.afterWindow]
    split <;> rfl

/-- Up to the end of RX2 the plan holds from tick to tick. -/
theorem tick_unanswered (hn : n < d + 1000 + w) (hs : s.sched = c.unanswered d w n) :
    ∃ t, exec .tick s = .next t ∧ t.sched = c.unanswered d w (n + 1) := by
  by_cases hopens1 : n < d
  · exact tick_beforeRx1 hc hopens1 (hs.trans (Sched.unanswered_beforeRx1 hopens1))
  by_cases hcloses1 : n < d + w
  · exact tick_inRx1 hc (by omega) hcloses1 (hs.trans (Sched.unanswered_inRx1 (by omega) hcloses1))
  by_cases hopens2 : n < d + 1000
  · exact tick_beforeRx2 hc (by omega) hopens2 (hs.trans (Sched.unanswered_beforeRx2 (by omega) hopens2))
  · exact tick_inRx2 hc (by omega) hn (hs.trans (hc.unanswered_inRx2 (by omega) hn))

theorem Sched.JustSent.unanswered_zero : c.unanswered d w 0 = c := by
  have htime : c.timeAfter 0 = c.time := BitVec.add_zero c.time
  rw [Sched.unanswered_beforeRx1 hc.delayPos, Sched.beforeRx1, htime]

end Plan

/-! ## Many ticks -/

theorem ticks_succ_of_ticks {n : Nat} {s t : State} (h : ticks n s = .next t) : ticks (n + 1) s = exec .tick t := by
  induction n generalizing s with
  | zero =>
    obtain ⟨m, hm⟩ := exec_next .tick s
    cases h
    rw [ticks, hm]
    rfl
  | succ n ih =>
    obtain ⟨m, hm⟩ := exec_next .tick s
    rw [ticks, hm, andThen_next] at h ⊢
    exact ih h

theorem ticks_unanswered {d w n : Nat} {s : State} (hc : s.sched.JustSent d w) (hn : n ≤ d + 1000 + w) :
    ∃ t, ticks n s = .next t ∧ t.sched = s.sched.unanswered d w n := by
  induction n with
  | zero => exact ⟨s, rfl, hc.unanswered_zero.symm⟩
  | succ n ih =>
    obtain ⟨m, hm, hsched⟩ := ih (by omega)
    rw [ticks_succ_of_ticks hm]
    exact tick_unanswered hc hn hsched

theorem Sched.unanswered_time (c : Sched) (d w n : Nat) : (c.unanswered d w n).time = c.timeAfter n := by
  unfold Sched.unanswered
  repeat' split
  all_goals rfl

/-- A stage of the plan shows its state and its action. -/
theorem afterTicks_of_stage {d w n : Nat} {s : State} {c : Sched} (hc : s.sched.JustSent d w)
    (hn : n ≤ d + 1000 + w) (hstage : s.sched.unanswered d w n = c) :
    AfterTicks n s c.schedState c.radioAction := by
  obtain ⟨t, ht, hsched⟩ := ticks_unanswered hc hn
  have htime := Sched.unanswered_time s.sched d w n
  rw [hstage] at hsched htime
  refine ⟨t, ht, by rw [hsched], by rw [hsched], ?_⟩
  rw [hsched, htime, hc.toNat_timeAfter hn]

/-- Settles O54: the five stages of the plan. -/
theorem uplinkWindowsOpenOnTime : Obligations.UplinkWindowsOpenOnTime := by
  intro s d w hstate hsent hdelay hwindow hshort hwrap
  have hc : s.sched.JustSent d w := ⟨hstate, hsent, rfl, rfl, hdelay, hwindow, hshort, hwrap⟩
  refine ⟨fun n hn => ?_, fun n hd hn => ?_, fun n hw hn => ?_, fun n hd hn => ?_, ?_⟩
  · rw [← hstate]
    exact afterTicks_of_stage (c := s.sched.beforeRx1 n) hc (by omega) (Sched.unanswered_beforeRx1 hn)
  · exact afterTicks_of_stage hc (by omega) (Sched.unanswered_inRx1 hd hn)
  · exact afterTicks_of_stage hc (by omega) (Sched.unanswered_beforeRx2 hw hn)
  · exact afterTicks_of_stage hc (by omega) (hc.unanswered_inRx2 hd hn)
  · exact afterTicks_of_stage hc (le_refl _) (hc.unanswered_afterRx2 (le_refl _))

end Sys2Proof.Machine
end

section
/-! PROOFS. The invariant at reset (70_reset_and_hazards R330, 42_scheduler R261). -/

namespace Sys2Proof.Machine

/-- Settles O59: no buffer byte is listed, every reserved bit is 0, and Class A starts in Idle. -/
theorem resetSatisfiesInvariant : Obligations.ResetSatisfiesInvariant :=
  ⟨⟨rfl, rfl, Operands.reset_txHdr_reserved⟩, Results.reset_inv, Sched.reset_inv, rfl, by decide⟩

end Sys2Proof.Machine
end

section
/-! PROOFS. Exceptions (60_exceptions R290 to R302): no step stops the core, a bus error is only its response, a failed
command writes only its error, the checks of every command in order, and the `irq` output. -/

namespace Sys2Proof.Machine

open Sys2Proof.Claim

/-! ## Every step answers (R292) -/

theorem busPhase_next (bus : Option BusOp) (s : State) : ∃ a, busPhase bus s = .next a := by
  rcases bus with _ | ⟨off, size⟩ | ⟨off, size, v⟩
  · exact ⟨_, rfl⟩
  · exact ⟨_, rfl⟩
  · rcases busWrite_cases s off size v with ⟨-, h⟩ | ⟨r, -, -, -, h⟩ | ⟨-, -, h⟩ | ⟨r, i, -, -, -, -, h⟩ |
      ⟨r, e, -, -, -, -, h⟩
    case inr.inr.inr.inl =>
      obtain ⟨a, hexec⟩ := exec_next i { s with resp := some .done }
      exact ⟨a, h.trans hexec⟩
    all_goals exact ⟨_, h⟩

/-- Settles O7: a hard reset answers at once, and without one each of the three phases does. -/
theorem everyStepAnswersNext : Obligations.EveryStepAnswersNext := by
  intro s
  cases hrst : s.nextInput.rst with
  | true => exact ⟨s.popInput.hardReset, by rw [step, cycle, cycleWith, hrst, if_pos rfl]⟩
  | false =>
    obtain ⟨a, hbus⟩ := busPhase_next s.nextInput.bus { s.popInput with resp := none }
    obtain ⟨b, t, -, -, hstep⟩ := step_after_bus hrst hbus
    exact ⟨t, hstep⟩

/-! ## Bus errors (R296) -/

theorem busPhase_busError {op : BusOp} {off : Offset} {size : AccessSize} {v : Word}
    (hop : op = .read off size ∨ op = .write off size v) (herr : BusError off size) (s : State) :
    busPhase (some op) s = .next { s with resp := some .error } := by
  have hacc : accessReg off size = none := (accessReg_eq_none_iff off size).mpr herr
  rcases hop with rfl | rfl
  · rw [busPhase, State.busRead, hacc]
  · rw [busPhase, busWrite, hacc]

/-- Settles O15: the access leaves only its response, which the engine and the tick do not look at. -/
theorem busErrorChangesNothing : Obligations.BusErrorChangesNothing := by
  refine ⟨rfl, fun s op off size v hop herr hrst hbus => ?_⟩
  obtain ⟨t, h, h'⟩ := engine_then_tick_with_resp s.nextInput.tick { s.popInput with resp := none } (some .error)
  refine ⟨t, ?_, ?_⟩
  · rw [step_of_not_rst hrst, hbus, busPhase_busError hop herr]
    exact h'
  · rw [step_of_not_rst (by exact hrst)]
    exact h

/-! ## Failed commands (R291) -/

theorem State.failWith_eq (s : State) (e : ErrCode) :
    s.failWith e = { s with errCode := e, irqStatus := s.irqStatus ||| 0b00011, running := none } := by
  rw [State.failWith, or_cmdDone_or_cmdErr]

/-- A command that ends with an error committed nothing. -/
theorem exec_command_failed {i : Instr} (hi : isCommand i = true) {s t : State} (h : exec i s = .next t)
    (herr : t.errCode ≠ .ok) : t = s.failWith t.errCode := by
  rcases command_keeps i hi s t h with ⟨e, rfl⟩ | ⟨o, r, rfl, -⟩
  · rfl
  · exact absurd rfl herr

theorem completeRunning_failed {w : Word} {s t : State} (h : completeRunning w s = .next t) (herr : t.errCode ≠ .ok) :
    t = s.failWith t.errCode := by
  cases hdec : decodeCmd w with
  | ok i =>
    rw [completeRunning, hdec] at h
    exact exec_command_failed (isCommand_of_decodeCmd hdec) h herr
  | error e =>
    rw [completeRunning, hdec] at h
    cases h
    rfl

/-- Settles O27: a completion with an error is `failWith`, for a command and for any word. -/
theorem failedCommandWritesNothingElse : Obligations.FailedCommandWritesNothingElse := by
  refine ⟨fun i s t hi h herr => ?_, fun w s t h herr => ?_⟩
  · exact (exec_command_failed hi h herr).trans (s.failWith_eq _)
  · exact (completeRunning_failed h herr).trans (s.failWith_eq _)

/-! ## The error code a command ends with (R290, R295) -/

/-- The error code that a command's semantics ends with. -/
def CmdResult.errCode : CmdResult → ErrCode
  | .ok _ => .ok
  | .error e => e

@[simp] theorem CmdResult.errCode_ok (p : Operands × Results) : CmdResult.errCode (.ok p) = .ok := rfl
@[simp] theorem CmdResult.errCode_error (e : ErrCode) : CmdResult.errCode (.error e) = e := rfl

@[simp] theorem CmdResult.errCode_ite (c : Prop) [Decidable c] (x y : CmdResult) :
    CmdResult.errCode (if c then x else y) = if c then CmdResult.errCode x else CmdResult.errCode y :=
  apply_ite CmdResult.errCode c x y

@[simp] theorem CmdResult.errCode_checkLen (len : Len) (x : CmdResult) :
    CmdResult.errCode (checkLen len x) = if len.toNat > 256 then .lenRange else CmdResult.errCode x :=
  CmdResult.errCode_ite ..

@[simp] theorem State.complete_errCode (s : State) (x : CmdResult) : (s.complete x).errCode = CmdResult.errCode x := by
  cases x <;> rfl

/-- A command whose semantics gives `x` ends with the error code of `x`. -/
theorem exec_ends_with {i : Instr} {s : State} {x : CmdResult} {e : ErrCode} (hexec : exec i s = .next (s.complete x))
    (herr : CmdResult.errCode x = e) : ∃ t, exec i s = .next t ∧ t.errCode = e :=
  ⟨_, hexec, (s.complete_errCode x).trans herr⟩

theorem errCode_jreqResult (n o : Operands) (r : Results) :
    CmdResult.errCode (jreqResult n o r) = if n.joined then .alreadyJoined else .ok := by
  rw [jreqResult, CmdResult.errCode_ite, CmdResult.errCode_error, CmdResult.errCode_ok]

theorem errCode_jaccResult (len : Len) (n o : Operands) (r : Results) :
    let p := joinPlain n.k0 (n.fbuf len.toNat)
    CmdResult.errCode (jaccResult len n o r) =
      if len.toNat > 256 then .lenRange
      else if n.joined then .alreadyJoined
      else if len.toNat ≠ 17 ∧ len.toNat ≠ 33 then .badJaLen
      else if tag4 n.k0 (sub p 0 (len.toNat - 4)) ≠ sub p (len.toNat - 4) 4 then .badMic
      else .ok := by
  -- the plaintext and the MIC of R295 are the model's by definition
  simp only [jaccResult, CmdResult.errCode_checkLen, CmdResult.errCode_ite, CmdResult.errCode_error,
    CmdResult.errCode_ok]
  rfl

theorem errCode_dataEncResult (len : Len) (n o : Operands) (r : Results) :
    CmdResult.errCode (dataEncResult len n o r) =
      if len.toNat > 256 then .lenRange
      else if ¬n.joined then .notJoined
      else if dataFrameLen (txFoptsLen n.txHdr).toNat len.toNat > 256 then .lenRange
      else .ok := by
  simp only [dataEncResult, CmdResult.errCode_checkLen, CmdResult.errCode_ite, CmdResult.errCode_error,
    CmdResult.errCode_ok, Bool.not_eq_true', Bool.not_eq_true]

/-! ## The checks of DATA_DEC (R295) -/

/-- The MType check by a range is the one by the four data types. -/
theorem mtype_outside_iff (mt : Nat) : (mt < 2 ∨ mt > 5) ↔ (mt ≠ 2 ∧ mt ≠ 3 ∧ mt ≠ 4 ∧ mt ≠ 5) := by omega

/-- Four bytes make no number wider than the address register. -/
theorem parseFrame_addr_ne_iff (f : List Byte) (fcntUp addr : Word) :
    (parseFrame f fcntUp).addr ≠ addr ↔ fromLE (sub f 1 4) ≠ addr.toNat := by
  have hlt : fromLE (sub f 1 4) < 2 ^ 32 := calc
    fromLE (sub f 1 4) < 256 ^ (sub f 1 4).length := fromLE_lt _
    _ ≤ 256 ^ 4 := Nat.pow_le_pow_right (by decide) (by rw [length_sub]; exact Nat.min_le_left ..)
    _ = 2 ^ 32 := by decide
  rw [not_iff_not, ← BitVec.toNat_inj]
  simp only [parseFrame, BitVec.toNat_ofNat]
  rw [Nat.mod_eq_of_lt hlt]

/-- For a frame from DEVADDR, the MIC the decoder expects is R295's tag. -/
theorem dataMic_parseFrame (n : Operands) {f : List Byte} {len : Nat} (hf : f.length = len)
    (haddr : (parseFrame f n.fcntUp).addr = n.devAddr) :
    let x := parseFrame f n.fcntUp
    dataMic n x.dir x.addr x.fcnt32 (sub f 0 (len - 4)) =
      tag4 n.k1 (b0Bytes x.dir n.devAddr x.fcnt32 (len - 4) ++ sub f 0 (len - 4)) := by
  intro x
  have hmsg : (sub f 0 (len - 4)).length = len - 4 := by rw [length_sub]; omega
  rw [dataMic_eq_tag4, hmsg, haddr]

theorem errCode_dataDecResult (len : Len) (n o : Operands) (r : Results) :
    let f := n.fbuf len.toNat
    let x := parseFrame f n.fcntUp
    CmdResult.errCode (dataDecResult len n o r) =
      if len.toNat > 256 then .lenRange
      else if ¬n.joined then .notJoined
      else if len.toNat < 12 then .tooShort
      else if mtypeOf x.mhdr ≠ 2 ∧ mtypeOf x.mhdr ≠ 3 ∧ mtypeOf x.mhdr ≠ 4 ∧ mtypeOf x.mhdr ≠ 5 then .badMhdr
      else if fromLE (sub f 1 4) ≠ n.devAddr.toNat then .wrongDevAddr
      else if len.toNat < 12 + rxFol f then .badFopts
      else if tag4 n.k1 (b0Bytes x.dir n.devAddr x.fcnt32 (len.toNat - 4) ++ sub f 0 (len.toNat - 4)) ≠
        sub f (len.toNat - 4) 4 then .badMic
      else .ok := by
  intro f x
  have hf : f.length = len.toNat := n.length_fbuf len.toNat
  have hmic : x.mic = sub f (len.toNat - 4) 4 := hf ▸ rfl
  have haddr : x.addr ≠ n.devAddr ↔ fromLE (sub f 1 4) ≠ n.devAddr.toNat := parseFrame_addr_ne_iff f n.fcntUp n.devAddr
  simp only [dataDecResult, CmdResult.errCode_checkLen, CmdResult.errCode_ite, CmdResult.errCode_error,
    CmdResult.errCode_ok, Bool.not_eq_true', Bool.not_eq_true]
  refine if_congr .rfl rfl (if_congr .rfl rfl (if_congr .rfl rfl (if_congr (mtype_outside_iff _) rfl ?_)))
  refine ite_congr (propext haddr) (fun _ => rfl) fun hnot => if_congr .rfl rfl ?_
  have hdev : x.addr = n.devAddr := not_not.mp (mt haddr.mp hnot)
  rw [← dataMic_parseFrame n hf hdev, ← hmic]

/-- Settles O28: each command's semantics read off as its chain of checks. -/
theorem commandsCheckInFixedOrder : Obligations.CommandsCheckInFixedOrder := by
  refine ⟨fun w e s hdec => ⟨s.failWith .illegalCmd, by rw [completeRunning, hdec], rfl⟩,
    fun ks s => ⟨_, rfl, rfl⟩, fun s => ⟨_, rfl, rfl⟩, fun s => ⟨_, rfl, rfl⟩,
    fun ks len s => exec_ends_with rfl (CmdResult.errCode_checkLen ..),
    fun ks len s => exec_ends_with rfl (CmdResult.errCode_checkLen ..),
    fun s => exec_ends_with rfl (errCode_jreqResult ..),
    fun len s => exec_ends_with rfl (errCode_jaccResult ..),
    fun len s => exec_ends_with rfl (errCode_dataEncResult ..),
    fun len s => exec_ends_with rfl (errCode_dataDecResult ..)⟩

/-! ## The `irq` output (R300) -/

theorem ne_zero_iff_exists_getLsbD {w : Nat} (x : BitVec w) : x ≠ 0 ↔ ∃ i : Fin w, x.getLsbD i = true := by
  simp only [ne_eq, BitVec.eq_of_getLsbD_eq_iff, BitVec.ofNat_eq_ofNat, BitVec.getLsbD_zero, not_forall,
    Bool.not_eq_false, Fin.exists_iff]

/-- Settles O25: a word is not 0 when one of its bits is 1. -/
theorem irqOutputIsMaskedOr : Obligations.IrqOutputIsMaskedOr := by
  intro s
  rw [State.irq, bne_iff_ne, ne_zero_iff_exists_getLsbD]
  simp only [BitVec.getLsbD_and, Bool.and_eq_true]

end Sys2Proof.Machine
end

section
/-! PROOFS. The two resets (70_reset_and_hazards R330, R331): the value of every register after a hard reset, and a soft
reset as a hard reset that keeps TIME, TIME_HI_LATCH and the buffers of an idle core. -/

namespace Sys2Proof.Machine

open Sys2Proof.Claim

/-! ## Hard reset (R330) -/

theorem blockWord_zero (j : BitVec 2) : blockWord 0 j = 0 := BitVec.extractLsb'_zero

theorem hiWord_zero : hiWord 0 = 0 := BitVec.extractLsb'_zero

theorem Operands.key_of_reset (m : Memory) (e : Nat) (ks : KeySlot) :
    ({ Operands.reset with mem := m, bufEpoch := e } : Operands).key ks = 0 := by
  simp only [Operands.key, Operands.reset, ite_self]

/-- BUSY, JOINED and ERRCODE are all 0: no command runs and the session registers are 0. -/
theorem State.statusWord_hardReset (s : State) : s.hardReset.statusWord = 0 := by
  simp [State.statusWord, State.busy, Operands.joined, Operands.reset, ErrCode.code]

theorem State.irq_of_irqStatus_zero {s : State} (h : s.irqStatus = 0) : s.irq = false := by
  simp [State.irq, h]

/-- R330's table: a word of a 16-byte string, a high word and STATUS are each 0, and the other registers compute. -/
theorem State.readReg_hardReset (s : State) {r : Reg} (hr : isBuffer r = false) :
    s.hardReset.readReg r = resetWord r := by
  cases r with
  | pbuf j | fbuf j => cases hr
  | txFopts j | rxFopts j | blockIn j | blockOut j | macOut j => exact blockWord_zero j
  | status => exact s.statusWord_hardReset
  | appEuiHi | devEuiHi | txEndTsHi | winOpenTsHi => exact hiWord_zero
  | key ks j => exact (congrArg (blockWord · j) (Operands.key_of_reset _ _ ks)).trans (blockWord_zero j)
  | _ => rfl

theorem step_of_rst {s : State} (hrst : s.nextInput.rst = true) : step s = .next s.popInput.hardReset := by
  rw [step, cycle, cycleWith, hrst, if_pos rfl]

/-- Settles O57: the cycle of a hard reset is the reset alone, whatever its access and tick are. -/
theorem hardResetGivesResetValues : Obligations.HardResetGivesResetValues :=
  fun _ hrst => ⟨_, step_of_rst hrst, rfl, State.irq_of_irqStatus_zero rfl, fun _ hr => State.readReg_hardReset _ hr⟩

/-! ## Soft reset (R331) -/

theorem decode_ctrl_of_bit0 {v : Word} (hv : v.getLsbD 0 = true) : decode (.busWrite 0x004 v) = .ok .srst := by
  simp [decode, hv, Config.cmdOffset, Config.eventOffset, Config.schedCtrlOffset, Config.ctrlOffset]

/-- R331's two exceptions: every other register reads as after a hard reset. -/
theorem State.readReg_softReset (s : State) {r : Reg} (hr : isBuffer r = false) (hlo : r ≠ .timeLo)
    (hhi : r ≠ .timeHi) : s.softReset.readReg r = s.hardReset.readReg r := by
  cases r with
  | pbuf j | fbuf j => cases hr
  | timeLo => exact absurd rfl hlo
  | timeHi => exact absurd rfl hhi
  | _ => rfl

theorem State.softReset_sameBytes {s : State} (hidle : s.running = none) : SameBytes s.op s.softReset.op := by
  have hbusy : s.busy = false := by rw [State.busy, hidle, Option.isSome_none]
  intro a
  simp [Operands.byteAt, hbusy]

/-- Settles O58: CTRL's bit 0 decodes to SRST, and a soft reset is a hard reset but for TIME, TIME_HI_LATCH, the
response and an idle core's buffers. -/
theorem softResetKeepsTime : Obligations.SoftResetKeepsTime :=
  ⟨fun _ => decode_ctrl_of_bit0, fun s => ⟨s.softReset, rfl, rfl, State.irq_of_irqStatus_zero rfl, rfl, rfl, rfl,
    fun _ hr hlo hhi => (s.readReg_softReset hr hlo hhi).trans (s.readReg_hardReset hr), State.softReset_sameBytes⟩⟩

end Sys2Proof.Machine
end
